-- ==== Sys2Proof/Word.lean ====
section
/-! DEFINITION. The word types of the block (00_scope.md rules R6, R7): a byte is an unsigned 8-bit value, a uint16 is 16
bits, a float is carried as its 32-bit pattern. -/

namespace Sys2Proof

/-- One byte of a stream (R7). -/
abbrev Byte := BitVec 8

/-- A uint16 wire value (R93). -/
abbrev Half := BitVec 16

/-- The 32-bit pattern of a float (R92); the block never computes with it (R116). -/
abbrev Pattern := BitVec 32

end Sys2Proof
end

