-- ==== Sys2Proof/Config.lean ====
section
/-! DEFINITION. What one build of the block fixes (00_scope.md rule R6), the shape of a collaborator's behaviour, and the free
values: constants without a body, of which nothing can be proved. -/

namespace Sys2Proof

/-- `BYTE_ORDER` (R56): least or most significant byte transferred first (R57). -/
inductive ByteOrder where
  | LE
  | BE
  deriving DecidableEq, Repr, Inhabited

/-- `HEX_CASE` (R95): the case of the letters of the echo's hexadecimal field. -/
inductive HexCase where
  | upper
  | lower
  deriving DecidableEq, Repr, Inhabited

/-- `STOP_VARIANT` (R164): the two contracts the source leaves open. -/
inductive StopVariant where
  | plain
  | withOut
  deriving DecidableEq, Repr, Inhabited

/-- The parameters of R6 that are not fixed numbers. `State` carries one as a constant field, so that a statement about every
state is a statement about every build (log 6). -/
structure Config where
  byteOrder    : ByteOrder
  hexCase      : HexCase
  stopVariant  : StopVariant
  /-- `BEEP_DURATION`, a duration of unknown unit on which nothing depends (R210). -/
  beepDuration : Nat
  /-- `OUT_CAPACITY` (R68): `none` is unbounded. -/
  outCapacity  : Option Nat
  deriving DecidableEq, Repr

/-- One thing a collaborator does during its call (R200, R203, R206, R209). -/
inductive Act where
  /-- It takes `n` bytes from a lent `IN`. -/
  | take (n : Nat)
  /-- It gives bytes to a lent `OUT`. -/
  | give (bytes : List Byte)
  /-- It keeps the call for one more step (R196). -/
  | linger
  /-- It never returns (R209 (b)). -/
  | hang
  deriving DecidableEq, Repr

/-- What a collaborator does in one call: its acts in order, then its return, with the 32-bit result a getter returns. -/
structure Answer where
  acts   : List Act
  result : Pattern
  deriving DecidableEq, Repr, Inhabited

/-- The build's byte order, OPEN (R56: "do not infer a specific byte order from absence of evidence"; log 1). -/
opaque Config.openByteOrder : ByteOrder

/-- The build's letter case, OPEN (92_eei_decisions.md D9; log 2). -/
opaque Config.openHexCase : HexCase

/-- The build's tone duration, OPEN (D17; log 4). -/
opaque Config.openBeepDuration : Nat

/-- What the indicator was last asked for before the block's first request: any value (93_implementation_defined.md U15; log 9). -/
opaque Config.freeIndicator : Bool

/-- A collaborator's behaviour in a call for which the state holds no answer: any value (U6, U7, U9, U10; log 14). -/
opaque Config.freeAnswer : Nat → Answer

/-- The parameters after reset: the OPEN ones uninterpreted, `STOP_VARIANT` the spec's `plain` (D14), `OUT_CAPACITY` the spec's
default, unbounded (D22). -/
def Config.build : Config where
  byteOrder    := Config.openByteOrder
  hexCase      := Config.openHexCase
  stopVariant  := .plain
  beepDuration := Config.openBeepDuration
  outCapacity  := none

end Sys2Proof
end

