-- ==== Sys2Proof/Syntax.lean ====
section
/-! DEFINITION. The instructions: one constructor for each row of spec/opcode_table.json (30_encoding.md rules R82, R86). The
operands of a row are the header bytes its match does not fix. Payload bytes are no operands: the action reads them from
`IN` (41_parser.md rule R139). -/

namespace Sys2Proof

/-- The three header formats of R82. -/
inductive Format where
  /-- `k` -/
  | p1
  /-- `k c1 c2 c3` -/
  | f3
  /-- `k c1 c2 c3 c4` -/
  | f4
  deriving DecidableEq, Repr

/-- How many header bytes a format has (R82). -/
def Format.bytes : Format → Nat
  | .p1 => 1
  | .f3 => 4
  | .f4 => 5

/-- The verdicts and decoder steps of R86, the seven commands (R83) among them. -/
inductive Instr where
  /-- `FRAME_START` (R134). -/
  | frameStart
  /-- `PROBE` (R132). -/
  | probe (k : Byte)
  /-- `RESYNC3.c1` (R135): the sentinel stands in `c1`. -/
  | resync3C1 (c2 c3 : Byte)
  /-- `RESYNC3.c2` (R135): the first sentinel stands in `c2`. -/
  | resync3C2 (c1 c3 : Byte)
  /-- `RESYNC3.c3` (R135): the only sentinel stands in `c3`. -/
  | resync3C3 (c1 c2 : Byte)
  /-- `CLR` (R160). -/
  | clr
  /-- `PIC` (R161). -/
  | pic
  /-- `POS` (R162). -/
  | pos
  /-- `NEED_C4` (R136). -/
  | needC4 (c1 c2 c3 : Byte)
  /-- `RESYNC4` (R137). -/
  | resync4 (c1 c2 c3 : Byte)
  /-- `MOVE` (R163). -/
  | move
  /-- `STOP` (R164). -/
  | stop
  /-- `SCAN` (R165). -/
  | scan
  /-- `BEEP` (R166). -/
  | beep
  /-- `INVALID` (R167). -/
  | invalid (c1 c2 c3 c4 : Byte)
  deriving DecidableEq, Repr

/-- The format of an instruction's header (R82, R86). -/
def Instr.format : Instr → Format
  | .frameStart | .probe _ => .p1
  | .resync3C1 _ _ | .resync3C2 _ _ | .resync3C3 _ _ | .clr | .pic | .pos | .needC4 _ _ _ => .f3
  | .resync4 _ _ _ | .move | .stop | .scan | .beep | .invalid _ _ _ _ => .f4

/-- The mnemonic of an instruction's row, as spec/opcode_table.json spells it. -/
def Instr.mnemonic : Instr → String
  | .frameStart      => "FRAME_START"
  | .probe _         => "PROBE"
  | .resync3C1 _ _   => "RESYNC3.c1"
  | .resync3C2 _ _   => "RESYNC3.c2"
  | .resync3C3 _ _   => "RESYNC3.c3"
  | .clr             => "CLR"
  | .pic             => "PIC"
  | .pos             => "POS"
  | .needC4 _ _ _    => "NEED_C4"
  | .resync4 _ _ _   => "RESYNC4"
  | .move            => "MOVE"
  | .stop            => "STOP"
  | .scan            => "SCAN"
  | .beep            => "BEEP"
  | .invalid _ _ _ _ => "INVALID"

end Sys2Proof
end

