-- ==== Sys2Proof/WellFormed.lean ====
section
/-! DEFINITION. The sentinel, the command codes, and which operands an instruction may carry: those for which no earlier test of
30_encoding.md rule R86 applies. -/

namespace Sys2Proof

/-- `SENTINEL`, the character `!` (R6; ASCII, log 28). -/
def sentinel : Byte := 0x21#8

/-- The codes of R83, first letter first. -/
abbrev codeCLR : List Byte := [0x43#8, 0x4C#8, 0x52#8]
/-- `PIC` (R83). -/
abbrev codePIC : List Byte := [0x50#8, 0x49#8, 0x43#8]
/-- `POS` (R83). -/
abbrev codePOS : List Byte := [0x50#8, 0x4F#8, 0x53#8]
/-- `MOVE` (R83). -/
abbrev codeMOVE : List Byte := [0x4D#8, 0x4F#8, 0x56#8, 0x45#8]
/-- `STOP` (R83). -/
abbrev codeSTOP : List Byte := [0x53#8, 0x54#8, 0x4F#8, 0x50#8]
/-- `SCAN` (R83). -/
abbrev codeSCAN : List Byte := [0x53#8, 0x43#8, 0x41#8, 0x4E#8]
/-- `BEEP` (R83). -/
abbrev codeBEEP : List Byte := [0x42#8, 0x45#8, 0x45#8, 0x50#8]

/-- No byte of the window is the sentinel (R135, R137). -/
def sentinelFree (window : List Byte) : Bool := window.all (fun b => b != sentinel)

/-- The window is one of the three-byte codes (R85, R136). -/
def isCode3 (c1 c2 c3 : Byte) : Bool :=
  [c1, c2, c3] == codeCLR || [c1, c2, c3] == codePIC || [c1, c2, c3] == codePOS

/-- The window is one of the four-byte codes (R85, R138). -/
def isCode4 (c1 c2 c3 c4 : Byte) : Bool :=
  [c1, c2, c3, c4] == codeMOVE || [c1, c2, c3, c4] == codeSTOP || [c1, c2, c3, c4] == codeSCAN
    || [c1, c2, c3, c4] == codeBEEP

/-- A three-byte window after which the parser reads a fourth byte (R87): sentinel-free and none of `CLR PIC POS`. -/
def needsFourth (c1 c2 c3 : Byte) : Bool := sentinelFree [c1, c2, c3] && !isCode3 c1 c2 c3

/-- The operands an instruction can carry: those its row is reached with in the decode order of R86. -/
def Instr.wellFormed : Instr → Bool
  | .probe k             => k != sentinel
  | .resync3C2 c1 _      => sentinelFree [c1]
  | .resync3C3 c1 c2     => sentinelFree [c1, c2]
  | .needC4 c1 c2 c3     => needsFourth c1 c2 c3
  | .resync4 c1 c2 c3    => needsFourth c1 c2 c3
  | .invalid c1 c2 c3 c4 => needsFourth c1 c2 c3 && c4 != sentinel && !isCode4 c1 c2 c3 c4
  | .frameStart | .resync3C1 _ _ | .clr | .pic | .pos | .move | .stop | .scan | .beep => true

end Sys2Proof
end

