-- ==== Sys2Proof/Decode.lean ====
section
/-! DEFINITION. Decoding a header (30_encoding.md rule R86), the encoder, the opcode table as data, and the host's entry
`decodeTableWord`. A header is the bytes the parser has in its registers when it decides (R82): one, four or five. -/

namespace Sys2Proof

/-- Why a list of bytes is no header on which the parser decides. -/
inductive DecodeError where
  /-- No format has this many bytes (R82). -/
  | noFormat (length : Nat)
  /-- A window is only read after `k` was the sentinel (R134). -/
  | noSentinel (k : Byte)
  /-- The first three bytes already decide, so no fourth is read (R86 orders 2 and 3, R87). -/
  | decidedAtThree (c1 c2 c3 : Byte)
  deriving DecidableEq, Repr

/-- R86 order 1. -/
def decodeP1 (k : Byte) : Instr := if k = sentinel then .frameStart else .probe k

/-- R86 orders 2 and 3, on `c1 c2 c3`. -/
def decodeF3 (c1 c2 c3 : Byte) : Instr :=
  if c1 = sentinel then .resync3C1 c2 c3
  else if c2 = sentinel then .resync3C2 c1 c3
  else if c3 = sentinel then .resync3C3 c1 c2
  else if [c1, c2, c3] = codeCLR then .clr
  else if [c1, c2, c3] = codePIC then .pic
  else if [c1, c2, c3] = codePOS then .pos
  else .needC4 c1 c2 c3

/-- R86 orders 4 to 6, on `c1 c2 c3 c4`. -/
def decodeF4 (c1 c2 c3 c4 : Byte) : Instr :=
  if c4 = sentinel then .resync4 c1 c2 c3
  else if [c1, c2, c3, c4] = codeMOVE then .move
  else if [c1, c2, c3, c4] = codeSTOP then .stop
  else if [c1, c2, c3, c4] = codeSCAN then .scan
  else if [c1, c2, c3, c4] = codeBEEP then .beep
  else .invalid c1 c2 c3 c4

/-- The verdict on a header, the bytes in the order they were read (R82, R86). -/
def decode : List Byte → Except DecodeError Instr
  | [k] => .ok (decodeP1 k)
  | [k, c1, c2, c3] =>
    if k = sentinel then .ok (decodeF3 c1 c2 c3) else .error (.noSentinel k)
  | [k, c1, c2, c3, c4] =>
    if k ≠ sentinel then .error (.noSentinel k)
    else if needsFourth c1 c2 c3 then .ok (decodeF4 c1 c2 c3 c4)
    else .error (.decidedAtThree c1 c2 c3)
  | bytes => .error (.noFormat bytes.length)

/-- The header of a well-formed instruction, byte by byte (R82, R83). -/
def encode : Instr → List Byte
  | .frameStart          => [0x21#8]
  | .probe k             => [k]
  | .resync3C1 c2 c3     => [0x21#8, 0x21#8, c2, c3]
  | .resync3C2 c1 c3     => [0x21#8, c1, 0x21#8, c3]
  | .resync3C3 c1 c2     => [0x21#8, c1, c2, 0x21#8]
  | .clr                 => [0x21#8, 0x43#8, 0x4C#8, 0x52#8]
  | .pic                 => [0x21#8, 0x50#8, 0x49#8, 0x43#8]
  | .pos                 => [0x21#8, 0x50#8, 0x4F#8, 0x53#8]
  | .needC4 c1 c2 c3     => [0x21#8, c1, c2, c3]
  | .resync4 c1 c2 c3    => [0x21#8, c1, c2, c3, 0x21#8]
  | .move                => [0x21#8, 0x4D#8, 0x4F#8, 0x56#8, 0x45#8]
  | .stop                => [0x21#8, 0x53#8, 0x54#8, 0x4F#8, 0x50#8]
  | .scan                => [0x21#8, 0x53#8, 0x43#8, 0x41#8, 0x4E#8]
  | .beep                => [0x21#8, 0x42#8, 0x45#8, 0x45#8, 0x50#8]
  | .invalid c1 c2 c3 c4 => [0x21#8, c1, c2, c3, c4]

/-- One row of spec/opcode_table.json: a header word `h` of the format matches when `h &&& mask = pattern` (R82). -/
structure TableRow where
  mnemonic : String
  format   : Format
  pattern  : BitVec 40
  mask     : BitVec 40
  priority : Nat
  deriving DecidableEq, Repr

/-- The rows of spec/opcode_table.json, in the file's order; header words widened with zeros to 40 bits. -/
def opcodeTable : List TableRow := [
  ⟨"FRAME_START", .p1, 0x21#40, 0xFF#40, 1⟩,
  ⟨"PROBE", .p1, 0x00#40, 0x00#40, 2⟩,
  ⟨"RESYNC3.c1", .f3, 0x21210000#40, 0xFFFF0000#40, 3⟩,
  ⟨"RESYNC3.c2", .f3, 0x21002100#40, 0xFF00FF00#40, 3⟩,
  ⟨"RESYNC3.c3", .f3, 0x21000021#40, 0xFF0000FF#40, 3⟩,
  ⟨"CLR", .f3, 0x21434C52#40, 0xFFFFFFFF#40, 4⟩,
  ⟨"PIC", .f3, 0x21504943#40, 0xFFFFFFFF#40, 4⟩,
  ⟨"POS", .f3, 0x21504F53#40, 0xFFFFFFFF#40, 4⟩,
  ⟨"NEED_C4", .f3, 0x21000000#40, 0xFF000000#40, 5⟩,
  ⟨"RESYNC4", .f4, 0x2100000021#40, 0xFF000000FF#40, 6⟩,
  ⟨"MOVE", .f4, 0x214D4F5645#40, 0xFFFFFFFFFF#40, 7⟩,
  ⟨"STOP", .f4, 0x2153544F50#40, 0xFFFFFFFFFF#40, 7⟩,
  ⟨"SCAN", .f4, 0x215343414E#40, 0xFFFFFFFFFF#40, 7⟩,
  ⟨"BEEP", .f4, 0x2142454550#40, 0xFFFFFFFFFF#40, 7⟩,
  ⟨"INVALID", .f4, 0x2100000000#40, 0xFF00000000#40, 8⟩]

/-- The header word of R82: the bytes joined, `k` most significant, widened with zeros to 40 bits. -/
def headerWord : List Byte → BitVec 40
  | [k]                 => 0#32 ++ k
  | [k, c1, c2, c3]     => 0#8 ++ (k ++ (c1 ++ (c2 ++ c3)))
  | [k, c1, c2, c3, c4] => k ++ (c1 ++ (c2 ++ (c3 ++ c4)))
  | _                   => 0#40

/-- "Within one format the first row whose `(H & mask) == match` wins" (R86). -/
def firstMatch (format : Format) (header : BitVec 40) : Option String :=
  (opcodeTable.find? (fun r => r.format == format && header &&& r.mask == r.pattern)).map TableRow.mnemonic

/-- The bytes of a header word, `k` in the most significant place (R82); no format has another width. -/
def headerBytes (nbits word : Nat) : List Byte :=
  match nbits with
  | 8  => [BitVec.ofNat 8 word]
  | 32 => [BitVec.ofNat 8 (word >>> 24), BitVec.ofNat 8 (word >>> 16), BitVec.ofNat 8 (word >>> 8), BitVec.ofNat 8 word]
  | 40 => [BitVec.ofNat 8 (word >>> 32), BitVec.ofNat 8 (word >>> 24), BitVec.ofNat 8 (word >>> 16),
           BitVec.ofNat 8 (word >>> 8), BitVec.ofNat 8 word]
  | _  => []

/-- The instruction the decoder reads from a word of the opcode table (`none` where it refuses). -/
def decodeTableWord (nbits w : Nat) : Option Instr :=
  match decode (headerBytes nbits w) with
  | .ok i    => some i
  | .error _ => none

end Sys2Proof
end

