-- ==== Sys2Proof/Machine/State.lean ====
section
/-! DEFINITION. The state of the block (10_state.md), with the environment's choices beside it as plain data; the interface
events (00_scope.md rule R9); the reasons a step can stop; the state after reset. -/

namespace Sys2Proof.Machine

/-- The six values of `st` (R20). -/
inductive ParserState where
  | idle
  | probeByte
  | readCode3
  | readCode4
  | dispatch
  | done
  deriving DecidableEq, Repr

/-- The seven commands an `executed` outcome names (R2, R27). -/
inductive Code where
  | CLR | PIC | POS | MOVE | STOP | SCAN | BEEP
  deriving DecidableEq, Repr

/-- How a listen cycle ended (R27, R140). The label is the spec's; the real caller does not see it (92_eei_decisions.md D4). -/
inductive CycleOutcome where
  | probeEcho
  | executed (code : Code)
  | invalid
  deriving DecidableEq, Repr

/-- Which stream failed (R190): `in` or `out`. -/
inductive Dir where
  | inp
  | out
  deriving DecidableEq, Repr

/-- The three float payload registers (R24). -/
inductive FReg where
  | F0 | F1 | F2
  deriving DecidableEq, Repr

/-- The collaborator ports that are called and return (R28 to R31). -/
inductive Port where
  | setPose
  | getX
  | getY
  | getHeading
  | receiveSpeedInstruction
  | stop
  | capture
  | scan
  | toneStart
  | tonePlay
  | toneStop
  deriving DecidableEq, Repr

/-- A call event with its arguments and, for a getter, the value returned (R9, R28 to R31). -/
inductive Call where
  | setPose (x y heading : Pattern)
  | getX (value : Pattern)
  | getY (value : Pattern)
  | getHeading (value : Pattern)
  /-- Lent both streams (R203). -/
  | receiveSpeedInstruction
  /-- `stop()` (R204, `plain`). -/
  | stop
  /-- `stop(OUT)` (R204, `with_out`). -/
  | stopOut
  | capture
  /-- Lent `OUT` (R206). -/
  | scan
  | toneStart
  | tonePlay (frequency : Half)
  /-- The fixed-duration wait (R210). -/
  | wait (duration : Nat)
  | toneStop
  deriving DecidableEq, Repr

/-- The event alphabet of R9. -/
inductive Event where
  | start
  | ind (on : Bool)
  | inp (b : Byte)
  | out (b : Byte)
  | call (c : Call)
  | ret (o : CycleOutcome)
  | fault (d : Dir)
  deriving DecidableEq, Repr

/-- One statement of the pseudocode of 41_parser.md and 42_commands.md. An action is a list of them. -/
inductive Op where
  /-- `pc <- S` -/
  | goto (p : ParserState)
  /-- `IndSet(v)` (R25) -/
  | indSet (on : Bool)
  /-- `x[r] <- receive_float(IN)` (R111) -/
  | receiveFloat (r : FReg)
  /-- `x[U0] <- receive_uint16(IN)` (R112) -/
  | receiveUint16
  /-- `send_float(OUT, x[r])` (R110) -/
  | sendFloat (r : FReg)
  /-- `send_bytes(bytes, length(bytes))` (R113); also what is left of a write that holds -/
  | sendBytes (bytes : List Byte)
  /-- `Call port(args)`, the arguments being the port's registers (R200) -/
  | call (p : Port)
  /-- A call in progress: the acts still to come, then the return (R196, R209) -/
  | during (p : Port) (acts : List Act) (result : Pattern)
  /-- `Call wait(BEEP_DURATION)` (R210) -/
  | wait
  /-- `outcome <- o ; pc <- Done` (R132, R139) -/
  | finish (o : CycleOutcome)
  deriving DecidableEq, Repr

/-- What the host does at one moment (R215): it takes `drain` bytes from the head of `OUT` and appends `send` to `IN`. -/
structure HostMove where
  send  : List Byte
  drain : Nat
  deriving DecidableEq, Repr

/-- What the caller does at one moment in `Idle` (R215, R216): issue `START`, not yet, or never again. -/
inductive CallerMove where
  | start
  | wait
  | stop
  deriving DecidableEq, Repr

/-- The whole state: the spec's registers and streams, the history of events, the action in progress, and the environment's
choices still to come. -/
structure State where
  /-- The parameters of the build, never written (R6, R26). -/
  cfg     : Config
  /-- The parser state register (R20). -/
  st      : ParserState
  /-- The probe byte register (R21). -/
  k       : Byte
  /-- Code register (R22). -/
  c1      : Byte
  /-- Code register (R22). -/
  c2      : Byte
  /-- Code register (R22). -/
  c3      : Byte
  /-- The fourth code register (R23). -/
  c4      : Byte
  /-- Payload register `F0` (R24). -/
  f0      : Pattern
  /-- Payload register `F1` (R24). -/
  f1      : Pattern
  /-- Payload register `F2` (R24). -/
  f2      : Pattern
  /-- Payload register `U0` (R24). -/
  u0      : Half
  /-- `IND`, the last request: `true` is 1, on (R25). -/
  ind     : Bool
  /-- `IN`: the bytes the host has sent and the block has not read, head first (R50, R52). -/
  input   : List Byte
  /-- `OUT`: the bytes written and not yet drained, oldest first (R50, R54). -/
  output  : List Byte
  /-- The interface events so far, oldest first (R9). -/
  trace   : List Event
  /-- What is left of the action in progress while an access or a call holds (R196, R214). -/
  todo    : List Op
  /-- The outcome between the end of an action and `RET` (R140). -/
  outcome : Option CycleOutcome
  /-- The model's own: the host's coming moves, one a step (log 11). -/
  host    : List HostMove
  /-- The model's own: the caller's choice at each coming step in `Idle` (log 18). -/
  caller  : List CallerMove
  /-- The model's own: the driver's choice for each coming access attempt, `some n` to fail it after `n` bytes (log 12). -/
  faults  : List (Option Nat)
  /-- The model's own: the collaborators' behaviour in each coming call (log 14). -/
  answers : List Answer
  /-- The model's own: how many free answers have been drawn (log 14). -/
  draws   : Nat
  deriving DecidableEq, Repr

/-- Why the model stops. Each stands for a state that no run of the block reaches (log 24); none is an event of the spec, whose
one exception, `StreamFault`, is a next state (`takeStreamFault`). -/
inductive Fault where
  /-- Raised by `step` when a window was read after a `k` that is not the sentinel, or a fourth byte after a window that had
  already decided. Safe: the model stops where the spec has no row. -/
  | noRowMatches (e : DecodeError)
  /-- Raised by `step` in `Dispatch` with no action in progress. Safe: the model stops where the spec has no rule. -/
  | noActionInDispatch
  /-- Raised by `step` in `Done` with no outcome to return. Safe: the model stops where the spec has no rule. -/
  | noOutcomeInDone
  deriving DecidableEq, Repr

/-- Why an instruction is refused. -/
inductive Refusal where
  /-- Raised by an arm of `exec` whose instruction has no meaning in the model. Safe. No arm raises it now. -/
  | notModelled (mnemonic : String)
  deriving DecidableEq, Repr

/-- The state right after reset (R35, R230): `st = Idle`, no event, no cycle in progress. Registers the spec gives no value are
zero (logs 7, 8), `IND` is a free value (log 9), the streams are empty (log 10), the environment has chosen nothing yet
(logs 11, 12, 14, 18). -/
def State.reset : State where
  cfg     := Config.build
  st      := .idle
  k       := 0#8
  c1      := 0#8
  c2      := 0#8
  c3      := 0#8
  c4      := 0#8
  f0      := 0#32
  f1      := 0#32
  f2      := 0#32
  u0      := 0#16
  ind     := Config.freeIndicator
  input   := []
  output  := []
  trace   := []
  todo    := []
  outcome := none
  host    := []
  caller  := []
  faults  := []
  answers := []
  draws   := 0

end Sys2Proof.Machine
end

