-- ==== Sys2Proof/Machine/Ops.lean ====
section
/-! DEFINITION. The shared operations over registers and streams (20_memory.md), taking the one exception and returning to the
caller (60_exceptions.md, 41_parser.md rule R140), and the host's moves (R215). -/

namespace Sys2Proof.Machine

/-- One event, after all earlier ones (R9, R63). -/
def emit (e : Event) (s : State) : State := { s with trace := s.trace ++ [e] }

/-- `pc <- p` (R20). -/
def goto (p : ParserState) (s : State) : State := { s with st := p }

/-- Read of a float payload register (R24). -/
def getF (r : FReg) (s : State) : Pattern :=
  match r with
  | .F0 => s.f0
  | .F1 => s.f1
  | .F2 => s.f2

/-- Write of a float payload register (R24). -/
def setF (r : FReg) (w : Pattern) (s : State) : State :=
  match r with
  | .F0 => { s with f0 := w }
  | .F1 => { s with f1 := w }
  | .F2 => { s with f2 := w }

/-- Write of `U0` (R24). -/
def setU0 (u : Half) (s : State) : State := { s with u0 := u }

/-- The first `n` bytes of `IN` are taken, each an event `IN(b)` (R52, R53, R55). -/
def consume (n : Nat) (s : State) : State :=
  { s with input := s.input.drop n, trace := s.trace ++ (s.input.take n).map Event.inp }

/-- Bytes are appended to `OUT`, each an event `OUT(b)` (R54). -/
def produce (bytes : List Byte) (s : State) : State :=
  { s with output := s.output ++ bytes, trace := s.trace ++ bytes.map Event.out }

/-- How many of `n` bytes `OUT` has places for (R68). -/
def outRoom (n : Nat) (s : State) : Nat :=
  match s.cfg.outCapacity with
  | none   => n
  | some c => min n (c - s.output.length)

/-- Taking the one exception, `StreamFault(d)` (R190, R193): the cycle stops, `FAULT(d)` stands in place of `RET`, `st` returns to
`Idle`; nothing is saved or rolled back, and `IND` keeps its last value. There is no return from it: the caller's next `START`
begins a normal cycle (R194). -/
def takeStreamFault (d : Dir) (s : State) : State :=
  emit (.fault d) { s with st := .idle, todo := [], outcome := none }

/-- `Done -> Idle`: `RET(o)` (R140). -/
def returnToCaller (o : CycleOutcome) (s : State) : State :=
  emit (.ret o) { s with st := .idle, outcome := none }

/-- The driver's choice for the next access attempt: `none` lets it proceed, `some n` fails it (R191; log 12). -/
def driverChoice (s : State) : Option Nat := s.faults.headD none

/-- An access attempt uses up the driver's choice. -/
def attempt (s : State) : State := { s with faults := s.faults.tail }

/-- How an attempted read ends. -/
inductive ReadResult where
  | got (bytes : List Byte) (s : State)
  | held (s : State)
  | failed (s : State)

/-- `MemRead(IN, n)` (R52, R53): the next `n` bytes; a hold while fewer are there (R196); or a failure that has consumed at most
`n - 1` of them (R193). -/
def memRead (n : Nat) (s : State) : ReadResult :=
  if n = 0 then .got [] s
  else
    match driverChoice s with
    | some m => .failed (takeStreamFault .inp (consume (min m (n - 1)) (attempt s)))
    | none   =>
      if n ≤ s.input.length then .got (s.input.take n) (consume n (attempt s)) else .held (attempt s)

/-- How an attempted write ends. A hold keeps the bytes not yet accepted. -/
inductive WriteResult where
  | wrote (s : State)
  | held (rest : List Byte) (s : State)
  | failed (s : State)

/-- `MemWrite(OUT, n, bytes)` (R54): the bytes are appended as far as `OUT` has places, and the rest holds (R68, R196); or a
failure that has delivered at most `n - 1` of them (R193). -/
def memWrite (bytes : List Byte) (s : State) : WriteResult :=
  if bytes = [] then .wrote s
  else
    match driverChoice s with
    | some m =>
      .failed (takeStreamFault .out
        (produce (bytes.take (min (min m (bytes.length - 1)) (outRoom bytes.length s))) (attempt s)))
    | none   =>
      if bytes.length ≤ outRoom bytes.length s then .wrote (produce bytes (attempt s))
      else .held (bytes.drop (outRoom bytes.length s)) (produce (bytes.take (outRoom bytes.length s)) (attempt s))

/-- The host's move for this step: it drains `OUT` from the head and appends to `IN` (R215; log 11). -/
def hostActs (s : State) : State :=
  let move := s.host.headD ⟨[], 0⟩
  { s with input := s.input ++ move.send, output := s.output.drop move.drain, host := s.host.tail }

/-- The caller's choice at this step in `Idle` (R215): with none planned it invokes, as it does for ever (R216; log 18). -/
def callerChoice (s : State) : CallerMove := s.caller.headD .start

/-- A step in `Idle` uses up the caller's choice. -/
def passChoice (s : State) : State := { s with caller := s.caller.tail }

/-- Reset of a running block (R230, R231): `Idle`, no cycle in progress, registers at the model's reset values (logs 7, 8); the
streams, the environment and the indicator's last request are not touched, and no event is produced (log 38). -/
def resetBlock (s : State) : State :=
  { s with
    st := .idle, todo := [], outcome := none
    k := State.reset.k, c1 := State.reset.c1, c2 := State.reset.c2, c3 := State.reset.c3, c4 := State.reset.c4
    f0 := State.reset.f0, f1 := State.reset.f1, f2 := State.reset.f2, u0 := State.reset.u0 }

/-- How one statement of the pseudocode ends: completed, holding with what is left of it, or abandoned by a `StreamFault`. -/
inductive OpResult where
  | done (s : State)
  | held (left : Op) (s : State)
  | failed (s : State)

end Sys2Proof.Machine
end

