-- ==== Sys2Proof/Machine/Operands.lean ====
section
/-! DEFINITION. The Binary Codec (40_codec.md rules R110 to R113) over the byte orders of 20_memory.md rules R57, R58, and the two
diagnostic texts (30_encoding.md rules R95, R96, 41_parser.md rule R133). -/

namespace Sys2Proof.Machine

/-- `bytes_of_16` (R57). -/
def bytesOf16 (o : ByteOrder) (v : Half) : List Byte :=
  match o with
  | .LE => [v.extractLsb' 0 8, v.extractLsb' 8 8]
  | .BE => [v.extractLsb' 8 8, v.extractLsb' 0 8]

/-- `bytes_of_32` (R57). -/
def bytesOf32 (o : ByteOrder) (v : Pattern) : List Byte :=
  match o with
  | .LE => [v.extractLsb' 0 8, v.extractLsb' 8 8, v.extractLsb' 16 8, v.extractLsb' 24 8]
  | .BE => [v.extractLsb' 24 8, v.extractLsb' 16 8, v.extractLsb' 8 8, v.extractLsb' 0 8]

/-- `value_of` on two bytes (R58). -/
def valueOf16 (o : ByteOrder) (b0 b1 : Byte) : Half :=
  match o with
  | .LE => b1 ++ b0
  | .BE => b0 ++ b1

/-- `value_of` on four bytes (R58). -/
def valueOf32 (o : ByteOrder) (b0 b1 b2 b3 : Byte) : Pattern :=
  match o with
  | .LE => b3 ++ b2 ++ b1 ++ b0
  | .BE => b0 ++ b1 ++ b2 ++ b3

/-- Byte `i` of a buffer a read has filled; every use is below the buffer's length. -/
def byteAt (bytes : List Byte) (i : Nat) : Byte := bytes.getD i 0#8

/-- `x[r] <- receive_float(IN)` (R111). -/
def receiveFloat (r : FReg) (s : State) : OpResult :=
  match memRead 4 s with
  | .got b t  => .done (setF r (valueOf32 t.cfg.byteOrder (byteAt b 0) (byteAt b 1) (byteAt b 2) (byteAt b 3)) t)
  | .held t   => .held (.receiveFloat r) t
  | .failed t => .failed t

/-- `x[U0] <- receive_uint16(IN)` (R112). -/
def receiveUint16 (s : State) : OpResult :=
  match memRead 2 s with
  | .got b t  => .done (setU0 (valueOf16 t.cfg.byteOrder (byteAt b 0) (byteAt b 1)) t)
  | .held t   => .held .receiveUint16 t
  | .failed t => .failed t

/-- `send_bytes(buffer, size)` to `OUT` (R113). -/
def sendBytes (buffer : List Byte) (size : Nat) (s : State) : OpResult :=
  match memWrite (buffer.take size) s with
  | .wrote t     => .done t
  | .held rest t => .held (.sendBytes rest) t
  | .failed t    => .failed t

/-- `send_float(OUT, w)` (R110). -/
def sendFloat (w : Pattern) (s : State) : OpResult :=
  sendBytes (bytesOf32 s.cfg.byteOrder w) 4 s

/-- `hexdigit` (R133). -/
def hexDigit (c : HexCase) (d : Nat) : Byte :=
  if d < 10 then BitVec.ofNat 8 (0x30 + d)
  else
    match c with
    | .upper => BitVec.ofNat 8 (0x41 + (d - 10))
    | .lower => BitVec.ofNat 8 (0x61 + (d - 10))

/-- `hex` (R133): one or two digits, no leading zero (D9). -/
def hexText (c : HexCase) (k : Byte) : List Byte :=
  let d1 := k.toNat / 16
  let d0 := k.toNat % 16
  if d1 = 0 then [hexDigit c d0] else [hexDigit c d1, hexDigit c d0]

/-- A decimal digit in ASCII (R84). -/
def decDigit (d : Nat) : Byte := BitVec.ofNat 8 (0x30 + d)

/-- `dec` (R133): unsigned, one to three digits, no leading zero (D10). -/
def decText (k : Byte) : List Byte :=
  let h := k.toNat / 100
  let t := k.toNat % 100 / 10
  let u := k.toNat % 10
  if h ≠ 0 then [decDigit h, decDigit t, decDigit u]
  else if t ≠ 0 then [decDigit t, decDigit u]
  else [decDigit u]

/-- `echo_text` (R95, R133): `ASCII <char>, Hex <hex>, Dec <dec>.` CR LF. -/
def echoText (c : HexCase) (k : Byte) : List Byte :=
  [0x41#8, 0x53#8, 0x43#8, 0x49#8, 0x49#8, 0x20#8] ++ [k]
    ++ [0x2C#8, 0x20#8, 0x48#8, 0x65#8, 0x78#8, 0x20#8] ++ hexText c k
    ++ [0x2C#8, 0x20#8, 0x44#8, 0x65#8, 0x63#8, 0x20#8] ++ decText k
    ++ [0x2E#8, 0x0D#8, 0x0A#8]

/-- The text `INVALID`, no terminator (R96). -/
def invalidText : List Byte := [0x49#8, 0x4E#8, 0x56#8, 0x41#8, 0x4C#8, 0x49#8, 0x44#8]

end Sys2Proof.Machine
end

