-- ==== Sys2Proof/Machine/Calls.lean ====
section
/-! DEFINITION. Calls of the collaborators (60_exceptions.md rules R200 to R209). The block fixes the port, the arguments and the
order; what the collaborator does is an answer: the next one the state holds, or a free one. -/

namespace Sys2Proof.Machine

/-- The port is lent `IN` for its call (R66, R203). -/
def lendsIn (p : Port) : Bool :=
  match p with
  | .receiveSpeedInstruction => true
  | _ => false

/-- The port is lent `OUT` for its call (R66, R203, R206; R204 under `with_out`). -/
def lendsOut (v : StopVariant) (p : Port) : Bool :=
  match p with
  | .receiveSpeedInstruction => true
  | .scan => true
  | .stop => v == .withOut
  | _ => false

/-- The call event: arguments from the payload registers, a getter's value from the answer (R28 to R31, R201 to R207). -/
def callOf (p : Port) (result : Pattern) (s : State) : Call :=
  match p with
  | .setPose    => .setPose s.f0 s.f1 s.f2
  | .getX       => .getX result
  | .getY       => .getY result
  | .getHeading => .getHeading result
  | .receiveSpeedInstruction => .receiveSpeedInstruction
  | .stop       => match s.cfg.stopVariant with
                   | .plain   => .stop
                   | .withOut => .stopOut
  | .capture    => .capture
  | .scan       => .scan
  | .toneStart  => .toneStart
  | .tonePlay   => .tonePlay s.u0
  | .toneStop   => .toneStop

/-- The return of a call: a getter's value goes to its payload register, no other port has a result (R162, R202). -/
def returnOf (p : Port) (result : Pattern) (s : State) : State :=
  match p with
  | .getX       => setF .F0 result s
  | .getY       => setF .F1 result s
  | .getHeading => setF .F2 result s
  | _           => s

/-- The collaborator's behaviour in the next call (R200; log 14). -/
def nextAnswer (s : State) : Answer :=
  match s.answers with
  | a :: _ => a
  | []     => Config.freeAnswer s.draws

/-- A call uses up its answer. -/
def useAnswer (s : State) : State :=
  match s.answers with
  | _ :: rest => { s with answers := rest }
  | []        => { s with draws := s.draws + 1 }

/-- The call in progress: the acts in order, accesses only of streams the port was lent (R66, R215), then the return. A stream
failure of the collaborator is the cycle's (R209 (a)); `hang` never ends (R209 (b)). -/
def duringCall (p : Port) (result : Pattern) : List Act → State → OpResult
  | [], s => .done (returnOf p result s)
  | .take n :: acts, s =>
    if lendsIn p then
      match memRead n s with
      | .got _ t  => duringCall p result acts t
      | .held t   => .held (.during p (.take n :: acts) result) t
      | .failed t => .failed t
    else duringCall p result acts s
  | .give bytes :: acts, s =>
    if lendsOut s.cfg.stopVariant p then
      match memWrite bytes s with
      | .wrote t     => duringCall p result acts t
      | .held rest t => .held (.during p (.give rest :: acts) result) t
      | .failed t    => .failed t
    else duringCall p result acts s
  | .linger :: acts, s => .held (.during p acts result) s
  | .hang :: acts, s => .held (.during p (.hang :: acts) result) s

/-- `Call port(args)` (R200): one event, then the collaborator acts, then it returns. -/
def callPort (p : Port) (s : State) : OpResult :=
  duringCall p (nextAnswer s).result (nextAnswer s).acts
    (emit (.call (callOf p (nextAnswer s).result s)) (useAnswer s))

end Sys2Proof.Machine
end

