-- ==== Sys2Proof/Machine/Flags.lean ====
section
/-! DEFINITION. The block has no condition codes and no status flags (10_state.md rule R26). Its one status output is the Status
Indicator request (R25), set here and nowhere else. -/

namespace Sys2Proof.Machine

/-- `IndSet(v)`: one request, one event; always completes (R25, R208). -/
def indSet (on : Bool) (s : State) : State := emit (.ind on) { s with ind := on }

/-- `START` from `Idle` (R131): the cycle begins with the indicator on, and the parser waits for the probe byte. -/
def beginCycle (s : State) : State :=
  goto .probeByte (indSet true (emit .start { s with todo := [], outcome := none }))

/-- The caller's move in `Idle` (R215, R216): it issues `START`, or declines for this step, or has stopped invoking, a choice that
stays. Without `START` there is no event, and the block stays in `Idle`. -/
def callerActs (s : State) : State :=
  match callerChoice s with
  | .start => beginCycle (passChoice s)
  | .wait  => passChoice s
  | .stop  => s

end Sys2Proof.Machine
end

