-- ==== Sys2Proof/Machine/Actions.lean ====
section
/-! DEFINITION. Running the statements of an action in order (20_memory.md rule R63): each completes before the next begins; a hold
keeps what is left (60_exceptions.md rules R196, R214); a `StreamFault` abandons the rest (R193). -/

namespace Sys2Proof.Machine

/-- One statement. -/
def runOp (op : Op) (s : State) : OpResult :=
  match op with
  | .goto p               => .done (goto p s)
  | .indSet on            => .done (indSet on s)
  | .receiveFloat r       => receiveFloat r s
  | .receiveUint16        => receiveUint16 s
  | .sendFloat r          => sendFloat (getF r s) s
  | .sendBytes bytes      => sendBytes bytes bytes.length s
  | .call p               => callPort p s
  | .during p acts result => duringCall p result acts s
  | .wait                 => .done (emit (.call (.wait s.cfg.beepDuration)) s)
  | .finish o             => .done (goto .done { s with outcome := some o })

/-- The statements in order, up to the end, a hold or a failure. -/
def runOps : List Op → State → State
  | [], s => s
  | op :: rest, s =>
    match runOp op s with
    | .done t      => runOps rest t
    | .held left t => { t with todo := left :: rest }
    | .failed t    => t

/-- An action begun or resumed: nothing else is in progress. -/
def perform (ops : List Op) (s : State) : State := runOps ops { s with todo := [] }

/-- `Dispatch` (R139): the indicator goes off, the action runs, then `Done` with its outcome. -/
def dispatchOps (action : List Op) (o : CycleOutcome) : List Op :=
  [.goto .dispatch, .indSet false] ++ action ++ [.finish o]

end Sys2Proof.Machine
end

