-- ==== Sys2Proof/Machine/Commands3.lean ====
section
/-! DEFINITION. The three-byte commands (42_commands.md rules R160 to R162). -/

namespace Sys2Proof.Machine

/-- `CLR` (R160). -/
def clrAction : List Op := [.receiveFloat .F0, .receiveFloat .F1, .receiveFloat .F2, .call .setPose]

/-- `CLR` (R160): three floats in, then `set_pose` with exactly those. -/
def execClr (s : State) : Host.Outcome State Fault Refusal :=
  .next (perform (dispatchOps clrAction (.executed .CLR)) s)

/-- `PIC` (R161). -/
def picAction : List Op := [.call .capture]

/-- `PIC` (R161): `capture()`. -/
def execPic (s : State) : Host.Outcome State Fault Refusal :=
  .next (perform (dispatchOps picAction (.executed .PIC)) s)

/-- `POS` (R162; the order is D18). -/
def posAction : List Op :=
  [.call .getX, .sendFloat .F0, .call .getY, .sendFloat .F1, .call .getHeading, .sendFloat .F2]

/-- `POS` (R162): each getter is called just before its value is sent. -/
def execPos (s : State) : Host.Outcome State Fault Refusal :=
  .next (perform (dispatchOps posAction (.executed .POS)) s)

end Sys2Proof.Machine
end

