-- ==== Sys2Proof/Machine/Commands4.lean ====
section
/-! DEFINITION. The four-byte commands (42_commands.md rules R163 to R166) and the unmatched window (R167). -/

namespace Sys2Proof.Machine

/-- `MOVE` (R163). -/
def moveAction : List Op := [.call .receiveSpeedInstruction]

/-- `MOVE` (R163): both streams are lent to the motion collaborator; the block reads no payload byte. -/
def execMove (s : State) : Host.Outcome State Fault Refusal :=
  .next (perform (dispatchOps moveAction (.executed .MOVE)) s)

/-- `STOP` (R164). -/
def stopAction : List Op := [.call .stop]

/-- `STOP` (R164): `stop()`, or `stop(OUT)` under `with_out`. -/
def execStop (s : State) : Host.Outcome State Fault Refusal :=
  .next (perform (dispatchOps stopAction (.executed .STOP)) s)

/-- `SCAN` (R165). -/
def scanAction : List Op := [.call .scan]

/-- `SCAN` (R165): `OUT` is lent to the scan collaborator. -/
def execScan (s : State) : Host.Outcome State Fault Refusal :=
  .next (perform (dispatchOps scanAction (.executed .SCAN)) s)

/-- `BEEP` (R166; the order is D17). -/
def beepAction : List Op := [.receiveUint16, .call .toneStart, .call .tonePlay, .wait, .call .toneStop]

/-- `BEEP` (R166): the frequency in, then the four audio steps. -/
def execBeep (s : State) : Host.Outcome State Fault Refusal :=
  .next (perform (dispatchOps beepAction (.executed .BEEP)) s)

/-- `INVALID` (R167). -/
def invalidAction : List Op := [.sendBytes invalidText]

/-- `INVALID` (R167): the seven bytes of the text, no collaborator call, outcome `invalid`. -/
def execInvalid (s : State) : Host.Outcome State Fault Refusal :=
  .next (perform (dispatchOps invalidAction .invalid) s)

end Sys2Proof.Machine
end

