-- ==== Sys2Proof/Machine/Steering.lean ====
section
/-! DEFINITION. The rows that are no commands: the probe echo (41_parser.md rule R132), the decoder steps `FRAME_START` (R134) and
`NEED_C4` (R136), and the resynchronizations (R135, R137). -/

namespace Sys2Proof.Machine

/-- `FRAME_START` (R134): on to the window; no event. -/
def execFrameStart (s : State) : Host.Outcome State Fault Refusal := .next (goto .readCode3 s)

/-- `PROBE` (R132): the echo text, outcome `probe_echo`; the indicator is not touched and no collaborator is called. -/
def execProbe (k : Byte) (s : State) : Host.Outcome State Fault Refusal :=
  .next (perform [.sendBytes (echoText s.cfg.hexCase k), .finish .probeEcho] s)

/-- `RESYNC3.c1` (R135): the window is dropped, the parser reads the next three bytes; silent. -/
def execResync3C1 (s : State) : Host.Outcome State Fault Refusal := .next (goto .readCode3 s)

/-- `RESYNC3.c2` (R135): as `RESYNC3.c1`. -/
def execResync3C2 (s : State) : Host.Outcome State Fault Refusal := .next (goto .readCode3 s)

/-- `RESYNC3.c3` (R135): as `RESYNC3.c1`. -/
def execResync3C3 (s : State) : Host.Outcome State Fault Refusal := .next (goto .readCode3 s)

/-- `NEED_C4` (R136): on to the fourth byte; no event. -/
def execNeedC4 (s : State) : Host.Outcome State Fault Refusal := .next (goto .readCode4 s)

/-- `RESYNC4` (R137): all four bytes are dropped, the parser reads a new window; silent. -/
def execResync4 (s : State) : Host.Outcome State Fault Refusal := .next (goto .readCode3 s)

end Sys2Proof.Machine
end

