-- ==== Sys2Proof/Machine/Dispatch.lean ====
section
/-! DEFINITION. The dispatch of an instruction to its meaning, one arm for each row of the opcode table. -/

namespace Sys2Proof.Machine

def exec (i : Instr) (s : State) : Host.Outcome State Fault Refusal :=
  match i with
  | .frameStart => Sys2Proof.Machine.execFrameStart s
  | .probe k => Sys2Proof.Machine.execProbe k s
  | .resync3C1 _ _ => Sys2Proof.Machine.execResync3C1 s
  | .resync3C2 _ _ => Sys2Proof.Machine.execResync3C2 s
  | .resync3C3 _ _ => Sys2Proof.Machine.execResync3C3 s
  | .clr => Sys2Proof.Machine.execClr s
  | .pic => Sys2Proof.Machine.execPic s
  | .pos => Sys2Proof.Machine.execPos s
  | .needC4 _ _ _ => Sys2Proof.Machine.execNeedC4 s
  | .resync4 _ _ _ => Sys2Proof.Machine.execResync4 s
  | .move => Sys2Proof.Machine.execMove s
  | .stop => Sys2Proof.Machine.execStop s
  | .scan => Sys2Proof.Machine.execScan s
  | .beep => Sys2Proof.Machine.execBeep s
  | .invalid _ _ _ _ => Sys2Proof.Machine.execInvalid s

end Sys2Proof.Machine
end

