-- ==== Sys2Proof/Machine/Fetch.lean ====
section
/-! DEFINITION. What the block does next (41_parser.md rules R131 to R140): resume an action that holds, begin or end a cycle, or
read the header bytes its state asks for and decide (30_encoding.md rule R86). -/

namespace Sys2Proof.Machine

/-- What the block does next. -/
inductive Fetched where
  /-- The header is complete and decides for `i`; `s` is the state with its bytes in the registers. -/
  | run (i : Instr) (s : State)
  /-- No instruction begins: a cycle begins or ends, a read holds or fails, or an action goes on. -/
  | advance (s : State)
  /-- A state no run reaches (log 24). -/
  | stuck (f : Fault)

/-- The verdict on the header in the registers. -/
def verdict (header : List Byte) (s : State) : Fetched :=
  match decode header with
  | .ok i    => .run i s
  | .error e => .stuck (.noRowMatches e)

/-- In `ProbeByte`: the probe byte is read into `k` (R131) and decides (R132, R134). -/
def fetchProbe (s : State) : Fetched :=
  match memRead 1 s with
  | .got b t  => verdict [byteAt b 0] { t with k := byteAt b 0 }
  | .held t   => .advance t
  | .failed t => .advance t

/-- In `ReadCode3`: the window is read into `c1 c2 c3`, all three before any is tested (R135). -/
def fetchWindow (s : State) : Fetched :=
  match memRead 3 s with
  | .got b t  =>
    verdict [t.k, byteAt b 0, byteAt b 1, byteAt b 2] { t with c1 := byteAt b 0, c2 := byteAt b 1, c3 := byteAt b 2 }
  | .held t   => .advance t
  | .failed t => .advance t

/-- In `ReadCode4`: the fourth byte is read into `c4` (R137). -/
def fetchFourth (s : State) : Fetched :=
  match memRead 1 s with
  | .got b t  => verdict [t.k, t.c1, t.c2, t.c3, byteAt b 0] { t with c4 := byteAt b 0 }
  | .held t   => .advance t
  | .failed t => .advance t

/-- The transition of R141 that `st` asks for; an action in progress goes on first (R196). In `Idle` the caller
decides whether to issue `START` (R130, R215). -/
def fetch (s : State) : Fetched :=
  match s.todo with
  | op :: rest => .advance (perform (op :: rest) s)
  | [] =>
    match s.st with
    | .idle      => .advance (callerActs s)
    | .probeByte => fetchProbe s
    | .readCode3 => fetchWindow s
    | .readCode4 => fetchFourth s
    | .dispatch  => .stuck .noActionInDispatch
    | .done      =>
      match s.outcome with
      | some o => .advance (returnToCaller o s)
      | none   => .stuck .noOutcomeInDone

/-- The bytes of a table word as they lie in `IN`, the payload bytes after them zero: at most the 12 of `CLR` (R94). -/
def streamBytes (bytes : List Byte) : List Byte := bytes ++ List.replicate 12 0#8

/-- A state about to read the last bytes of the header `bytes`: earlier ones already in the registers, as the parser would
have them, the rest at the head of `IN`, no action in progress, and the read not made to fail (log 27). -/
def placeHeader (bytes : List Byte) (s : State) : State :=
  match bytes with
  | [k] =>
    { s with st := .probeByte, todo := [], input := streamBytes [k] ++ s.input, faults := none :: s.faults }
  | [k, c1, c2, c3] =>
    { s with
      st := .readCode3, k := k, todo := [], input := streamBytes [c1, c2, c3] ++ s.input, faults := none :: s.faults }
  | [k, c1, c2, c3, c4] =>
    { s with
      st := .readCode4, k := k, c1 := c1, c2 := c2, c3 := c3, todo := [], input := streamBytes [c4] ++ s.input
      faults := none :: s.faults }
  | _ => s

end Sys2Proof.Machine
end

