-- ==== Sys2Proof/Machine/Step.lean ====
section
/-! DEFINITION. One step: the host's move for this moment (60_exceptions.md rule R215), then one transition of the parser
(41_parser.md rule R141), the whole action of an instruction in it. -/

namespace Sys2Proof.Machine

/-- One step of the machine. -/
def step (s : State) : Host.Outcome State Fault Refusal :=
  match fetch (hostActs s) with
  | .run i t   => exec i t
  | .advance t => .next t
  | .stuck f   => .fault f

/-- `s` about to read and run the instruction of a word of the opcode table (log 27). -/
def State.withFetchWord (s : State) (nbits w : Nat) : State := placeHeader (headerBytes nbits w) s

end Sys2Proof.Machine
end

