-- ==== Sys2Proof/Safety.lean ====
section
/-! DEFINITION. The terms the claims are stated in: what the environment must do for an instruction to complete, the bytes and
counts read off an event trace, the invariant of the block, and the whole-cycle procedure of 41_parser.md rule R142. -/

namespace Sys2Proof.Machine

/-! ### What an instruction needs of the environment -/

/-- The driver fails none of the next `n` access attempts (60_exceptions.md rule R191). -/
def proceeds (n : Nat) (s : State) : Bool := (s.faults.take n).all Option.isNone

/-- `OUT` has places for `n` more bytes (20_memory.md rule R68). -/
def roomFor (n : Nat) (s : State) : Bool :=
  match s.cfg.outCapacity with
  | none   => true
  | some c => decide (s.output.length + n ≤ c)

/-- The collaborator returns without keeping the call: it neither lingers nor hangs (60_exceptions.md rules R196, R209). -/
def returnsAtOnce (a : Answer) : Bool := a.acts.all (fun x => x != .linger && x != .hang)

/-- The acts a collaborator may do on the streams it is lent (20_memory.md rule R66). -/
def lentActs (v : StopVariant) (p : Port) (acts : List Act) : List Act :=
  acts.filter (fun x =>
    match x with
    | .take _ => lendsIn p
    | .give _ => lendsOut v p
    | .linger => true
    | .hang   => true)

/-- How many bytes the acts take from `IN`. -/
def takenBytes : List Act → Nat
  | [] => 0
  | .take n :: acts => n + takenBytes acts
  | _ :: acts => takenBytes acts

/-- The bytes the acts give to `OUT`, in order. -/
def givenBytes : List Act → List Byte
  | [] => []
  | .give bytes :: acts => bytes ++ givenBytes acts
  | _ :: acts => givenBytes acts

/-- How many stream accesses the acts make; nothing is accessed for no bytes. -/
def accessCount : List Act → Nat
  | [] => 0
  | .take n :: acts => (if n = 0 then 0 else 1) + accessCount acts
  | .give bytes :: acts => (if bytes = [] then 0 else 1) + accessCount acts
  | _ :: acts => accessCount acts

/-- The events of the acts when `IN` holds `input`. -/
def actEvents : List Act → List Byte → List Event
  | [], _ => []
  | .take n :: acts, input => (input.take n).map Event.inp ++ actEvents acts (input.drop n)
  | .give bytes :: acts, input => bytes.map Event.out ++ actEvents acts input
  | _ :: acts, input => actEvents acts input

/-! ### What a trace says (00_scope.md rule R9) -/

/-- The bytes of the `IN` events, in order. -/
def inBytes : List Event → List Byte
  | [] => []
  | .inp b :: es => b :: inBytes es
  | _ :: es => inBytes es

/-- The bytes of the `OUT` events, in order. -/
def outBytes : List Event → List Byte
  | [] => []
  | .out b :: es => b :: outBytes es
  | _ :: es => outBytes es

/-- The last `IND` request, if any was made. -/
def lastRequest : List Event → Option Bool
  | [] => none
  | .ind v :: es => some ((lastRequest es).getD v)
  | _ :: es => lastRequest es

/-- How many cycles began. -/
def cyclesBegun : List Event → Nat
  | [] => 0
  | .start :: es => cyclesBegun es + 1
  | _ :: es => cyclesBegun es

/-- How many cycles ended, by `RET` or by `FAULT` (60_exceptions.md rule R216). -/
def cyclesEnded : List Event → Nat
  | [] => 0
  | .ret _ :: es => cyclesEnded es + 1
  | .fault _ :: es => cyclesEnded es + 1
  | _ :: es => cyclesEnded es

/-- Every cycle begun has ended, but for the one in progress when `st ≠ Idle` (10_state.md rule R20). -/
def cyclesBalanced (s : State) : Prop :=
  cyclesBegun s.trace = cyclesEnded s.trace + (if s.st = .idle then 0 else 1)

/-- `IND` holds the last request of the trace (10_state.md rule R25). -/
def indicatorIsLastRequest (s : State) : Prop := ∀ v, lastRequest s.trace = some v → s.ind = v

/-! ### Which instruction may do what (42_commands.md rule R168) -/

/-- The instructions run in `Dispatch`: the seven commands and `INVALID` (41_parser.md rule R139). -/
def isDispatched : Instr → Bool
  | .clr | .pic | .pos | .move | .stop | .scan | .beep | .invalid _ _ _ _ => true
  | .frameStart | .probe _ | .resync3C1 _ _ | .resync3C2 _ _ | .resync3C3 _ _ | .needC4 _ _ _ | .resync4 _ _ _ => false

/-- The calls an instruction may make (60_exceptions.md rules R201 to R207, R210). -/
def mayCall (i : Instr) : Call → Bool
  | .setPose _ _ _ => i == .clr
  | .getX _ | .getY _ | .getHeading _ => i == .pos
  | .receiveSpeedInstruction => i == .move
  | .stop | .stopOut => i == .stop
  | .capture => i == .pic
  | .scan => i == .scan
  | .toneStart | .tonePlay _ | .wait _ | .toneStop => i == .beep

/-- The instructions that may take bytes from `IN` beyond their header (42_commands.md rules R160, R163, R166). -/
def mayTakeInput (i : Instr) : Bool := i == .clr || i == .beep || i == .move

/-- An instruction is `PROBE` (41_parser.md rule R132). -/
def isProbe : Instr → Bool
  | .probe _ => true
  | _ => false

/-- An instruction is `INVALID` (42_commands.md rule R167). -/
def isInvalid : Instr → Bool
  | .invalid _ _ _ _ => true
  | _ => false

/-- The instructions that may give bytes to `OUT` (41_parser.md rule R132, 42_commands.md rules R162 to R165, R167). -/
def mayGiveOutput (v : StopVariant) (i : Instr) : Bool :=
  isProbe i || isInvalid i || i == .pos || i == .move || i == .scan || (i == .stop && v == .withOut)

/-! ### The calls of a command, in order (42_commands.md rules R160 to R166) -/

/-- The ports an instruction calls, in the order of its pseudocode; the wait is an event of the block, no port (R210). -/
def portsOf : Instr → List Port
  | .clr  => [.setPose]
  | .pic  => [.capture]
  | .pos  => [.getX, .getY, .getHeading]
  | .move => [.receiveSpeedInstruction]
  | .stop => [.stop]
  | .scan => [.scan]
  | .beep => [.toneStart, .tonePlay, .toneStop]
  | .frameStart | .probe _ | .resync3C1 _ _ | .resync3C2 _ _ | .resync3C3 _ _ | .needC4 _ _ _ | .resync4 _ _ _
  | .invalid _ _ _ _ => []

/-- The collaborator's behaviour in the call that `j` calls come before. -/
def answerAt : Nat → State → Answer
  | 0, s => nextAnswer s
  | j + 1, s => answerAt j (useAnswer s)

/-- How many payload bytes the block reads before its first call (30_encoding.md rule R94). -/
def payloadLength : Instr → Nat
  | .clr  => 12
  | .beep => 2
  | .pic | .pos | .move | .stop | .scan | .frameStart | .probe _ | .resync3C1 _ _ | .resync3C2 _ _ | .resync3C3 _ _
  | .needC4 _ _ _ | .resync4 _ _ _ | .invalid _ _ _ _ => 0

/-- How many bytes of reply stand before call `j`: a float for each earlier getter of `POS` (R162). -/
def repliedBefore (i : Instr) (j : Nat) : Nat := if i = .pos then 4 * j else 0

/-- How many stream accesses the block itself makes before call `j`: three reads in `CLR`, one in `BEEP`, a send for each earlier
getter in `POS` (R160, R162, R166). -/
def accessesBefore : Instr → Nat → Nat
  | .clr, _  => 3
  | .beep, _ => 1
  | .pos, j  => j
  | .pic, _ | .move, _ | .stop, _ | .scan, _ | .frameStart, _ | .probe _, _ | .resync3C1 _ _, _ | .resync3C2 _ _, _
  | .resync3C3 _ _, _ | .needC4 _ _ _, _ | .resync4 _ _ _, _ | .invalid _ _ _ _, _ => 0

/-- A getter's call and the four bytes of the value sent after it (R162). -/
def getterEvents (o : ByteOrder) (c : Call) (value : Pattern) : List Event := .call c :: (bytesOf32 o value).map Event.out

/-- The events of an action up to its call `j`, that call not among them, when all before it goes through: `IND(0)`, the payload, the
earlier calls, the floats of `POS`, and before `tone_stop` the wait (R160 to R166). -/
def eventsBefore (i : Instr) (j : Nat) (s : State) : List Event :=
  .ind false :: (s.input.take (payloadLength i)).map Event.inp ++
    (match i, j with
    | .pos, 1 => getterEvents s.cfg.byteOrder (.getX (answerAt 0 s).result) (answerAt 0 s).result
    | .pos, 2 => getterEvents s.cfg.byteOrder (.getX (answerAt 0 s).result) (answerAt 0 s).result
        ++ getterEvents s.cfg.byteOrder (.getY (answerAt 1 s).result) (answerAt 1 s).result
    | .beep, 1 => [.call .toneStart]
    | .beep, 2 => [.call .toneStart,
        .call (.tonePlay (valueOf16 s.cfg.byteOrder (byteAt s.input 0) (byteAt s.input 1))), .call (.wait s.cfg.beepDuration)]
    | _, _ => [])

/-! ### The invariant of the block -/

/-- A statement of the body of an action, between the entry to `Dispatch` and `Done`. -/
def isBody : Op → Bool
  | .goto _ | .indSet _ | .finish _ => false
  | .receiveFloat _ | .receiveUint16 | .sendFloat _ | .sendBytes _ | .call _ | .during _ _ _ | .wait => true

/-- What is left of an action: body statements, then the entry to `Done`. -/
def bodyThenFinish : List Op → Bool
  | [] => false
  | [.finish _] => true
  | op :: rest => isBody op && bodyThenFinish rest

/-- The states the block keeps to (10_state.md rules R20 to R25, 60_exceptions.md rules R193, R196, 20_memory.md rule R68). -/
structure Inv (s : State) : Prop where
  /-- A window is only read after the sentinel (R134). -/
  sentinelInK : s.st = .readCode3 ∨ s.st = .readCode4 ∨ s.st = .dispatch → s.k = sentinel
  /-- A fourth byte is only read after an undecided window (R136). -/
  windowUndecided : s.st = .readCode4 → needsFourth s.c1 s.c2 s.c3 = true
  /-- The indicator is on while the parser listens (R131, R193). -/
  indicatorOn : s.st = .probeByte ∨ s.st = .readCode3 ∨ s.st = .readCode4 → s.ind = true
  /-- The indicator is off in `Dispatch` (R139, R193). -/
  indicatorOff : s.st = .dispatch → s.ind = false
  /-- An outcome waits to be returned exactly in `Done` (R140). -/
  outcomeInDone : s.outcome.isSome = decide (s.st = .done)
  /-- In `Dispatch` an action is in progress (R139). -/
  actionInDispatch : s.st = .dispatch → s.todo ≠ []
  /-- Only the echo and the actions can be left in progress (R196). -/
  todoInAction : s.todo ≠ [] → s.st = .probeByte ∨ s.st = .dispatch
  /-- What is left of an action still ends in `Done` (R139). -/
  todoFinishes : s.todo ≠ [] → bodyThenFinish s.todo = true
  /-- `OUT` never holds more than it has places for (R68). -/
  withinCapacity : ∀ c, s.cfg.outCapacity = some c → s.output.length ≤ c

/-! ### Dead registers (10_state.md rules R34, R36) -/

/-- Everything but the scratch and payload registers. -/
def eraseRegisters (s : State) : State :=
  { s with
    k := 0#8, c1 := 0#8, c2 := 0#8, c3 := 0#8, c4 := 0#8, f0 := 0#32, f1 := 0#32, f2 := 0#32, u0 := 0#16 }

/-! ### Runs -/

/-- `n` steps, stopping at the first fault or refusal. -/
def steps : Nat → State → Host.Outcome State Fault Refusal
  | 0, s => .next s
  | n + 1, s =>
    match step s with
    | .next t    => steps n t
    | .fault r   => .fault r
    | .refused r => .refused r

/-- What the acquisition loop of R142 ends with: the verdict, what is left of `IN`, and how often the loop went back. -/
structure Acquired where
  verdict : Instr
  rest    : List Byte
  resync3 : Nat
  resync4 : Nat
  deriving DecidableEq, Repr

/-- The loop of R142 over all the bytes `IN` will hold; `none` when they run out inside a window. -/
def acquire : List Byte → Option Acquired
  | c1 :: c2 :: c3 :: rest =>
    if c1 = 0x21#8 ∨ c2 = 0x21#8 ∨ c3 = 0x21#8 then
      (acquire rest).map (fun a => { a with resync3 := a.resync3 + 1 })
    else if [c1, c2, c3] = codeCLR then some ⟨.clr, rest, 0, 0⟩
    else if [c1, c2, c3] = codePIC then some ⟨.pic, rest, 0, 0⟩
    else if [c1, c2, c3] = codePOS then some ⟨.pos, rest, 0, 0⟩
    else
      match rest with
      | [] => none
      | c4 :: rest4 =>
        if c4 = 0x21#8 then (acquire rest4).map (fun a => { a with resync4 := a.resync4 + 1 })
        else if [c1, c2, c3, c4] = codeMOVE then some ⟨.move, rest4, 0, 0⟩
        else if [c1, c2, c3, c4] = codeSTOP then some ⟨.stop, rest4, 0, 0⟩
        else if [c1, c2, c3, c4] = codeSCAN then some ⟨.scan, rest4, 0, 0⟩
        else if [c1, c2, c3, c4] = codeBEEP then some ⟨.beep, rest4, 0, 0⟩
        else some ⟨.invalid c1 c2 c3 c4, rest4, 0, 0⟩
  | _ => none

end Sys2Proof.Machine
end

