-- ==== Sys2Proof/Certificates/Slice0/Obligations.lean ====
section
/-! DEFINITION. The statements for the provers, in the order of the rules of spec/: encoding, codec, parser, commands, holds and
faults, reset, and the rules about the whole machine. -/

open Sys2Proof Sys2Proof.Machine

/-! ### Encoding (30_encoding.md) -/

/-- Decoding the header of a well-formed instruction gives it back: no header byte is dropped (R82, R86). -/
def Obligations.DecodeOfEncode : Prop :=
  ∀ i : Instr, i.wellFormed = true → decode (encode i) = .ok i

/-- Every header the decoder accepts is the encoding of the well-formed instruction it answers (R86). -/
def Obligations.EncodeOfDecode : Prop :=
  ∀ (bytes : List Byte) (i : Instr), decode bytes = .ok i → i.wellFormed = true ∧ encode i = bytes

/-- The verdict is the first row of the opcode table, in priority order within the format, that matches the header word (R82,
R86). -/
def Obligations.DecodeIsFirstTableRow : Prop :=
  ∀ (bytes : List Byte) (i : Instr), decode bytes = .ok i →
    i.format.bytes = bytes.length ∧ firstMatch i.format (headerWord bytes) = some i.mnemonic

/-- When the decoder refuses, and under which name; in particular no window is read without the sentinel (R134), and no fourth
byte after three that decide (R87). -/
def Obligations.DecodeRefusesByName : Prop :=
  ∀ bytes : List Byte,
    (∀ e, decode bytes = .error e ↔
      ((∃ k c1 c2 c3, (bytes = [k, c1, c2, c3] ∨ ∃ c4, bytes = [k, c1, c2, c3, c4]) ∧ k ≠ sentinel ∧ e = .noSentinel k)
        ∨ (∃ c1 c2 c3 c4, bytes = [sentinel, c1, c2, c3, c4] ∧ needsFourth c1 c2 c3 = false ∧ e = .decidedAtThree c1 c2 c3)
        ∨ (bytes.length ≠ 1 ∧ bytes.length ≠ 4 ∧ bytes.length ≠ 5 ∧ e = .noFormat bytes.length)))

/-- The seven header words of R83, and one word of each other row, decode to the row they stand for. -/
def Obligations.CommandWordsDecode : Prop :=
  decodeTableWord 32 0x21434C52 = some .clr ∧ decodeTableWord 32 0x21504943 = some .pic
    ∧ decodeTableWord 32 0x21504F53 = some .pos ∧ decodeTableWord 40 0x214D4F5645 = some .move
    ∧ decodeTableWord 40 0x2153544F50 = some .stop ∧ decodeTableWord 40 0x215343414E = some .scan
    ∧ decodeTableWord 40 0x2142454550 = some .beep ∧ decodeTableWord 8 0x21 = some .frameStart
    ∧ decodeTableWord 8 0x41 = some (.probe 0x41#8) ∧ decodeTableWord 32 0x21502158 = some (.resync3C2 0x50#8 0x58#8)
    ∧ decodeTableWord 40 0x214D4F5621 = some (.resync4 0x4D#8 0x4F#8 0x56#8)
    ∧ decodeTableWord 40 0x2158595A51 = some (.invalid 0x58#8 0x59#8 0x5A#8 0x51#8)

/-! ### The codec (20_memory.md, 40_codec.md) -/

/-- R58: `value_of` as written, and the inverse of `bytes_of` in both directions, at both widths, in both byte orders. -/
def Obligations.ValueOfInvertsBytesOf : Prop :=
  (∀ b0 b1 : Byte, valueOf16 .LE b0 b1 = b1 ++ b0 ∧ valueOf16 .BE b0 b1 = b0 ++ b1)
    ∧ (∀ b0 b1 b2 b3 : Byte, valueOf32 .LE b0 b1 b2 b3 = b3 ++ b2 ++ b1 ++ b0
        ∧ valueOf32 .BE b0 b1 b2 b3 = b0 ++ b1 ++ b2 ++ b3)
    ∧ (∀ (o : ByteOrder) (v : Half), ∃ b0 b1, bytesOf16 o v = [b0, b1] ∧ valueOf16 o b0 b1 = v)
    ∧ (∀ (o : ByteOrder) (v : Pattern), ∃ b0 b1 b2 b3, bytesOf32 o v = [b0, b1, b2, b3] ∧ valueOf32 o b0 b1 b2 b3 = v)
    ∧ (∀ (o : ByteOrder) (b0 b1 : Byte), bytesOf16 o (valueOf16 o b0 b1) = [b0, b1])
    ∧ (∀ (o : ByteOrder) (b0 b1 b2 b3 : Byte), bytesOf32 o (valueOf32 o b0 b1 b2 b3) = [b0, b1, b2, b3])

/-- R115: when the bytes `send_float` appends to `OUT` are the next bytes `receive_float` reads under the same byte order, the
pattern comes back; and the same for a uint16 written as `bytes_of_16`. That it comes back for every pattern, non-finite ones too,
is the spec's own reading (R116, D7; log 31). -/
def Obligations.RoundTripOverStreams : Prop :=
  ∀ (s u : State) (rest : List Byte), proceeds 1 s = true → proceeds 1 u = true → u.cfg.byteOrder = s.cfg.byteOrder →
    (∀ (w : Pattern) (r : FReg), roomFor 4 s = true →
      ∃ sent, sent.length = 4
        ∧ sendFloat w s = .done { s with
            output := s.output ++ sent, faults := s.faults.tail, trace := s.trace ++ sent.map Event.out }
        ∧ (u.input = sent ++ rest → ∃ t, receiveFloat r u = .done t ∧ getF r t = w ∧ t.input = rest))
    ∧ (∀ v : Half, u.input = bytesOf16 s.cfg.byteOrder v ++ rest →
        ∃ t, receiveUint16 u = .done t ∧ t.u0 = v ∧ t.input = rest)

/-- R57 with R56: the two byte orders read the same bytes as each other's reversal, so a host with the wrong order is not detected
(R244). -/
def Obligations.OtherByteOrderReverses : Prop :=
  (∀ v : Half, bytesOf16 .BE v = (bytesOf16 .LE v).reverse)
    ∧ (∀ v : Pattern, bytesOf32 .BE v = (bytesOf32 .LE v).reverse)
    ∧ valueOf16 .BE 0xB8#8 0x01#8 = 47105#16 ∧ valueOf16 .LE 0xB8#8 0x01#8 = 440#16

/-! ### The parser (41_parser.md) -/

/-- R131, first half: from `Idle`, when the caller issues `START`, the cycle begins with it and `IND(1)`, before any byte is read,
also when `IN` is empty or the driver would fail the read, and the parser waits in `ProbeByte`. How the caller's choice is given
is the model's (log 18). -/
def Obligations.CycleBeginsWithIndicatorOn : Prop :=
  ∀ s : State, s.st = .idle → s.todo = [] → callerChoice s = .start →
    step s = .next { hostActs s with
      st := .probeByte, ind := true, outcome := none, caller := s.caller.tail, trace := s.trace ++ [.start, .ind true] }

/-- R140: `Done` returns the outcome to the caller and passes to `Idle`; `IN` is not flushed, registers and indicator are left. -/
def Obligations.DoneReturnsOutcome : Prop :=
  ∀ (s : State) (o : CycleOutcome), s.st = .done → s.todo = [] → s.outcome = some o →
    step s = .next { hostActs s with st := .idle, outcome := none, trace := s.trace ++ [.ret o] }

/-- A step runs the decoded instruction: the header bytes are taken from `IN` into the registers of the parser's state, each with
its event, and `exec` of the verdict answers. -/
def Obligations.StepRunsDecodedInstr : Prop :=
  ∀ (s : State) (i : Instr) (rest : List Byte), s.todo = [] → driverChoice s = none →
    (∀ b, s.st = .probeByte → (hostActs s).input = b :: rest → decode [b] = .ok i →
      step s = exec i { hostActs s with
        k := b, input := rest, faults := s.faults.tail, trace := s.trace ++ [.inp b] })
    ∧ (∀ b1 b2 b3, s.st = .readCode3 → (hostActs s).input = b1 :: b2 :: b3 :: rest →
      decode [s.k, b1, b2, b3] = .ok i →
      step s = exec i { hostActs s with
        c1 := b1, c2 := b2, c3 := b3, input := rest, faults := s.faults.tail
        trace := s.trace ++ [.inp b1, .inp b2, .inp b3] })
    ∧ (∀ b, s.st = .readCode4 → (hostActs s).input = b :: rest →
      decode [s.k, s.c1, s.c2, s.c3, b] = .ok i →
      step s = exec i { hostActs s with
        c4 := b, input := rest, faults := s.faults.tail, trace := s.trace ++ [.inp b] })

/-- The model's interface (log 27): a state with a table word placed runs exactly the instruction decoded from it. -/
def Obligations.PlacedWordRuns : Prop :=
  ∀ (s : State) (nbits w : Nat) (i : Instr), decodeTableWord nbits w = some i →
    ∃ t, step (s.withFetchWord nbits w) = exec i t

/-- Completion of the rows that only steer the parser (R134 to R137): on to `ReadCode3` or `ReadCode4`, nothing else changes, no
event. -/
def Obligations.SteeringRowsOnlyMoveSt : Prop :=
  ∀ (s : State) (a b c : Byte),
    exec .frameStart s = .next { s with st := .readCode3 }
      ∧ exec (.resync3C1 a b) s = .next { s with st := .readCode3 }
      ∧ exec (.resync3C2 a b) s = .next { s with st := .readCode3 }
      ∧ exec (.resync3C3 a b) s = .next { s with st := .readCode3 }
      ∧ exec (.needC4 a b c) s = .next { s with st := .readCode4 }
      ∧ exec (.resync4 a b c) s = .next { s with st := .readCode3 }

/-- R134, and the test of R132: from `ProbeByte` the sentinel sends the parser to `ReadCode3`, without an event of its own and
with the indicator as it was; any other byte runs the probe echo. -/
def Obligations.ProbeByteDecides : Prop :=
  ∀ (s : State) (b : Byte) (rest : List Byte),
    s.st = .probeByte → s.todo = [] → driverChoice s = none → (hostActs s).input = b :: rest →
    let t : State := { hostActs s with
      k := b, input := rest, faults := s.faults.tail, trace := s.trace ++ [.inp b] }
    step s = if b = 0x21#8 then .next { t with st := .readCode3 } else exec (.probe b) t

/-- R135: a window with a sentinel in any place is read whole, dropped silently, and the parser is back in `ReadCode3`. -/
def Obligations.SentinelInWindowResyncs : Prop :=
  ∀ (s : State) (b1 b2 b3 : Byte) (rest : List Byte),
    s.st = .readCode3 → s.todo = [] → s.k = sentinel → driverChoice s = none →
    (hostActs s).input = b1 :: b2 :: b3 :: rest → (b1 = sentinel ∨ b2 = sentinel ∨ b3 = sentinel) →
    step s = .next { hostActs s with
      c1 := b1, c2 := b2, c3 := b3, input := rest, faults := s.faults.tail
      trace := s.trace ++ [.inp b1, .inp b2, .inp b3] }

/-- R136, R85: a sentinel-free window that is none of the three codes sends the parser to `ReadCode4`; exactly the three codes run
their command, and the byte after them is left in `IN`. -/
def Obligations.ThreeByteWindowDecides : Prop :=
  ∀ (s : State) (b1 b2 b3 : Byte) (rest : List Byte),
    s.st = .readCode3 → s.todo = [] → s.k = sentinel → driverChoice s = none →
    (hostActs s).input = b1 :: b2 :: b3 :: rest → b1 ≠ sentinel → b2 ≠ sentinel → b3 ≠ sentinel →
    let t : State := { hostActs s with
      c1 := b1, c2 := b2, c3 := b3, input := rest, faults := s.faults.tail
      trace := s.trace ++ [.inp b1, .inp b2, .inp b3] }
    step s =
      if [b1, b2, b3] = [0x43#8, 0x4C#8, 0x52#8] then exec .clr t
      else if [b1, b2, b3] = [0x50#8, 0x49#8, 0x43#8] then exec .pic t
      else if [b1, b2, b3] = [0x50#8, 0x4F#8, 0x53#8] then exec .pos t
      else .next { t with st := .readCode4 }

/-- R137, R138: the fourth byte is read; the sentinel resynchronizes, otherwise the whole window decides for one of the four codes
or `INVALID`. -/
def Obligations.FourthByteDecides : Prop :=
  ∀ (s : State) (b : Byte) (rest : List Byte),
    s.st = .readCode4 → s.todo = [] → s.k = sentinel → needsFourth s.c1 s.c2 s.c3 = true → driverChoice s = none →
    (hostActs s).input = b :: rest →
    let t : State := { hostActs s with
      c4 := b, input := rest, faults := s.faults.tail, trace := s.trace ++ [.inp b] }
    step s =
      if b = sentinel then .next { t with st := .readCode3 }
      else if [s.c1, s.c2, s.c3, b] = [0x4D#8, 0x4F#8, 0x56#8, 0x45#8] then exec .move t
      else if [s.c1, s.c2, s.c3, b] = [0x53#8, 0x54#8, 0x4F#8, 0x50#8] then exec .stop t
      else if [s.c1, s.c2, s.c3, b] = [0x53#8, 0x43#8, 0x41#8, 0x4E#8] then exec .scan t
      else if [s.c1, s.c2, s.c3, b] = [0x42#8, 0x45#8, 0x45#8, 0x50#8] then exec .beep t
      else exec (.invalid s.c1 s.c2 s.c3 b) t

/-- R132: the probe echo, whole: the text of R133 to `OUT`, outcome `probe_echo`; the indicator, `IN`, every register and the
collaborators are left alone. -/
def Obligations.ProbeEchoesAndEnds : Prop :=
  ∀ (s : State) (k : Byte), proceeds 1 s = true → roomFor (echoText s.cfg.hexCase k).length s = true →
    exec (.probe k) s = .next { s with
      st := .done, todo := [], outcome := some .probeEcho, faults := s.faults.tail
      output := s.output ++ echoText s.cfg.hexCase k
      trace := s.trace ++ (echoText s.cfg.hexCase k).map Event.out }

/-- R95 and 90_conflicts.md C10: the echo is 24 bytes for `k < 10`, 25 to 15, 26 to 99, 27 above. -/
def Obligations.EchoTextLength : Prop :=
  ∀ (c : HexCase) (k : Byte), (echoText c k).length =
    if k.toNat < 10 then 24 else if k.toNat < 16 then 25 else if k.toNat < 100 then 26 else 27

/-- R133: the fields of the echo are the byte itself and its digits in base 16 and base 10, without leading zeros, between the
fixed texts; a zero is the one digit 0. The digits are the codes R133 gives: `0x30 + d` below ten, from ten on the letters from
`0x41` or from `0x61`, as `HEX_CASE` says. The renderings are the spec's decisions D8 to D10 (log 29). -/
def Obligations.EchoTextFields : Prop :=
  ∀ (c : HexCase) (k : Byte),
    echoText c k = [0x41#8, 0x53#8, 0x43#8, 0x49#8, 0x49#8, 0x20#8, k, 0x2C#8, 0x20#8, 0x48#8, 0x65#8, 0x78#8, 0x20#8]
        ++ (hexText c k ++ ([0x2C#8, 0x20#8, 0x44#8, 0x65#8, 0x63#8, 0x20#8] ++ (decText k ++ [0x2E#8, 0x0D#8, 0x0A#8])))
      ∧ (∃ digits : List Nat, hexText c k = digits.map (hexDigit c) ∧ digits.all (· < 16) ∧ digits ≠ []
          ∧ digits.foldl (fun n d => 16 * n + d) 0 = k.toNat ∧ (k ≠ 0#8 → digits.head? ≠ some 0) ∧ (k = 0#8 → digits = [0]))
      ∧ (∃ digits : List Nat, decText k = digits.map decDigit ∧ digits.all (· < 10) ∧ digits ≠ []
          ∧ digits.foldl (fun n d => 10 * n + d) 0 = k.toNat ∧ (k ≠ 0#8 → digits.head? ≠ some 0) ∧ (k = 0#8 → digits = [0]))
      ∧ (∀ d, d < 10 → (hexDigit c d).toNat = 0x30 + d ∧ (decDigit d).toNat = 0x30 + d)
      ∧ (∀ d, 10 ≤ d → d < 16 → (hexDigit c d).toNat = (if c = .upper then 0x41 else 0x61) + (d - 10))

/-! ### The commands (42_commands.md) -/

/-- R160 (and R94, R116): `CLR` reads twelve bytes as three floats in the build's byte order and calls `set_pose` once, with
exactly those, after all are in. Nothing else changes: no output, no other register. That the payload is read after `IND(0)` is
the spec's decision D13 (log 32); that non-finite values pass unchanged too is its reading D7 (log 31). -/
def Obligations.ClrSetsReceivedPose : Prop :=
  ∀ (s : State) (x0 x1 x2 x3 y0 y1 y2 y3 h0 h1 h2 h3 : Byte) (rest : List Byte),
    proceeds 3 s = true → returnsAtOnce (nextAnswer s) = true →
    s.input = x0 :: x1 :: x2 :: x3 :: y0 :: y1 :: y2 :: y3 :: h0 :: h1 :: h2 :: h3 :: rest →
    let x := valueOf32 s.cfg.byteOrder x0 x1 x2 x3
    let y := valueOf32 s.cfg.byteOrder y0 y1 y2 y3
    let h := valueOf32 s.cfg.byteOrder h0 h1 h2 h3
    exec .clr s = .next { useAnswer s with
      st := .done, ind := false, f0 := x, f1 := y, f2 := h, input := rest, faults := s.faults.drop 3, todo := []
      outcome := some (.executed .CLR)
      trace := s.trace ++ [.ind false, .inp x0, .inp x1, .inp x2, .inp x3, .inp y0, .inp y1, .inp y2, .inp y3,
        .inp h0, .inp h1, .inp h2, .inp h3, .call (.setPose x y h)] }

/-- R161: `PIC` calls `capture()` and does nothing else; neither stream is touched. -/
def Obligations.PicCapturesOnly : Prop :=
  ∀ s : State, returnsAtOnce (nextAnswer s) = true →
    exec .pic s = .next { useAnswer s with
      st := .done, ind := false, todo := [], outcome := some (.executed .PIC)
      trace := s.trace ++ [.ind false, .call .capture] }

/-- R162: `POS` sends the three getters' values, each just after its getter is called, as exactly twelve bytes in the build's byte
order; nothing is read. That each value is sent before the next getter is called is the spec's decision D18 (log 32); that
non-finite values pass unchanged too is its reading D7 (log 31). -/
def Obligations.PosSendsCurrentPose : Prop :=
  ∀ s : State, proceeds 3 s = true → roomFor 12 s = true →
    returnsAtOnce (nextAnswer s) = true → returnsAtOnce (nextAnswer (useAnswer s)) = true →
    returnsAtOnce (nextAnswer (useAnswer (useAnswer s))) = true →
    let x := (nextAnswer s).result
    let y := (nextAnswer (useAnswer s)).result
    let h := (nextAnswer (useAnswer (useAnswer s))).result
    let o := s.cfg.byteOrder
    exec .pos s = .next { useAnswer (useAnswer (useAnswer s)) with
      st := .done, ind := false, f0 := x, f1 := y, f2 := h, faults := s.faults.drop 3, todo := []
      outcome := some (.executed .POS)
      output := s.output ++ (bytesOf32 o x ++ bytesOf32 o y ++ bytesOf32 o h)
      trace := s.trace ++ ([.ind false, .call (.getX x)] ++ (bytesOf32 o x).map Event.out
        ++ [.call (.getY y)] ++ (bytesOf32 o y).map Event.out
        ++ [.call (.getHeading h)] ++ (bytesOf32 o h).map Event.out) }

/-- R163, R203: `MOVE` lends both streams; whatever the collaborator takes and gives during its call, in whatever order, happens
between the call event and the end of the action, and the block itself reads and writes nothing. How a collaborator's behaviour is
given is the model's choice (log 14). -/
def Obligations.MoveLendsBothStreams : Prop :=
  ∀ s : State, returnsAtOnce (nextAnswer s) = true →
    proceeds (accessCount (nextAnswer s).acts) s = true →
    takenBytes (nextAnswer s).acts ≤ s.input.length →
    roomFor (givenBytes (nextAnswer s).acts).length s = true →
    let acts := (nextAnswer s).acts
    exec .move s = .next { useAnswer s with
      st := .done, ind := false, todo := [], outcome := some (.executed .MOVE)
      input := s.input.drop (takenBytes acts), output := s.output ++ givenBytes acts
      faults := s.faults.drop (accessCount acts)
      trace := s.trace ++ ([.ind false, .call .receiveSpeedInstruction] ++ actEvents acts s.input) }

/-- R164: under `plain` `STOP` calls `stop()` and touches neither stream; under `with_out` the collaborator is lent `OUT` and may
write any bytes to it. How a collaborator's behaviour is given, and that its acts on a stream that is not lent do nothing, are the
model's choices (logs 14, 15). -/
def Obligations.StopFollowsItsVariant : Prop :=
  ∀ s : State, returnsAtOnce (nextAnswer s) = true →
    (s.cfg.stopVariant = .plain →
      exec .stop s = .next { useAnswer s with
        st := .done, ind := false, todo := [], outcome := some (.executed .STOP)
        trace := s.trace ++ [.ind false, .call .stop] })
    ∧ (s.cfg.stopVariant = .withOut →
      let acts := lentActs .withOut .stop (nextAnswer s).acts
      proceeds (accessCount acts) s = true → roomFor (givenBytes acts).length s = true →
      exec .stop s = .next { useAnswer s with
        st := .done, ind := false, todo := [], outcome := some (.executed .STOP)
        output := s.output ++ givenBytes acts, faults := s.faults.drop (accessCount acts)
        trace := s.trace ++ ([.ind false, .call .stopOut] ++ (givenBytes acts).map Event.out) })

/-- R165, R206: `SCAN` lends `OUT`; the collaborator's bytes follow the call event, and `IN` is not touched. How a collaborator's
behaviour is given, and that its acts on a stream that is not lent do nothing, are the model's choices (logs 14, 15). -/
def Obligations.ScanLendsOutput : Prop :=
  ∀ s : State, returnsAtOnce (nextAnswer s) = true →
    let acts := lentActs s.cfg.stopVariant .scan (nextAnswer s).acts
    proceeds (accessCount acts) s = true → roomFor (givenBytes acts).length s = true →
    exec .scan s = .next { useAnswer s with
      st := .done, ind := false, todo := [], outcome := some (.executed .SCAN)
      output := s.output ++ givenBytes acts, faults := s.faults.drop (accessCount acts)
      trace := s.trace ++ ([.ind false, .call .scan] ++ (givenBytes acts).map Event.out) }

/-- R166 (and R93, R207, R210): `BEEP` reads its frequency, then calls `tone_start`, `tone_play` with it, the wait and
`tone_stop`, in that order, without a range check. That the frequency is read first, and after `IND(0)`, are the spec's decisions
D17 and D13 (log 32). -/
def Obligations.BeepPlaysReceivedFrequency : Prop :=
  ∀ (s : State) (b0 b1 : Byte) (rest : List Byte), proceeds 1 s = true → s.input = b0 :: b1 :: rest →
    returnsAtOnce (nextAnswer s) = true → returnsAtOnce (nextAnswer (useAnswer s)) = true →
    returnsAtOnce (nextAnswer (useAnswer (useAnswer s))) = true →
    let f := valueOf16 s.cfg.byteOrder b0 b1
    exec .beep s = .next { useAnswer (useAnswer (useAnswer s)) with
      st := .done, ind := false, u0 := f, input := rest, faults := s.faults.tail, todo := []
      outcome := some (.executed .BEEP)
      trace := s.trace ++ [.ind false, .inp b0, .inp b1, .call .toneStart, .call (.tonePlay f),
        .call (.wait s.cfg.beepDuration), .call .toneStop] }

/-- R167, R96: `INVALID` writes the seven bytes of the text and nothing else, calls no collaborator and ends with `invalid`. That
no terminator follows the text is the spec's decision D11 (log 30); that the indicator goes off on this path is its decision D12
(log 32). -/
def Obligations.InvalidWritesText : Prop :=
  ∀ (s : State) (c1 c2 c3 c4 : Byte), proceeds 1 s = true → roomFor 7 s = true →
    exec (.invalid c1 c2 c3 c4) s = .next { s with
      st := .done, ind := false, todo := [], outcome := some .invalid, faults := s.faults.tail
      output := s.output ++ [0x49#8, 0x4E#8, 0x56#8, 0x41#8, 0x4C#8, 0x49#8, 0x44#8]
      trace := s.trace ++ [.ind false, .out 0x49#8, .out 0x4E#8, .out 0x56#8, .out 0x41#8, .out 0x4C#8, .out 0x49#8,
        .out 0x44#8] }

/-- The frame of every instruction, on every path (completion, hold, failure): the parameters and the header registers are never
written (R168), `F0 F1 F2` only by `CLR` and `POS`, `U0` only by `BEEP` (R24), the indicator only by an instruction run in
`Dispatch`, which switches it off (R25, R139; R132 for the echo). That `INVALID` is among those is the spec's decision D12
(log 32). -/
def Obligations.RegisterFrameOfEveryInstr : Prop :=
  ∀ (i : Instr) (s t : State), exec i s = .next t →
    t.cfg = s.cfg ∧ t.k = s.k ∧ t.c1 = s.c1 ∧ t.c2 = s.c2 ∧ t.c3 = s.c3 ∧ t.c4 = s.c4 ∧ t.host = s.host ∧ t.caller = s.caller
      ∧ (i ≠ .clr → i ≠ .pos → t.f0 = s.f0 ∧ t.f1 = s.f1 ∧ t.f2 = s.f2)
      ∧ (i ≠ .beep → t.u0 = s.u0)
      ∧ t.ind = (if isDispatched i then false else s.ind)

/-- The stream frame of every instruction, on every path: only `CLR`, `BEEP` and `MOVE` take from `IN` after their header; only
`PROBE`, `POS`, `MOVE`, `SCAN`, `INVALID`, and `STOP` under `with_out`, give to `OUT`; and what they take and give is exactly what
their events say, from the head and at the tail (R51, R60, R66). That a failing read's bytes have events too is the model's choice
(log 13). -/
def Obligations.StreamFrameOfEveryInstr : Prop :=
  ∀ (i : Instr) (s t : State), exec i s = .next t →
    (mayTakeInput i = false → t.input = s.input) ∧ (mayGiveOutput s.cfg.stopVariant i = false → t.output = s.output)
      ∧ ∃ events, t.trace = s.trace ++ events ∧ s.input = inBytes events ++ t.input
          ∧ t.output = s.output ++ outBytes events

/-- "Called only by" of R201 to R207: an instruction makes no call but its own, on any path, and the steering rows, `PROBE` and
`INVALID` make none. -/
def Obligations.CallsOnlyOfTheirCommand : Prop :=
  ∀ (i : Instr) (s t : State), exec i s = .next t →
    ∃ events, t.trace = s.trace ++ events ∧ ∀ c, Event.call c ∈ events → mayCall i c = true

/-! ### Holds and faults (60_exceptions.md) -/

/-- R52, R53, R196: while fewer bytes are there than the parser reads, nothing happens: no event, no byte taken, every register as
it was. -/
def Obligations.HeaderReadHolds : Prop :=
  ∀ s : State, s.todo = [] → driverChoice s = none →
    (((s.st = .probeByte ∨ s.st = .readCode4) ∧ (hostActs s).input = [])
      ∨ (s.st = .readCode3 ∧ (hostActs s).input.length < 3)) →
    step s = .next { hostActs s with faults := s.faults.tail }

/-- R190, R193 for the parser's reads: the cycle stops, a proper part of the bytes may be gone, `FAULT(in)` stands in place of
`RET`, the parser is in `Idle`, and nothing is rolled back or recorded. That the bytes gone show as `IN` events before the fault
is the model's choice (log 13); that at most one fewer than asked are gone is the narrower of the two R193 leaves a model, itself
the spec's decision (log 12). -/
def Obligations.HeaderReadFails : Prop :=
  ∀ (s : State) (m n : Nat), s.todo = [] → driverChoice s = some m →
    (((s.st = .probeByte ∨ s.st = .readCode4) ∧ n = 1) ∨ (s.st = .readCode3 ∧ n = 3)) →
    step s = .next { hostActs s with
      st := .idle, outcome := none, faults := s.faults.tail, input := (hostActs s).input.drop (min m (n - 1))
      trace := s.trace ++ ((hostActs s).input.take (min m (n - 1))).map Event.inp ++ [.fault .inp] }

/-- R193 for every instruction: a failure is the last event, it is the only one, and it leaves the parser in `Idle` with no action
and no outcome; the indicator keeps its last request. Without a failure the instruction leaves the parser inside the cycle. -/
def Obligations.FailureEndsTheAction : Prop :=
  ∀ (i : Instr) (s t : State), exec i s = .next t →
    ∃ events, t.trace = s.trace ++ events
      ∧ ((∃ d earlier, events = earlier ++ [.fault d] ∧ (∀ d', Event.fault d' ∉ earlier)
            ∧ t.st = .idle ∧ t.todo = [] ∧ t.outcome = none)
          ∨ ((∀ d, Event.fault d ∉ events) ∧ (t.st = .idle → isDispatched i = false ∧ s.st = .idle)))

/-- R160 with R193: the driver fails read `j` of a `CLR` payload. Whole floats before it stay read, part of the failing one may be
gone, `set_pose` is not called, and the indicator stays off. That the bytes of the failing read show as `IN` events is the model's
choice (log 13); that at most three of them are gone is the narrower of the two R193 leaves a model, itself the spec's decision
(log 12); that the payload is read after `IND(0)` is its decision D13 (log 32). -/
def Obligations.ClrPayloadFailure : Prop :=
  ∀ (s : State) (j m : Nat), j < 3 → proceeds j s = true → s.faults[j]? = some (some m) → 4 * j ≤ s.input.length →
    ∃ t, exec .clr s = .next t ∧ t.st = .idle ∧ t.ind = false ∧ t.todo = [] ∧ t.outcome = none
      ∧ t.output = s.output ∧ t.input = s.input.drop (4 * j + min m 3)
      ∧ t.trace = s.trace ++ ([.ind false] ++ (s.input.take (4 * j + min m 3)).map Event.inp ++ [.fault .inp])

/-- R162 with R193: the driver fails send `j` of a `POS` reply. The earlier floats are out, a proper part of the failing one may
be, the getters up to the failing send have been called, and the later ones are not: the whole list of events is given. That a
getter is called only after the send before it is the spec's decision D18 (log 32); that at most three bytes of the failing send
are out is the narrower of the two R193 leaves a model, itself the spec's decision (log 12). -/
def Obligations.PosReplyFailure : Prop :=
  ∀ (s : State) (j m : Nat) (c : Call) (bytes : List Byte),
    let o := s.cfg.byteOrder
    let x := (nextAnswer s).result
    let y := (nextAnswer (useAnswer s)).result
    let h := (nextAnswer (useAnswer (useAnswer s))).result
    let sends : List (Call × List Byte) :=
      [(.getX x, bytesOf32 o x), (.getY y, bytesOf32 o y), (.getHeading h, bytesOf32 o h)]
    sends[j]? = some (c, bytes) → proceeds j s = true → s.faults[j]? = some (some m) → roomFor (4 * j + 4) s = true →
    returnsAtOnce (nextAnswer s) = true → (1 ≤ j → returnsAtOnce (nextAnswer (useAnswer s)) = true) →
    (2 ≤ j → returnsAtOnce (nextAnswer (useAnswer (useAnswer s))) = true) →
    ∃ t, exec .pos s = .next t ∧ t.st = .idle ∧ t.ind = false ∧ t.todo = [] ∧ t.outcome = none ∧ t.input = s.input
      ∧ t.output = s.output ++ ((sends.take j).flatMap Prod.snd ++ bytes.take (min m 3))
      ∧ t.trace = s.trace ++ ([.ind false]
          ++ (sends.take j).flatMap (fun send => .call send.1 :: send.2.map Event.out)
          ++ [.call c] ++ (bytes.take (min m 3)).map Event.out ++ [.fault .out])

/-- R160, R196: with fewer than twelve bytes there `CLR` holds in `Dispatch`, the indicator off: the whole floats that are there
have been taken, nothing has been called, and the action is still in progress. That the payload is read after `IND(0)` is the
spec's decision D13 (log 32). -/
def Obligations.ShortClrPayloadHolds : Prop :=
  ∀ s : State, proceeds 3 s = true → s.input.length < 12 →
    ∃ t, exec .clr s = .next t ∧ t.st = .dispatch ∧ t.ind = false ∧ t.todo ≠ [] ∧ t.outcome = s.outcome
      ∧ t.output = s.output ∧ t.input = s.input.drop (4 * (s.input.length / 4))
      ∧ t.trace = s.trace ++ ([.ind false] ++ (s.input.take (4 * (s.input.length / 4))).map Event.inp)

/-- R53, R214: a `CLR` or `BEEP` payload that arrives in two parts, the second while the action holds, has the same effect as one
that was there from the start. -/
def Obligations.PayloadInTwoPartsIsTheSame : Prop :=
  ∀ (s : State) (i : Instr) (early late : List Byte),
    (i = .clr ∧ early.length < 12) ∨ (i = .beep ∧ early.length < 2) →
    ∃ t, exec i { s with input := early, faults := [] } = .next t
      ∧ step { t with host := [⟨late, 0⟩] } = exec i { s with input := early ++ late, faults := [], host := [] }

/-- R54, R68, R238: when `OUT` has fewer than seven places `INVALID` writes as many bytes as fit and holds in `Dispatch`; once the
host has drained enough, the next step writes the rest, so that the seven bytes have gone out in order and the outcome is
`invalid` (R167). That a write completes byte by byte is the model's choice among the two R68 allows (log 5); that the text is
just these seven bytes and that the indicator goes off on this path (R139) are the spec's decisions D11 and D12 (logs 30, 32). -/
def Obligations.FullOutputHoldsThenCompletes : Prop :=
  ∀ (s : State) (c d : Nat) (c1 c2 c3 c4 : Byte), s.cfg.outCapacity = some c → s.faults = [] →
    s.output.length ≤ c → c < s.output.length + 7 → 7 ≤ (c - s.output.length) + d → d ≤ c →
    ∃ t u, exec (.invalid c1 c2 c3 c4) s = .next t ∧ t.st = .dispatch ∧ t.ind = false ∧ t.outcome = s.outcome
      ∧ t.output = s.output ++ invalidText.take (c - s.output.length)
      ∧ step { t with host := [⟨[], d⟩] } = .next u ∧ u.st = .done ∧ u.outcome = some .invalid
      ∧ u.trace = s.trace ++ ([.ind false] ++ invalidText.map Event.out)

/-- R209 (b), U9: when the collaborator of any call of any command hangs, at once or after acts that have gone through, the cycle
stays in that call, in `Dispatch` with the indicator off, for ever, whatever the host does meanwhile; no event follows. The calls
before it have returned at once, and the events up to the hang are given in full. How a collaborator's behaviour is given, that
acts on a stream that is not lent do nothing, and that a call's event stands at the call, a hanging getter's with the value it
would have returned, are the model's choices (logs 14, 15, 17); the order of those events follows the spec's decisions D13, D17
and D18 (log 32). -/
def Obligations.HangingCallHoldsForEver : Prop :=
  ∀ (s : State) (i : Instr) (j n : Nat) (p : Port) (lead more : List Act),
    (portsOf i)[j]? = some p → (∀ l, l < j → returnsAtOnce (answerAt l s) = true) →
    (answerAt j s).acts = lead ++ .hang :: more → lead.all (fun x => x != .linger && x != .hang) = true →
    let acts := lentActs s.cfg.stopVariant p lead
    proceeds (accessesBefore i j + accessCount acts) s = true →
    payloadLength i + takenBytes acts ≤ s.input.length →
    roomFor (repliedBefore i j + (givenBytes acts).length) s = true →
    ∃ t u rest, exec i s = .next t
      ∧ t.todo = .during p (.hang :: more) (answerAt j s).result :: rest
      ∧ t.trace = s.trace ++ (eventsBefore i j s ++ [.call (callOf p (answerAt j s).result t)]
          ++ actEvents acts (s.input.drop (payloadLength i)))
      ∧ steps n t = .next u ∧ u.st = .dispatch ∧ u.ind = false ∧ u.outcome = s.outcome ∧ u.trace = t.trace ∧ u.todo = t.todo

/-- R194: after a failure the next `START` begins a normal cycle, from wherever `IN` now stands, with the indicator on; until the
caller decides to retry (R215) the block stays in `Idle` without an event. How the caller's choice is given is the model's
(log 18). -/
def Obligations.NextCycleAfterFailure : Prop :=
  ∀ (s : State) (d : Dir),
    (callerChoice s = .start →
      step (takeStreamFault d s) = .next { hostActs s with
        st := .probeByte, ind := true, todo := [], outcome := none, caller := s.caller.tail
        trace := s.trace ++ [.fault d, .start, .ind true] })
    ∧ (callerChoice s ≠ .start →
      ∃ t, step (takeStreamFault d s) = .next t ∧ t.st = .idle ∧ t.ind = s.ind ∧ t.todo = [] ∧ t.outcome = none
        ∧ t.input = (hostActs s).input ∧ t.output = (hostActs s).output ∧ t.trace = s.trace ++ [.fault d])

/-! ### Reset (70_reset_and_hazards.md) -/

/-- R230: after reset the parser is in `Idle`, no event has happened and no cycle is in progress. That the build of the reset
state has the `plain` variant of `STOP` is the spec's decision D14 (R6, R164; log 3). -/
def Obligations.ResetIsIdle : Prop :=
  State.reset.st = .idle ∧ State.reset.trace = [] ∧ State.reset.todo = [] ∧ State.reset.outcome = none
    ∧ State.reset.cfg.stopVariant = .plain

/-- R231: reset of a running block touches neither stream nor the collaborators, makes no request and produces no event; the bytes
waiting in `IN` are what the first cycle reads, and the first thing the block does is wait for `START`. That reset of a running
block is the operation `resetBlock`, no step, and leaves the last request as it was is the model's choice (log 38); so is how the
caller's choice is given (log 18). -/
def Obligations.ResetLeavesStreams : Prop :=
  ∀ s : State,
    (resetBlock s).st = .idle ∧ (resetBlock s).todo = [] ∧ (resetBlock s).input = s.input
      ∧ (resetBlock s).output = s.output ∧ (resetBlock s).ind = s.ind ∧ (resetBlock s).trace = s.trace
      ∧ (resetBlock s).cfg = s.cfg ∧ (resetBlock s).answers = s.answers ∧ (resetBlock s).caller = s.caller
      ∧ (callerChoice s = .start → ∃ t, step (resetBlock s) = .next t ∧ t.st = .probeByte ∧ t.input = (hostActs s).input
          ∧ t.trace = s.trace ++ [.start, .ind true])
      ∧ (callerChoice s ≠ .start → ∃ t, step (resetBlock s) = .next t ∧ t.st = .idle ∧ t.input = (hostActs s).input
          ∧ t.trace = s.trace)

/-- The invariant holds after reset. -/
def Obligations.InvAtReset : Prop := Inv State.reset

/-! ### The whole machine -/

/-- The invariant is kept by every step: the sentinel in `k` while a window or an action is in progress, an undecided window
before a fourth byte, the indicator on while listening and off in `Dispatch`, an outcome exactly in `Done`, an action that still
ends in `Done`, and `OUT` within its capacity. -/
def Obligations.StepKeepsInv : Prop :=
  ∀ s t : State, Inv s → step s = .next t → Inv t

/-- From every state that meets the invariant the block takes a step: it has no halt, no stuck state and refuses nothing
(R216). -/
def Obligations.StepNeverStops : Prop :=
  ∀ s : State, Inv s → ∃ t, step s = .next t

/-- R51: from every state, every step keeps both streams whole: the bytes taken from `IN` are its head, in order, each with one
event, what the host sent in the meantime having gone to its tail; the bytes given to `OUT` are appended, in order, each with one
event, what the host drained having left its head; nothing is lost, doubled or altered; the history only grows. That a failing
read's bytes have events too is the model's choice (log 13). -/
def Obligations.StreamsAreLossless : Prop :=
  ∀ s t : State, step s = .next t →
    ∃ events, t.trace = s.trace ++ events
      ∧ s.input ++ (s.host.headD ⟨[], 0⟩).send = inBytes events ++ t.input
      ∧ t.output = s.output.drop (s.host.headD ⟨[], 0⟩).drain ++ outBytes events

/-- R130, R216: cycles do not nest or overlap: every cycle begun has ended by exactly one `RET` or `FAULT`, but for the one in
progress when `st ≠ Idle`. -/
def Obligations.StepKeepsCyclesBalanced : Prop :=
  ∀ s t : State, Inv s → cyclesBalanced s → step s = .next t → cyclesBalanced t

/-- R25: `IND` always holds the last request made. -/
def Obligations.StepKeepsLastRequest : Prop :=
  ∀ s t : State, indicatorIsLastRequest s → step s = .next t → indicatorIsLastRequest t

/-- R25: the indicator is asked on only at the start of a cycle and off only on entry to `Dispatch`. That `INVALID` is run in
`Dispatch`, with the indicator off, is the spec's decision D12 (log 32). -/
def Obligations.IndicatorRequestsOnlyThere : Prop :=
  ∀ s t : State, Inv s → step s = .next t →
    ∃ events, t.trace = s.trace ++ events
      ∧ (Event.ind true ∈ events → s.st = .idle)
      ∧ (Event.ind false ∈ events →
          ∃ i u, isDispatched i = true ∧ fetch (hostActs s) = .run i u ∧ exec i u = .next t)

/-- R6, R26, R56: no step changes a parameter; the byte order cannot be switched at run time. -/
def Obligations.StepKeepsParameters : Prop :=
  ∀ s t : State, step s = .next t → t.cfg = s.cfg

/-- R144: the resynchronization loop has no bound: as many windows with a sentinel in them as there are keep the block in
`ReadCode3`, one step each, with the indicator as it was, no output and no fault; and when fewer than three bytes are left it
holds there, however long. -/
def Obligations.ResyncHasNoBound : Prop :=
  ∀ (windows : List (Byte × Byte × Byte)) (s : State) (rest : List Byte),
    s.st = .readCode3 → s.todo = [] → s.k = sentinel → s.host = [] → s.faults = [] →
    (∀ w ∈ windows, w.1 = sentinel ∨ w.2.1 = sentinel ∨ w.2.2 = sentinel) →
    s.input = windows.flatMap (fun w => [w.1, w.2.1, w.2.2]) ++ rest →
    ∀ n, n = 0 ∨ rest.length < 3 →
    ∃ t, steps (windows.length + n) s = .next t ∧ t.st = .readCode3 ∧ t.input = rest ∧ t.ind = s.ind ∧ t.output = s.output
      ∧ t.trace = s.trace ++ (windows.flatMap (fun w => [w.1, w.2.1, w.2.2])).map Event.inp

/-- R145: a run of `1 + 3m` sentinels followed by a code runs that code, whichever of the seven it is, with the bytes after it
left in `IN`, when the caller issues `START`. What one step takes in is the model's choice (log 19). -/
def Obligations.SentinelRunThenCodeRuns : Prop :=
  ∀ (m : Nat) (i : Instr) (s : State) (rest : List Byte),
    (i = .clr ∨ i = .pic ∨ i = .pos ∨ i = .move ∨ i = .stop ∨ i = .scan ∨ i = .beep) →
    s.st = .idle → s.todo = [] → callerChoice s = .start → s.host = [] → s.faults = [] →
    s.input = List.replicate (3 * m) sentinel ++ (encode i ++ rest) →
    ∃ t, steps (m + i.format.bytes - 1) s = exec i t ∧ t.input = rest ∧ t.output = s.output ∧ t.ind = true

/-- R145: one sentinel too many shifts the window: `"!" "!" "PIC"` does not run `PIC`; the two sentinels and the first two letters
are gone, and the window begins with the last letter. What one step takes in is the model's choice (log 19). -/
def Obligations.ExtraSentinelShiftsWindow : Prop :=
  ∀ (s : State) (rest : List Byte), s.st = .idle → s.todo = [] → callerChoice s = .start → s.host = [] → s.faults = [] →
    s.input = [0x21#8, 0x21#8, 0x50#8, 0x49#8, 0x43#8] ++ rest →
    ∃ t, steps 3 s = .next t ∧ t.st = .readCode3 ∧ t.input = 0x43#8 :: rest ∧ t.outcome = none ∧ t.todo = []
      ∧ ∀ c, Event.call c ∉ t.trace.drop s.trace.length

/-- R142, R143: a whole listen cycle follows the procedure. When the bytes in `IN` let the acquisition loop end, the block runs
the verdict's instruction after consuming `1 + 3·(a+b+1) + b + e` bytes, `a` and `b` being the numbers of resynchronizations; when
they run out inside a window it holds there for ever, without an event but the bytes taken. The caller issues `START`. -/
def Obligations.ListenCycleFollowsProcedure : Prop :=
  ∀ (s : State) (body : List Byte), s.st = .idle → s.todo = [] → callerChoice s = .start → s.host = [] → s.faults = [] →
    s.input = 0x21#8 :: body →
    (∀ a, acquire body = some a →
      ∃ n t used, steps n s = exec a.verdict t ∧ t.input = a.rest ∧ s.input = used ++ a.rest
        ∧ used.length = 1 + 3 * (a.resync3 + a.resync4 + 1) + a.resync4 + (a.verdict.format.bytes - 4)
        ∧ t.trace = s.trace ++ ([.start, .ind true] ++ used.map Event.inp)
        ∧ t.output = s.output ∧ t.ind = true ∧ t.f0 = s.f0 ∧ t.f1 = s.f1 ∧ t.f2 = s.f2 ∧ t.u0 = s.u0 ∧ t.answers = s.answers)
    ∧ (acquire body = none →
      ∀ n, ∃ t used, steps (n + 2) s = .next t ∧ (t.st = .readCode3 ∨ t.st = .readCode4)
        ∧ s.input = used ++ t.input ∧ t.trace = s.trace ++ ([.start, .ind true] ++ used.map Event.inp)
        ∧ t.output = s.output ∧ t.ind = true)

/-- R34, R36: the scratch and payload registers are dead between cycles: two blocks in `Idle` that differ only in them go on alike
for ever, so no cycle reads a register before it has written it. -/
def Obligations.RegistersAreDeadBetweenCycles : Prop :=
  ∀ (n : Nat) (s s' : State), s.st = .idle → s.todo = [] → eraseRegisters s = eraseRegisters s' →
    ∃ t t', steps n s = .next t ∧ steps n s' = .next t' ∧ eraseRegisters t = eraseRegisters t'

/-- R196, R209 (b): a call whose collaborator will hang never returns, whatever it still does on the streams it was lent and
however long it lingers before: after any number of steps the block is still in that call, unless a `StreamFault` of the
collaborator has ended the cycle before. Once it hangs, no event follows. How a collaborator's behaviour is given is the model's
choice (log 14). -/
def Obligations.CallWithHangNeverReturns : Prop :=
  ∀ (s : State) (p : Port) (acts : List Act) (w : Pattern) (rest : List Op) (n : Nat),
    s.todo = .during p acts w :: rest →
    (.hang ∈ acts →
      (∃ u left, steps n s = .next u ∧ .hang ∈ left ∧ u.todo = .during p left w :: rest
          ∧ u.st = s.st ∧ u.ind = s.ind ∧ u.outcome = s.outcome)
      ∨ ∃ m u d, m ≤ n ∧ steps m s = .next u ∧ u.st = .idle ∧ u.todo = [] ∧ u.ind = s.ind ∧ u.trace.getLast? = some (.fault d))
    ∧ (acts.head? = some .hang →
      ∃ u, steps n s = .next u ∧ u.todo = s.todo ∧ u.st = s.st ∧ u.ind = s.ind ∧ u.outcome = s.outcome ∧ u.trace = s.trace)

/-- R215, R216: the caller may decline to issue `START`, for a step or for good. While it does, the block stays in `Idle`, without
an event, with every register, the indicator, the outcome and what is in `OUT` as the host leaves it; and once it has stopped
invoking, that is so for ever, whatever the host sends and drains. A caller that waits `n` steps and then invokes begins the same
cycle as one that invokes at once, from wherever the host has brought the streams. How the caller's choice is given is the model's
(log 18). -/
def Obligations.CallerMayDeclineToInvoke : Prop :=
  (∀ s : State, s.st = .idle → s.todo = [] → callerChoice s ≠ .start →
      step s = .next { hostActs s with caller := if callerChoice s = .stop then s.caller else s.caller.tail })
    ∧ (∀ (s : State) (n : Nat), s.st = .idle → s.todo = [] → callerChoice s = .stop →
      steps n s = .next { s with
        input := s.input ++ (s.host.take n).flatMap HostMove.send
        output := s.output.drop ((s.host.take n).map HostMove.drain).sum, host := s.host.drop n })
    ∧ (∀ (s : State) (n : Nat) (rest : List CallerMove), s.st = .idle → s.todo = [] →
      steps (n + 1) { s with caller := List.replicate n .wait ++ .start :: rest } = step { s with
        input := s.input ++ (s.host.take n).flatMap HostMove.send
        output := s.output.drop ((s.host.take n).map HostMove.drain).sum, host := s.host.drop n, caller := .start :: rest })
end

