-- ==== Sys2Proof/Laws/State.lean ====
section
/-! SUPPORT. One lemma for each field and each update of `State`, true by `rfl`, so that no proof unfolds a record update. -/

namespace Sys2Proof.Machine

/-! `emit` -/

@[simp] theorem emit_cfg (e : Event) (s : State) : (emit e s).cfg = s.cfg := rfl
@[simp] theorem emit_st (e : Event) (s : State) : (emit e s).st = s.st := rfl
@[simp] theorem emit_k (e : Event) (s : State) : (emit e s).k = s.k := rfl
@[simp] theorem emit_c1 (e : Event) (s : State) : (emit e s).c1 = s.c1 := rfl
@[simp] theorem emit_c2 (e : Event) (s : State) : (emit e s).c2 = s.c2 := rfl
@[simp] theorem emit_c3 (e : Event) (s : State) : (emit e s).c3 = s.c3 := rfl
@[simp] theorem emit_c4 (e : Event) (s : State) : (emit e s).c4 = s.c4 := rfl
@[simp] theorem emit_f0 (e : Event) (s : State) : (emit e s).f0 = s.f0 := rfl
@[simp] theorem emit_f1 (e : Event) (s : State) : (emit e s).f1 = s.f1 := rfl
@[simp] theorem emit_f2 (e : Event) (s : State) : (emit e s).f2 = s.f2 := rfl
@[simp] theorem emit_u0 (e : Event) (s : State) : (emit e s).u0 = s.u0 := rfl
@[simp] theorem emit_ind (e : Event) (s : State) : (emit e s).ind = s.ind := rfl
@[simp] theorem emit_input (e : Event) (s : State) : (emit e s).input = s.input := rfl
@[simp] theorem emit_output (e : Event) (s : State) : (emit e s).output = s.output := rfl
@[simp] theorem emit_trace (e : Event) (s : State) : (emit e s).trace = s.trace ++ [e] := rfl
@[simp] theorem emit_todo (e : Event) (s : State) : (emit e s).todo = s.todo := rfl
@[simp] theorem emit_outcome (e : Event) (s : State) : (emit e s).outcome = s.outcome := rfl
@[simp] theorem emit_host (e : Event) (s : State) : (emit e s).host = s.host := rfl
@[simp] theorem emit_caller (e : Event) (s : State) : (emit e s).caller = s.caller := rfl
@[simp] theorem emit_faults (e : Event) (s : State) : (emit e s).faults = s.faults := rfl
@[simp] theorem emit_answers (e : Event) (s : State) : (emit e s).answers = s.answers := rfl
@[simp] theorem emit_draws (e : Event) (s : State) : (emit e s).draws = s.draws := rfl

/-! `goto` -/

@[simp] theorem goto_cfg (p : ParserState) (s : State) : (goto p s).cfg = s.cfg := rfl
@[simp] theorem goto_st (p : ParserState) (s : State) : (goto p s).st = p := rfl
@[simp] theorem goto_k (p : ParserState) (s : State) : (goto p s).k = s.k := rfl
@[simp] theorem goto_c1 (p : ParserState) (s : State) : (goto p s).c1 = s.c1 := rfl
@[simp] theorem goto_c2 (p : ParserState) (s : State) : (goto p s).c2 = s.c2 := rfl
@[simp] theorem goto_c3 (p : ParserState) (s : State) : (goto p s).c3 = s.c3 := rfl
@[simp] theorem goto_c4 (p : ParserState) (s : State) : (goto p s).c4 = s.c4 := rfl
@[simp] theorem goto_f0 (p : ParserState) (s : State) : (goto p s).f0 = s.f0 := rfl
@[simp] theorem goto_f1 (p : ParserState) (s : State) : (goto p s).f1 = s.f1 := rfl
@[simp] theorem goto_f2 (p : ParserState) (s : State) : (goto p s).f2 = s.f2 := rfl
@[simp] theorem goto_u0 (p : ParserState) (s : State) : (goto p s).u0 = s.u0 := rfl
@[simp] theorem goto_ind (p : ParserState) (s : State) : (goto p s).ind = s.ind := rfl
@[simp] theorem goto_input (p : ParserState) (s : State) : (goto p s).input = s.input := rfl
@[simp] theorem goto_output (p : ParserState) (s : State) : (goto p s).output = s.output := rfl
@[simp] theorem goto_trace (p : ParserState) (s : State) : (goto p s).trace = s.trace := rfl
@[simp] theorem goto_todo (p : ParserState) (s : State) : (goto p s).todo = s.todo := rfl
@[simp] theorem goto_outcome (p : ParserState) (s : State) : (goto p s).outcome = s.outcome := rfl
@[simp] theorem goto_host (p : ParserState) (s : State) : (goto p s).host = s.host := rfl
@[simp] theorem goto_caller (p : ParserState) (s : State) : (goto p s).caller = s.caller := rfl
@[simp] theorem goto_faults (p : ParserState) (s : State) : (goto p s).faults = s.faults := rfl
@[simp] theorem goto_answers (p : ParserState) (s : State) : (goto p s).answers = s.answers := rfl
@[simp] theorem goto_draws (p : ParserState) (s : State) : (goto p s).draws = s.draws := rfl

/-! `setU0` -/

@[simp] theorem setU0_cfg (u : Half) (s : State) : (setU0 u s).cfg = s.cfg := rfl
@[simp] theorem setU0_st (u : Half) (s : State) : (setU0 u s).st = s.st := rfl
@[simp] theorem setU0_k (u : Half) (s : State) : (setU0 u s).k = s.k := rfl
@[simp] theorem setU0_c1 (u : Half) (s : State) : (setU0 u s).c1 = s.c1 := rfl
@[simp] theorem setU0_c2 (u : Half) (s : State) : (setU0 u s).c2 = s.c2 := rfl
@[simp] theorem setU0_c3 (u : Half) (s : State) : (setU0 u s).c3 = s.c3 := rfl
@[simp] theorem setU0_c4 (u : Half) (s : State) : (setU0 u s).c4 = s.c4 := rfl
@[simp] theorem setU0_f0 (u : Half) (s : State) : (setU0 u s).f0 = s.f0 := rfl
@[simp] theorem setU0_f1 (u : Half) (s : State) : (setU0 u s).f1 = s.f1 := rfl
@[simp] theorem setU0_f2 (u : Half) (s : State) : (setU0 u s).f2 = s.f2 := rfl
@[simp] theorem setU0_u0 (u : Half) (s : State) : (setU0 u s).u0 = u := rfl
@[simp] theorem setU0_ind (u : Half) (s : State) : (setU0 u s).ind = s.ind := rfl
@[simp] theorem setU0_input (u : Half) (s : State) : (setU0 u s).input = s.input := rfl
@[simp] theorem setU0_output (u : Half) (s : State) : (setU0 u s).output = s.output := rfl
@[simp] theorem setU0_trace (u : Half) (s : State) : (setU0 u s).trace = s.trace := rfl
@[simp] theorem setU0_todo (u : Half) (s : State) : (setU0 u s).todo = s.todo := rfl
@[simp] theorem setU0_outcome (u : Half) (s : State) : (setU0 u s).outcome = s.outcome := rfl
@[simp] theorem setU0_host (u : Half) (s : State) : (setU0 u s).host = s.host := rfl
@[simp] theorem setU0_caller (u : Half) (s : State) : (setU0 u s).caller = s.caller := rfl
@[simp] theorem setU0_faults (u : Half) (s : State) : (setU0 u s).faults = s.faults := rfl
@[simp] theorem setU0_answers (u : Half) (s : State) : (setU0 u s).answers = s.answers := rfl
@[simp] theorem setU0_draws (u : Half) (s : State) : (setU0 u s).draws = s.draws := rfl

/-! `consume` -/

@[simp] theorem consume_cfg (n : Nat) (s : State) : (consume n s).cfg = s.cfg := rfl
@[simp] theorem consume_st (n : Nat) (s : State) : (consume n s).st = s.st := rfl
@[simp] theorem consume_k (n : Nat) (s : State) : (consume n s).k = s.k := rfl
@[simp] theorem consume_c1 (n : Nat) (s : State) : (consume n s).c1 = s.c1 := rfl
@[simp] theorem consume_c2 (n : Nat) (s : State) : (consume n s).c2 = s.c2 := rfl
@[simp] theorem consume_c3 (n : Nat) (s : State) : (consume n s).c3 = s.c3 := rfl
@[simp] theorem consume_c4 (n : Nat) (s : State) : (consume n s).c4 = s.c4 := rfl
@[simp] theorem consume_f0 (n : Nat) (s : State) : (consume n s).f0 = s.f0 := rfl
@[simp] theorem consume_f1 (n : Nat) (s : State) : (consume n s).f1 = s.f1 := rfl
@[simp] theorem consume_f2 (n : Nat) (s : State) : (consume n s).f2 = s.f2 := rfl
@[simp] theorem consume_u0 (n : Nat) (s : State) : (consume n s).u0 = s.u0 := rfl
@[simp] theorem consume_ind (n : Nat) (s : State) : (consume n s).ind = s.ind := rfl
@[simp] theorem consume_input (n : Nat) (s : State) : (consume n s).input = s.input.drop n := rfl
@[simp] theorem consume_output (n : Nat) (s : State) : (consume n s).output = s.output := rfl
@[simp] theorem consume_trace (n : Nat) (s : State) : (consume n s).trace = s.trace ++ (s.input.take n).map Event.inp := rfl
@[simp] theorem consume_todo (n : Nat) (s : State) : (consume n s).todo = s.todo := rfl
@[simp] theorem consume_outcome (n : Nat) (s : State) : (consume n s).outcome = s.outcome := rfl
@[simp] theorem consume_host (n : Nat) (s : State) : (consume n s).host = s.host := rfl
@[simp] theorem consume_caller (n : Nat) (s : State) : (consume n s).caller = s.caller := rfl
@[simp] theorem consume_faults (n : Nat) (s : State) : (consume n s).faults = s.faults := rfl
@[simp] theorem consume_answers (n : Nat) (s : State) : (consume n s).answers = s.answers := rfl
@[simp] theorem consume_draws (n : Nat) (s : State) : (consume n s).draws = s.draws := rfl

/-! `produce` -/

@[simp] theorem produce_cfg (b : List Byte) (s : State) : (produce b s).cfg = s.cfg := rfl
@[simp] theorem produce_st (b : List Byte) (s : State) : (produce b s).st = s.st := rfl
@[simp] theorem produce_k (b : List Byte) (s : State) : (produce b s).k = s.k := rfl
@[simp] theorem produce_c1 (b : List Byte) (s : State) : (produce b s).c1 = s.c1 := rfl
@[simp] theorem produce_c2 (b : List Byte) (s : State) : (produce b s).c2 = s.c2 := rfl
@[simp] theorem produce_c3 (b : List Byte) (s : State) : (produce b s).c3 = s.c3 := rfl
@[simp] theorem produce_c4 (b : List Byte) (s : State) : (produce b s).c4 = s.c4 := rfl
@[simp] theorem produce_f0 (b : List Byte) (s : State) : (produce b s).f0 = s.f0 := rfl
@[simp] theorem produce_f1 (b : List Byte) (s : State) : (produce b s).f1 = s.f1 := rfl
@[simp] theorem produce_f2 (b : List Byte) (s : State) : (produce b s).f2 = s.f2 := rfl
@[simp] theorem produce_u0 (b : List Byte) (s : State) : (produce b s).u0 = s.u0 := rfl
@[simp] theorem produce_ind (b : List Byte) (s : State) : (produce b s).ind = s.ind := rfl
@[simp] theorem produce_input (b : List Byte) (s : State) : (produce b s).input = s.input := rfl
@[simp] theorem produce_output (b : List Byte) (s : State) : (produce b s).output = s.output ++ b := rfl
@[simp] theorem produce_trace (b : List Byte) (s : State) : (produce b s).trace = s.trace ++ b.map Event.out := rfl
@[simp] theorem produce_todo (b : List Byte) (s : State) : (produce b s).todo = s.todo := rfl
@[simp] theorem produce_outcome (b : List Byte) (s : State) : (produce b s).outcome = s.outcome := rfl
@[simp] theorem produce_host (b : List Byte) (s : State) : (produce b s).host = s.host := rfl
@[simp] theorem produce_caller (b : List Byte) (s : State) : (produce b s).caller = s.caller := rfl
@[simp] theorem produce_faults (b : List Byte) (s : State) : (produce b s).faults = s.faults := rfl
@[simp] theorem produce_answers (b : List Byte) (s : State) : (produce b s).answers = s.answers := rfl
@[simp] theorem produce_draws (b : List Byte) (s : State) : (produce b s).draws = s.draws := rfl

/-! `takeStreamFault` -/

@[simp] theorem takeStreamFault_cfg (d : Dir) (s : State) : (takeStreamFault d s).cfg = s.cfg := rfl
@[simp] theorem takeStreamFault_st (d : Dir) (s : State) : (takeStreamFault d s).st = .idle := rfl
@[simp] theorem takeStreamFault_k (d : Dir) (s : State) : (takeStreamFault d s).k = s.k := rfl
@[simp] theorem takeStreamFault_c1 (d : Dir) (s : State) : (takeStreamFault d s).c1 = s.c1 := rfl
@[simp] theorem takeStreamFault_c2 (d : Dir) (s : State) : (takeStreamFault d s).c2 = s.c2 := rfl
@[simp] theorem takeStreamFault_c3 (d : Dir) (s : State) : (takeStreamFault d s).c3 = s.c3 := rfl
@[simp] theorem takeStreamFault_c4 (d : Dir) (s : State) : (takeStreamFault d s).c4 = s.c4 := rfl
@[simp] theorem takeStreamFault_f0 (d : Dir) (s : State) : (takeStreamFault d s).f0 = s.f0 := rfl
@[simp] theorem takeStreamFault_f1 (d : Dir) (s : State) : (takeStreamFault d s).f1 = s.f1 := rfl
@[simp] theorem takeStreamFault_f2 (d : Dir) (s : State) : (takeStreamFault d s).f2 = s.f2 := rfl
@[simp] theorem takeStreamFault_u0 (d : Dir) (s : State) : (takeStreamFault d s).u0 = s.u0 := rfl
@[simp] theorem takeStreamFault_ind (d : Dir) (s : State) : (takeStreamFault d s).ind = s.ind := rfl
@[simp] theorem takeStreamFault_input (d : Dir) (s : State) : (takeStreamFault d s).input = s.input := rfl
@[simp] theorem takeStreamFault_output (d : Dir) (s : State) : (takeStreamFault d s).output = s.output := rfl
@[simp] theorem takeStreamFault_trace (d : Dir) (s : State) : (takeStreamFault d s).trace = s.trace ++ [.fault d] := rfl
@[simp] theorem takeStreamFault_todo (d : Dir) (s : State) : (takeStreamFault d s).todo = [] := rfl
@[simp] theorem takeStreamFault_outcome (d : Dir) (s : State) : (takeStreamFault d s).outcome = none := rfl
@[simp] theorem takeStreamFault_host (d : Dir) (s : State) : (takeStreamFault d s).host = s.host := rfl
@[simp] theorem takeStreamFault_caller (d : Dir) (s : State) : (takeStreamFault d s).caller = s.caller := rfl
@[simp] theorem takeStreamFault_faults (d : Dir) (s : State) : (takeStreamFault d s).faults = s.faults := rfl
@[simp] theorem takeStreamFault_answers (d : Dir) (s : State) : (takeStreamFault d s).answers = s.answers := rfl
@[simp] theorem takeStreamFault_draws (d : Dir) (s : State) : (takeStreamFault d s).draws = s.draws := rfl

/-! `returnToCaller` -/

@[simp] theorem returnToCaller_cfg (o : CycleOutcome) (s : State) : (returnToCaller o s).cfg = s.cfg := rfl
@[simp] theorem returnToCaller_st (o : CycleOutcome) (s : State) : (returnToCaller o s).st = .idle := rfl
@[simp] theorem returnToCaller_k (o : CycleOutcome) (s : State) : (returnToCaller o s).k = s.k := rfl
@[simp] theorem returnToCaller_c1 (o : CycleOutcome) (s : State) : (returnToCaller o s).c1 = s.c1 := rfl
@[simp] theorem returnToCaller_c2 (o : CycleOutcome) (s : State) : (returnToCaller o s).c2 = s.c2 := rfl
@[simp] theorem returnToCaller_c3 (o : CycleOutcome) (s : State) : (returnToCaller o s).c3 = s.c3 := rfl
@[simp] theorem returnToCaller_c4 (o : CycleOutcome) (s : State) : (returnToCaller o s).c4 = s.c4 := rfl
@[simp] theorem returnToCaller_f0 (o : CycleOutcome) (s : State) : (returnToCaller o s).f0 = s.f0 := rfl
@[simp] theorem returnToCaller_f1 (o : CycleOutcome) (s : State) : (returnToCaller o s).f1 = s.f1 := rfl
@[simp] theorem returnToCaller_f2 (o : CycleOutcome) (s : State) : (returnToCaller o s).f2 = s.f2 := rfl
@[simp] theorem returnToCaller_u0 (o : CycleOutcome) (s : State) : (returnToCaller o s).u0 = s.u0 := rfl
@[simp] theorem returnToCaller_ind (o : CycleOutcome) (s : State) : (returnToCaller o s).ind = s.ind := rfl
@[simp] theorem returnToCaller_input (o : CycleOutcome) (s : State) : (returnToCaller o s).input = s.input := rfl
@[simp] theorem returnToCaller_output (o : CycleOutcome) (s : State) : (returnToCaller o s).output = s.output := rfl
@[simp] theorem returnToCaller_trace (o : CycleOutcome) (s : State) : (returnToCaller o s).trace = s.trace ++ [.ret o] := rfl
@[simp] theorem returnToCaller_todo (o : CycleOutcome) (s : State) : (returnToCaller o s).todo = s.todo := rfl
@[simp] theorem returnToCaller_outcome (o : CycleOutcome) (s : State) : (returnToCaller o s).outcome = none := rfl
@[simp] theorem returnToCaller_host (o : CycleOutcome) (s : State) : (returnToCaller o s).host = s.host := rfl
@[simp] theorem returnToCaller_caller (o : CycleOutcome) (s : State) : (returnToCaller o s).caller = s.caller := rfl
@[simp] theorem returnToCaller_faults (o : CycleOutcome) (s : State) : (returnToCaller o s).faults = s.faults := rfl
@[simp] theorem returnToCaller_answers (o : CycleOutcome) (s : State) : (returnToCaller o s).answers = s.answers := rfl
@[simp] theorem returnToCaller_draws (o : CycleOutcome) (s : State) : (returnToCaller o s).draws = s.draws := rfl

/-! `attempt` -/

@[simp] theorem attempt_cfg (s : State) : (attempt s).cfg = s.cfg := rfl
@[simp] theorem attempt_st (s : State) : (attempt s).st = s.st := rfl
@[simp] theorem attempt_k (s : State) : (attempt s).k = s.k := rfl
@[simp] theorem attempt_c1 (s : State) : (attempt s).c1 = s.c1 := rfl
@[simp] theorem attempt_c2 (s : State) : (attempt s).c2 = s.c2 := rfl
@[simp] theorem attempt_c3 (s : State) : (attempt s).c3 = s.c3 := rfl
@[simp] theorem attempt_c4 (s : State) : (attempt s).c4 = s.c4 := rfl
@[simp] theorem attempt_f0 (s : State) : (attempt s).f0 = s.f0 := rfl
@[simp] theorem attempt_f1 (s : State) : (attempt s).f1 = s.f1 := rfl
@[simp] theorem attempt_f2 (s : State) : (attempt s).f2 = s.f2 := rfl
@[simp] theorem attempt_u0 (s : State) : (attempt s).u0 = s.u0 := rfl
@[simp] theorem attempt_ind (s : State) : (attempt s).ind = s.ind := rfl
@[simp] theorem attempt_input (s : State) : (attempt s).input = s.input := rfl
@[simp] theorem attempt_output (s : State) : (attempt s).output = s.output := rfl
@[simp] theorem attempt_trace (s : State) : (attempt s).trace = s.trace := rfl
@[simp] theorem attempt_todo (s : State) : (attempt s).todo = s.todo := rfl
@[simp] theorem attempt_outcome (s : State) : (attempt s).outcome = s.outcome := rfl
@[simp] theorem attempt_host (s : State) : (attempt s).host = s.host := rfl
@[simp] theorem attempt_caller (s : State) : (attempt s).caller = s.caller := rfl
@[simp] theorem attempt_faults (s : State) : (attempt s).faults = s.faults.tail := rfl
@[simp] theorem attempt_answers (s : State) : (attempt s).answers = s.answers := rfl
@[simp] theorem attempt_draws (s : State) : (attempt s).draws = s.draws := rfl

/-! `hostActs` -/

@[simp] theorem hostActs_cfg (s : State) : (hostActs s).cfg = s.cfg := rfl
@[simp] theorem hostActs_st (s : State) : (hostActs s).st = s.st := rfl
@[simp] theorem hostActs_k (s : State) : (hostActs s).k = s.k := rfl
@[simp] theorem hostActs_c1 (s : State) : (hostActs s).c1 = s.c1 := rfl
@[simp] theorem hostActs_c2 (s : State) : (hostActs s).c2 = s.c2 := rfl
@[simp] theorem hostActs_c3 (s : State) : (hostActs s).c3 = s.c3 := rfl
@[simp] theorem hostActs_c4 (s : State) : (hostActs s).c4 = s.c4 := rfl
@[simp] theorem hostActs_f0 (s : State) : (hostActs s).f0 = s.f0 := rfl
@[simp] theorem hostActs_f1 (s : State) : (hostActs s).f1 = s.f1 := rfl
@[simp] theorem hostActs_f2 (s : State) : (hostActs s).f2 = s.f2 := rfl
@[simp] theorem hostActs_u0 (s : State) : (hostActs s).u0 = s.u0 := rfl
@[simp] theorem hostActs_ind (s : State) : (hostActs s).ind = s.ind := rfl
@[simp] theorem hostActs_input (s : State) : (hostActs s).input = s.input ++ (s.host.headD ⟨[], 0⟩).send := rfl
@[simp] theorem hostActs_output (s : State) : (hostActs s).output = s.output.drop (s.host.headD ⟨[], 0⟩).drain := rfl
@[simp] theorem hostActs_trace (s : State) : (hostActs s).trace = s.trace := rfl
@[simp] theorem hostActs_todo (s : State) : (hostActs s).todo = s.todo := rfl
@[simp] theorem hostActs_outcome (s : State) : (hostActs s).outcome = s.outcome := rfl
@[simp] theorem hostActs_host (s : State) : (hostActs s).host = s.host.tail := rfl
@[simp] theorem hostActs_caller (s : State) : (hostActs s).caller = s.caller := rfl
@[simp] theorem hostActs_faults (s : State) : (hostActs s).faults = s.faults := rfl
@[simp] theorem hostActs_answers (s : State) : (hostActs s).answers = s.answers := rfl
@[simp] theorem hostActs_draws (s : State) : (hostActs s).draws = s.draws := rfl

/-! `indSet` -/

@[simp] theorem indSet_cfg (v : Bool) (s : State) : (indSet v s).cfg = s.cfg := rfl
@[simp] theorem indSet_st (v : Bool) (s : State) : (indSet v s).st = s.st := rfl
@[simp] theorem indSet_k (v : Bool) (s : State) : (indSet v s).k = s.k := rfl
@[simp] theorem indSet_c1 (v : Bool) (s : State) : (indSet v s).c1 = s.c1 := rfl
@[simp] theorem indSet_c2 (v : Bool) (s : State) : (indSet v s).c2 = s.c2 := rfl
@[simp] theorem indSet_c3 (v : Bool) (s : State) : (indSet v s).c3 = s.c3 := rfl
@[simp] theorem indSet_c4 (v : Bool) (s : State) : (indSet v s).c4 = s.c4 := rfl
@[simp] theorem indSet_f0 (v : Bool) (s : State) : (indSet v s).f0 = s.f0 := rfl
@[simp] theorem indSet_f1 (v : Bool) (s : State) : (indSet v s).f1 = s.f1 := rfl
@[simp] theorem indSet_f2 (v : Bool) (s : State) : (indSet v s).f2 = s.f2 := rfl
@[simp] theorem indSet_u0 (v : Bool) (s : State) : (indSet v s).u0 = s.u0 := rfl
@[simp] theorem indSet_ind (v : Bool) (s : State) : (indSet v s).ind = v := rfl
@[simp] theorem indSet_input (v : Bool) (s : State) : (indSet v s).input = s.input := rfl
@[simp] theorem indSet_output (v : Bool) (s : State) : (indSet v s).output = s.output := rfl
@[simp] theorem indSet_trace (v : Bool) (s : State) : (indSet v s).trace = s.trace ++ [.ind v] := rfl
@[simp] theorem indSet_todo (v : Bool) (s : State) : (indSet v s).todo = s.todo := rfl
@[simp] theorem indSet_outcome (v : Bool) (s : State) : (indSet v s).outcome = s.outcome := rfl
@[simp] theorem indSet_host (v : Bool) (s : State) : (indSet v s).host = s.host := rfl
@[simp] theorem indSet_caller (v : Bool) (s : State) : (indSet v s).caller = s.caller := rfl
@[simp] theorem indSet_faults (v : Bool) (s : State) : (indSet v s).faults = s.faults := rfl
@[simp] theorem indSet_answers (v : Bool) (s : State) : (indSet v s).answers = s.answers := rfl
@[simp] theorem indSet_draws (v : Bool) (s : State) : (indSet v s).draws = s.draws := rfl

/-! `beginCycle` -/

@[simp] theorem beginCycle_cfg (s : State) : (beginCycle s).cfg = s.cfg := rfl
@[simp] theorem beginCycle_st (s : State) : (beginCycle s).st = .probeByte := rfl
@[simp] theorem beginCycle_k (s : State) : (beginCycle s).k = s.k := rfl
@[simp] theorem beginCycle_c1 (s : State) : (beginCycle s).c1 = s.c1 := rfl
@[simp] theorem beginCycle_c2 (s : State) : (beginCycle s).c2 = s.c2 := rfl
@[simp] theorem beginCycle_c3 (s : State) : (beginCycle s).c3 = s.c3 := rfl
@[simp] theorem beginCycle_c4 (s : State) : (beginCycle s).c4 = s.c4 := rfl
@[simp] theorem beginCycle_f0 (s : State) : (beginCycle s).f0 = s.f0 := rfl
@[simp] theorem beginCycle_f1 (s : State) : (beginCycle s).f1 = s.f1 := rfl
@[simp] theorem beginCycle_f2 (s : State) : (beginCycle s).f2 = s.f2 := rfl
@[simp] theorem beginCycle_u0 (s : State) : (beginCycle s).u0 = s.u0 := rfl
@[simp] theorem beginCycle_ind (s : State) : (beginCycle s).ind = true := rfl
@[simp] theorem beginCycle_input (s : State) : (beginCycle s).input = s.input := rfl
@[simp] theorem beginCycle_output (s : State) : (beginCycle s).output = s.output := rfl
@[simp] theorem beginCycle_trace (s : State) : (beginCycle s).trace = s.trace ++ [.start] ++ [.ind true] := rfl
@[simp] theorem beginCycle_todo (s : State) : (beginCycle s).todo = [] := rfl
@[simp] theorem beginCycle_outcome (s : State) : (beginCycle s).outcome = none := rfl
@[simp] theorem beginCycle_host (s : State) : (beginCycle s).host = s.host := rfl
@[simp] theorem beginCycle_caller (s : State) : (beginCycle s).caller = s.caller := rfl
@[simp] theorem beginCycle_faults (s : State) : (beginCycle s).faults = s.faults := rfl
@[simp] theorem beginCycle_answers (s : State) : (beginCycle s).answers = s.answers := rfl
@[simp] theorem beginCycle_draws (s : State) : (beginCycle s).draws = s.draws := rfl

/-! `passChoice` -/

@[simp] theorem passChoice_cfg (s : State) : (passChoice s).cfg = s.cfg := rfl
@[simp] theorem passChoice_st (s : State) : (passChoice s).st = s.st := rfl
@[simp] theorem passChoice_k (s : State) : (passChoice s).k = s.k := rfl
@[simp] theorem passChoice_c1 (s : State) : (passChoice s).c1 = s.c1 := rfl
@[simp] theorem passChoice_c2 (s : State) : (passChoice s).c2 = s.c2 := rfl
@[simp] theorem passChoice_c3 (s : State) : (passChoice s).c3 = s.c3 := rfl
@[simp] theorem passChoice_c4 (s : State) : (passChoice s).c4 = s.c4 := rfl
@[simp] theorem passChoice_f0 (s : State) : (passChoice s).f0 = s.f0 := rfl
@[simp] theorem passChoice_f1 (s : State) : (passChoice s).f1 = s.f1 := rfl
@[simp] theorem passChoice_f2 (s : State) : (passChoice s).f2 = s.f2 := rfl
@[simp] theorem passChoice_u0 (s : State) : (passChoice s).u0 = s.u0 := rfl
@[simp] theorem passChoice_ind (s : State) : (passChoice s).ind = s.ind := rfl
@[simp] theorem passChoice_input (s : State) : (passChoice s).input = s.input := rfl
@[simp] theorem passChoice_output (s : State) : (passChoice s).output = s.output := rfl
@[simp] theorem passChoice_trace (s : State) : (passChoice s).trace = s.trace := rfl
@[simp] theorem passChoice_todo (s : State) : (passChoice s).todo = s.todo := rfl
@[simp] theorem passChoice_outcome (s : State) : (passChoice s).outcome = s.outcome := rfl
@[simp] theorem passChoice_host (s : State) : (passChoice s).host = s.host := rfl
@[simp] theorem passChoice_caller (s : State) : (passChoice s).caller = s.caller.tail := rfl
@[simp] theorem passChoice_faults (s : State) : (passChoice s).faults = s.faults := rfl
@[simp] theorem passChoice_answers (s : State) : (passChoice s).answers = s.answers := rfl
@[simp] theorem passChoice_draws (s : State) : (passChoice s).draws = s.draws := rfl

/-! The three moves of the caller -/

@[simp] theorem callerChoice_hostActs (s : State) : callerChoice (hostActs s) = callerChoice s := rfl

theorem callerActs_start {s : State} (h : callerChoice s = .start) : callerActs s = beginCycle (passChoice s) := by
  simp [callerActs, h]

theorem callerActs_wait {s : State} (h : callerChoice s = .wait) : callerActs s = passChoice s := by
  simp [callerActs, h]

theorem callerActs_stop {s : State} (h : callerChoice s = .stop) : callerActs s = s := by
  simp [callerActs, h]

/-- Everything the caller can do in `Idle`. -/
theorem callerActs_cases (s : State) :
    (callerChoice s = .start ∧ callerActs s = beginCycle (passChoice s))
      ∨ (callerChoice s = .wait ∧ callerActs s = passChoice s) ∨ (callerChoice s = .stop ∧ callerActs s = s) := by
  cases h : callerChoice s with
  | start => exact .inl ⟨rfl, callerActs_start h⟩
  | wait => exact .inr (.inl ⟨rfl, callerActs_wait h⟩)
  | stop => exact .inr (.inr ⟨rfl, callerActs_stop h⟩)

/-! `setF` -/

@[simp] theorem setF_F0_cfg (w : Pattern) (s : State) : (setF .F0 w s).cfg = s.cfg := rfl
@[simp] theorem setF_F0_st (w : Pattern) (s : State) : (setF .F0 w s).st = s.st := rfl
@[simp] theorem setF_F0_k (w : Pattern) (s : State) : (setF .F0 w s).k = s.k := rfl
@[simp] theorem setF_F0_c1 (w : Pattern) (s : State) : (setF .F0 w s).c1 = s.c1 := rfl
@[simp] theorem setF_F0_c2 (w : Pattern) (s : State) : (setF .F0 w s).c2 = s.c2 := rfl
@[simp] theorem setF_F0_c3 (w : Pattern) (s : State) : (setF .F0 w s).c3 = s.c3 := rfl
@[simp] theorem setF_F0_c4 (w : Pattern) (s : State) : (setF .F0 w s).c4 = s.c4 := rfl
@[simp] theorem setF_F0_f0 (w : Pattern) (s : State) : (setF .F0 w s).f0 = w := rfl
@[simp] theorem setF_F0_f1 (w : Pattern) (s : State) : (setF .F0 w s).f1 = s.f1 := rfl
@[simp] theorem setF_F0_f2 (w : Pattern) (s : State) : (setF .F0 w s).f2 = s.f2 := rfl
@[simp] theorem setF_F0_u0 (w : Pattern) (s : State) : (setF .F0 w s).u0 = s.u0 := rfl
@[simp] theorem setF_F0_ind (w : Pattern) (s : State) : (setF .F0 w s).ind = s.ind := rfl
@[simp] theorem setF_F0_input (w : Pattern) (s : State) : (setF .F0 w s).input = s.input := rfl
@[simp] theorem setF_F0_output (w : Pattern) (s : State) : (setF .F0 w s).output = s.output := rfl
@[simp] theorem setF_F0_trace (w : Pattern) (s : State) : (setF .F0 w s).trace = s.trace := rfl
@[simp] theorem setF_F0_todo (w : Pattern) (s : State) : (setF .F0 w s).todo = s.todo := rfl
@[simp] theorem setF_F0_outcome (w : Pattern) (s : State) : (setF .F0 w s).outcome = s.outcome := rfl
@[simp] theorem setF_F0_host (w : Pattern) (s : State) : (setF .F0 w s).host = s.host := rfl
@[simp] theorem setF_F0_caller (w : Pattern) (s : State) : (setF .F0 w s).caller = s.caller := rfl
@[simp] theorem setF_F0_faults (w : Pattern) (s : State) : (setF .F0 w s).faults = s.faults := rfl
@[simp] theorem setF_F0_answers (w : Pattern) (s : State) : (setF .F0 w s).answers = s.answers := rfl
@[simp] theorem setF_F0_draws (w : Pattern) (s : State) : (setF .F0 w s).draws = s.draws := rfl
@[simp] theorem setF_F1_cfg (w : Pattern) (s : State) : (setF .F1 w s).cfg = s.cfg := rfl
@[simp] theorem setF_F1_st (w : Pattern) (s : State) : (setF .F1 w s).st = s.st := rfl
@[simp] theorem setF_F1_k (w : Pattern) (s : State) : (setF .F1 w s).k = s.k := rfl
@[simp] theorem setF_F1_c1 (w : Pattern) (s : State) : (setF .F1 w s).c1 = s.c1 := rfl
@[simp] theorem setF_F1_c2 (w : Pattern) (s : State) : (setF .F1 w s).c2 = s.c2 := rfl
@[simp] theorem setF_F1_c3 (w : Pattern) (s : State) : (setF .F1 w s).c3 = s.c3 := rfl
@[simp] theorem setF_F1_c4 (w : Pattern) (s : State) : (setF .F1 w s).c4 = s.c4 := rfl
@[simp] theorem setF_F1_f0 (w : Pattern) (s : State) : (setF .F1 w s).f0 = s.f0 := rfl
@[simp] theorem setF_F1_f1 (w : Pattern) (s : State) : (setF .F1 w s).f1 = w := rfl
@[simp] theorem setF_F1_f2 (w : Pattern) (s : State) : (setF .F1 w s).f2 = s.f2 := rfl
@[simp] theorem setF_F1_u0 (w : Pattern) (s : State) : (setF .F1 w s).u0 = s.u0 := rfl
@[simp] theorem setF_F1_ind (w : Pattern) (s : State) : (setF .F1 w s).ind = s.ind := rfl
@[simp] theorem setF_F1_input (w : Pattern) (s : State) : (setF .F1 w s).input = s.input := rfl
@[simp] theorem setF_F1_output (w : Pattern) (s : State) : (setF .F1 w s).output = s.output := rfl
@[simp] theorem setF_F1_trace (w : Pattern) (s : State) : (setF .F1 w s).trace = s.trace := rfl
@[simp] theorem setF_F1_todo (w : Pattern) (s : State) : (setF .F1 w s).todo = s.todo := rfl
@[simp] theorem setF_F1_outcome (w : Pattern) (s : State) : (setF .F1 w s).outcome = s.outcome := rfl
@[simp] theorem setF_F1_host (w : Pattern) (s : State) : (setF .F1 w s).host = s.host := rfl
@[simp] theorem setF_F1_caller (w : Pattern) (s : State) : (setF .F1 w s).caller = s.caller := rfl
@[simp] theorem setF_F1_faults (w : Pattern) (s : State) : (setF .F1 w s).faults = s.faults := rfl
@[simp] theorem setF_F1_answers (w : Pattern) (s : State) : (setF .F1 w s).answers = s.answers := rfl
@[simp] theorem setF_F1_draws (w : Pattern) (s : State) : (setF .F1 w s).draws = s.draws := rfl
@[simp] theorem setF_F2_cfg (w : Pattern) (s : State) : (setF .F2 w s).cfg = s.cfg := rfl
@[simp] theorem setF_F2_st (w : Pattern) (s : State) : (setF .F2 w s).st = s.st := rfl
@[simp] theorem setF_F2_k (w : Pattern) (s : State) : (setF .F2 w s).k = s.k := rfl
@[simp] theorem setF_F2_c1 (w : Pattern) (s : State) : (setF .F2 w s).c1 = s.c1 := rfl
@[simp] theorem setF_F2_c2 (w : Pattern) (s : State) : (setF .F2 w s).c2 = s.c2 := rfl
@[simp] theorem setF_F2_c3 (w : Pattern) (s : State) : (setF .F2 w s).c3 = s.c3 := rfl
@[simp] theorem setF_F2_c4 (w : Pattern) (s : State) : (setF .F2 w s).c4 = s.c4 := rfl
@[simp] theorem setF_F2_f0 (w : Pattern) (s : State) : (setF .F2 w s).f0 = s.f0 := rfl
@[simp] theorem setF_F2_f1 (w : Pattern) (s : State) : (setF .F2 w s).f1 = s.f1 := rfl
@[simp] theorem setF_F2_f2 (w : Pattern) (s : State) : (setF .F2 w s).f2 = w := rfl
@[simp] theorem setF_F2_u0 (w : Pattern) (s : State) : (setF .F2 w s).u0 = s.u0 := rfl
@[simp] theorem setF_F2_ind (w : Pattern) (s : State) : (setF .F2 w s).ind = s.ind := rfl
@[simp] theorem setF_F2_input (w : Pattern) (s : State) : (setF .F2 w s).input = s.input := rfl
@[simp] theorem setF_F2_output (w : Pattern) (s : State) : (setF .F2 w s).output = s.output := rfl
@[simp] theorem setF_F2_trace (w : Pattern) (s : State) : (setF .F2 w s).trace = s.trace := rfl
@[simp] theorem setF_F2_todo (w : Pattern) (s : State) : (setF .F2 w s).todo = s.todo := rfl
@[simp] theorem setF_F2_outcome (w : Pattern) (s : State) : (setF .F2 w s).outcome = s.outcome := rfl
@[simp] theorem setF_F2_host (w : Pattern) (s : State) : (setF .F2 w s).host = s.host := rfl
@[simp] theorem setF_F2_caller (w : Pattern) (s : State) : (setF .F2 w s).caller = s.caller := rfl
@[simp] theorem setF_F2_faults (w : Pattern) (s : State) : (setF .F2 w s).faults = s.faults := rfl
@[simp] theorem setF_F2_answers (w : Pattern) (s : State) : (setF .F2 w s).answers = s.answers := rfl
@[simp] theorem setF_F2_draws (w : Pattern) (s : State) : (setF .F2 w s).draws = s.draws := rfl

/-! `useAnswer` -/

@[simp] theorem useAnswer_cfg (s : State) : (useAnswer s).cfg = s.cfg := by unfold useAnswer; split <;> rfl
@[simp] theorem useAnswer_st (s : State) : (useAnswer s).st = s.st := by unfold useAnswer; split <;> rfl
@[simp] theorem useAnswer_k (s : State) : (useAnswer s).k = s.k := by unfold useAnswer; split <;> rfl
@[simp] theorem useAnswer_c1 (s : State) : (useAnswer s).c1 = s.c1 := by unfold useAnswer; split <;> rfl
@[simp] theorem useAnswer_c2 (s : State) : (useAnswer s).c2 = s.c2 := by unfold useAnswer; split <;> rfl
@[simp] theorem useAnswer_c3 (s : State) : (useAnswer s).c3 = s.c3 := by unfold useAnswer; split <;> rfl
@[simp] theorem useAnswer_c4 (s : State) : (useAnswer s).c4 = s.c4 := by unfold useAnswer; split <;> rfl
@[simp] theorem useAnswer_f0 (s : State) : (useAnswer s).f0 = s.f0 := by unfold useAnswer; split <;> rfl
@[simp] theorem useAnswer_f1 (s : State) : (useAnswer s).f1 = s.f1 := by unfold useAnswer; split <;> rfl
@[simp] theorem useAnswer_f2 (s : State) : (useAnswer s).f2 = s.f2 := by unfold useAnswer; split <;> rfl
@[simp] theorem useAnswer_u0 (s : State) : (useAnswer s).u0 = s.u0 := by unfold useAnswer; split <;> rfl
@[simp] theorem useAnswer_ind (s : State) : (useAnswer s).ind = s.ind := by unfold useAnswer; split <;> rfl
@[simp] theorem useAnswer_input (s : State) : (useAnswer s).input = s.input := by unfold useAnswer; split <;> rfl
@[simp] theorem useAnswer_output (s : State) : (useAnswer s).output = s.output := by unfold useAnswer; split <;> rfl
@[simp] theorem useAnswer_trace (s : State) : (useAnswer s).trace = s.trace := by unfold useAnswer; split <;> rfl
@[simp] theorem useAnswer_todo (s : State) : (useAnswer s).todo = s.todo := by unfold useAnswer; split <;> rfl
@[simp] theorem useAnswer_outcome (s : State) : (useAnswer s).outcome = s.outcome := by unfold useAnswer; split <;> rfl
@[simp] theorem useAnswer_host (s : State) : (useAnswer s).host = s.host := by unfold useAnswer; split <;> rfl
@[simp] theorem useAnswer_caller (s : State) : (useAnswer s).caller = s.caller := by unfold useAnswer; split <;> rfl
@[simp] theorem useAnswer_faults (s : State) : (useAnswer s).faults = s.faults := by unfold useAnswer; split <;> rfl

/-! `returnOf`: only the payload registers -/

@[simp] theorem returnOf_cfg (p : Port) (w : Pattern) (s : State) : (returnOf p w s).cfg = s.cfg := by
  cases p <;> rfl
@[simp] theorem returnOf_st (p : Port) (w : Pattern) (s : State) : (returnOf p w s).st = s.st := by
  cases p <;> rfl
@[simp] theorem returnOf_k (p : Port) (w : Pattern) (s : State) : (returnOf p w s).k = s.k := by
  cases p <;> rfl
@[simp] theorem returnOf_c1 (p : Port) (w : Pattern) (s : State) : (returnOf p w s).c1 = s.c1 := by
  cases p <;> rfl
@[simp] theorem returnOf_c2 (p : Port) (w : Pattern) (s : State) : (returnOf p w s).c2 = s.c2 := by
  cases p <;> rfl
@[simp] theorem returnOf_c3 (p : Port) (w : Pattern) (s : State) : (returnOf p w s).c3 = s.c3 := by
  cases p <;> rfl
@[simp] theorem returnOf_c4 (p : Port) (w : Pattern) (s : State) : (returnOf p w s).c4 = s.c4 := by
  cases p <;> rfl
@[simp] theorem returnOf_u0 (p : Port) (w : Pattern) (s : State) : (returnOf p w s).u0 = s.u0 := by
  cases p <;> rfl
@[simp] theorem returnOf_ind (p : Port) (w : Pattern) (s : State) : (returnOf p w s).ind = s.ind := by
  cases p <;> rfl
@[simp] theorem returnOf_input (p : Port) (w : Pattern) (s : State) : (returnOf p w s).input = s.input := by
  cases p <;> rfl
@[simp] theorem returnOf_output (p : Port) (w : Pattern) (s : State) : (returnOf p w s).output = s.output := by
  cases p <;> rfl
@[simp] theorem returnOf_trace (p : Port) (w : Pattern) (s : State) : (returnOf p w s).trace = s.trace := by
  cases p <;> rfl
@[simp] theorem returnOf_todo (p : Port) (w : Pattern) (s : State) : (returnOf p w s).todo = s.todo := by
  cases p <;> rfl
@[simp] theorem returnOf_outcome (p : Port) (w : Pattern) (s : State) : (returnOf p w s).outcome = s.outcome := by
  cases p <;> rfl
@[simp] theorem returnOf_host (p : Port) (w : Pattern) (s : State) : (returnOf p w s).host = s.host := by
  cases p <;> rfl
@[simp] theorem returnOf_caller (p : Port) (w : Pattern) (s : State) : (returnOf p w s).caller = s.caller := by
  cases p <;> rfl
@[simp] theorem returnOf_faults (p : Port) (w : Pattern) (s : State) : (returnOf p w s).faults = s.faults := by
  cases p <;> rfl
@[simp] theorem returnOf_answers (p : Port) (w : Pattern) (s : State) : (returnOf p w s).answers = s.answers := by
  cases p <;> rfl
@[simp] theorem returnOf_draws (p : Port) (w : Pattern) (s : State) : (returnOf p w s).draws = s.draws := by
  cases p <;> rfl

/-! `setF` leaves every field but its register, whichever it is -/

@[simp] theorem setF_cfg (r : FReg) (w : Pattern) (s : State) : (setF r w s).cfg = s.cfg := by cases r <;> rfl
@[simp] theorem setF_st (r : FReg) (w : Pattern) (s : State) : (setF r w s).st = s.st := by cases r <;> rfl
@[simp] theorem setF_k (r : FReg) (w : Pattern) (s : State) : (setF r w s).k = s.k := by cases r <;> rfl
@[simp] theorem setF_c1 (r : FReg) (w : Pattern) (s : State) : (setF r w s).c1 = s.c1 := by cases r <;> rfl
@[simp] theorem setF_c2 (r : FReg) (w : Pattern) (s : State) : (setF r w s).c2 = s.c2 := by cases r <;> rfl
@[simp] theorem setF_c3 (r : FReg) (w : Pattern) (s : State) : (setF r w s).c3 = s.c3 := by cases r <;> rfl
@[simp] theorem setF_c4 (r : FReg) (w : Pattern) (s : State) : (setF r w s).c4 = s.c4 := by cases r <;> rfl
@[simp] theorem setF_u0 (r : FReg) (w : Pattern) (s : State) : (setF r w s).u0 = s.u0 := by cases r <;> rfl
@[simp] theorem setF_ind (r : FReg) (w : Pattern) (s : State) : (setF r w s).ind = s.ind := by cases r <;> rfl
@[simp] theorem setF_input (r : FReg) (w : Pattern) (s : State) : (setF r w s).input = s.input := by cases r <;> rfl
@[simp] theorem setF_output (r : FReg) (w : Pattern) (s : State) : (setF r w s).output = s.output := by cases r <;> rfl
@[simp] theorem setF_trace (r : FReg) (w : Pattern) (s : State) : (setF r w s).trace = s.trace := by cases r <;> rfl
@[simp] theorem setF_todo (r : FReg) (w : Pattern) (s : State) : (setF r w s).todo = s.todo := by cases r <;> rfl
@[simp] theorem setF_outcome (r : FReg) (w : Pattern) (s : State) : (setF r w s).outcome = s.outcome := by cases r <;> rfl
@[simp] theorem setF_host (r : FReg) (w : Pattern) (s : State) : (setF r w s).host = s.host := by cases r <;> rfl
@[simp] theorem setF_caller (r : FReg) (w : Pattern) (s : State) : (setF r w s).caller = s.caller := by cases r <;> rfl
@[simp] theorem setF_faults (r : FReg) (w : Pattern) (s : State) : (setF r w s).faults = s.faults := by cases r <;> rfl
@[simp] theorem setF_answers (r : FReg) (w : Pattern) (s : State) : (setF r w s).answers = s.answers := by cases r <;> rfl
@[simp] theorem setF_draws (r : FReg) (w : Pattern) (s : State) : (setF r w s).draws = s.draws := by cases r <;> rfl

/-! A write of a float register is what the next read gives, and the other registers are left alone. -/

@[simp] theorem getF_setF_same (r : FReg) (w : Pattern) (s : State) : getF r (setF r w s) = w := by cases r <;> rfl

theorem getF_setF_other (r q : FReg) (w : Pattern) (s : State) (h : r ≠ q) : getF r (setF q w s) = getF r s := by
  cases r <;> cases q <;> first | rfl | exact absurd rfl h

end Sys2Proof.Machine
end

