-- ==== Sys2Proof/Laws/Streams.lean ====
section
/-! SUPPORT. What the driver's choices, the reads and the writes can do, once each: an equation for every way they end. -/

namespace Sys2Proof.Machine

/-! ### The driver's choices -/

theorem driverChoice_of_proceeds {n : Nat} {s : State} (h : proceeds (n + 1) s = true) : driverChoice s = none := by
  unfold proceeds at h
  unfold driverChoice
  cases hf : s.faults with
  | nil => rfl
  | cons a as =>
    rw [hf] at h
    simp only [List.take_succ_cons, List.all_cons, Bool.and_eq_true, Option.isNone_iff_eq_none] at h
    simpa using h.1

theorem proceeds_tail {n : Nat} {s t : State} (ht : t.faults = s.faults.tail) (h : proceeds (n + 1) s = true) :
    proceeds n t = true := by
  unfold proceeds at *
  cases hf : s.faults with
  | nil => simp [ht, hf]
  | cons a as =>
    rw [hf] at h
    simp only [List.take_succ_cons, List.all_cons, Bool.and_eq_true] at h
    simpa [ht, hf] using h.2

/-- After `m` of `k` accesses the driver still lets the others through. -/
theorem proceeds_drop {m n k : Nat} {s t : State} (ht : t.faults = s.faults.drop m) (h : proceeds k s = true)
    (hk : m + n ≤ k) : proceeds n t = true := by
  unfold proceeds at *
  rw [ht, List.take_drop]
  rw [List.all_eq_true] at *
  exact fun x hx => h x (List.take_subset_take_left _ hk (List.drop_subset _ _ hx))

theorem proceeds_congr {n : Nat} {s t : State} (ht : t.faults = s.faults) : proceeds n t = proceeds n s := by
  unfold proceeds
  rw [ht]

theorem driverChoice_congr {s t : State} (ht : t.faults = s.faults) : driverChoice t = driverChoice s := by
  unfold driverChoice
  rw [ht]

/-! ### Reads -/

@[simp] theorem memRead_zero (s : State) : memRead 0 s = .got [] s := rfl

theorem memRead_available {n : Nat} {s : State} (hc : driverChoice s = none) (hn : n ≠ 0) (hl : n ≤ s.input.length) :
    memRead n s = .got (s.input.take n) (consume n (attempt s)) := by
  simp [memRead, hn, hc, hl]

theorem memRead_short {n : Nat} {s : State} (hc : driverChoice s = none) (hl : s.input.length < n) :
    memRead n s = .held (attempt s) := by
  have hn : n ≠ 0 := by omega
  simp [memRead, hn, hc, Nat.not_le.mpr hl]

theorem memRead_fails {n m : Nat} {s : State} (hc : driverChoice s = some m) (hn : n ≠ 0) :
    memRead n s = .failed (takeStreamFault .inp (consume (min m (n - 1)) (attempt s))) := by
  simp [memRead, hn, hc]

/-- The four ways a read of at least one byte ends. -/
theorem memRead_cases (n : Nat) (s : State) :
    (n = 0 ∧ memRead n s = .got [] s)
      ∨ (n ≠ 0 ∧ driverChoice s = none ∧ n ≤ s.input.length ∧ memRead n s = .got (s.input.take n) (consume n (attempt s)))
      ∨ (driverChoice s = none ∧ s.input.length < n ∧ memRead n s = .held (attempt s))
      ∨ (n ≠ 0 ∧ ∃ m, driverChoice s = some m
          ∧ memRead n s = .failed (takeStreamFault .inp (consume (min m (n - 1)) (attempt s)))) := by
  by_cases hn : n = 0
  · left; subst hn; exact ⟨rfl, rfl⟩
  · right
    cases hc : driverChoice s with
    | some m => right; right; exact ⟨hn, m, rfl, memRead_fails hc hn⟩
    | none =>
      by_cases hl : n ≤ s.input.length
      · left; exact ⟨hn, rfl, hl, memRead_available hc hn hl⟩
      · right; left; exact ⟨rfl, by omega, memRead_short hc (by omega)⟩

/-! ### Writes -/

theorem outRoom_le (n : Nat) (s : State) : outRoom n s ≤ n := by
  unfold outRoom
  split
  · exact Nat.le_refl n
  · exact Nat.min_le_left _ _

theorem outRoom_of_roomFor {n : Nat} {s : State} (h : roomFor n s = true) : outRoom n s = n := by
  unfold roomFor at h
  unfold outRoom
  split
  · rfl
  · next c hc =>
    rw [hc] at h
    simp only [decide_eq_true_eq] at h
    omega

theorem roomFor_mono {m n : Nat} {s : State} (hmn : m ≤ n) (h : roomFor n s = true) : roomFor m s = true := by
  unfold roomFor at *
  split at h
  · rfl
  · simp only [decide_eq_true_eq] at *
    omega

theorem roomFor_after {n : Nat} {s t : State} (b : List Byte) (hcfg : t.cfg = s.cfg) (hout : t.output = s.output ++ b)
    (h : roomFor (b.length + n) s = true) : roomFor n t = true := by
  unfold roomFor at *
  rw [hcfg]
  split at h
  · rfl
  · next c hc =>
    simp only [decide_eq_true_eq, hout, List.length_append] at *
    omega

@[simp] theorem memWrite_nil (s : State) : memWrite [] s = .wrote s := rfl

theorem memWrite_fits {b : List Byte} {s : State} (hc : driverChoice s = none) (hb : b ≠ [])
    (hr : outRoom b.length s = b.length) : memWrite b s = .wrote (produce b (attempt s)) := by
  simp [memWrite, hb, hc, hr]

theorem memWrite_holds {b : List Byte} {s : State} (hc : driverChoice s = none) (hr : outRoom b.length s < b.length) :
    memWrite b s =
      .held (b.drop (outRoom b.length s)) (produce (b.take (outRoom b.length s)) (attempt s)) := by
  have hb : b ≠ [] := by rintro rfl; simp at hr
  simp [memWrite, hb, hc, Nat.not_le.mpr hr]

theorem memWrite_fails {b : List Byte} {s : State} {m : Nat} (hc : driverChoice s = some m) (hb : b ≠ []) :
    memWrite b s = .failed (takeStreamFault .out
      (produce (b.take (min (min m (b.length - 1)) (outRoom b.length s))) (attempt s))) := by
  simp [memWrite, hb, hc]

/-- The four ways a write ends. -/
theorem memWrite_cases (b : List Byte) (s : State) :
    (b = [] ∧ memWrite b s = .wrote s)
      ∨ (driverChoice s = none ∧ b ≠ [] ∧ outRoom b.length s = b.length ∧ memWrite b s = .wrote (produce b (attempt s)))
      ∨ (driverChoice s = none ∧ outRoom b.length s < b.length ∧ memWrite b s =
          .held (b.drop (outRoom b.length s)) (produce (b.take (outRoom b.length s)) (attempt s)))
      ∨ (b ≠ [] ∧ ∃ m, driverChoice s = some m ∧ memWrite b s = .failed (takeStreamFault .out
          (produce (b.take (min (min m (b.length - 1)) (outRoom b.length s))) (attempt s)))) := by
  by_cases hb : b = []
  · left; subst hb; exact ⟨rfl, rfl⟩
  · right
    cases hc : driverChoice s with
    | some m => right; right; exact ⟨hb, m, rfl, memWrite_fails hc hb⟩
    | none =>
      have hle := outRoom_le b.length s
      by_cases hr : outRoom b.length s = b.length
      · left; exact ⟨rfl, hb, hr, memWrite_fits hc hb hr⟩
      · right; left; exact ⟨rfl, by omega, memWrite_holds hc (by omega)⟩

/-! ### The codec's primitives when nothing is in the way -/

theorem receiveFloat_done {s : State} {r : FReg} {b0 b1 b2 b3 : Byte} {rest : List Byte} (hc : driverChoice s = none)
    (hi : s.input = b0 :: b1 :: b2 :: b3 :: rest) :
    receiveFloat r s = .done (setF r (valueOf32 s.cfg.byteOrder b0 b1 b2 b3) (consume 4 (attempt s))) := by
  unfold receiveFloat
  rw [memRead_available hc (by decide) (by simp [hi])]
  simp [hi, byteAt]

theorem receiveUint16_done {s : State} {b0 b1 : Byte} {rest : List Byte} (hc : driverChoice s = none)
    (hi : s.input = b0 :: b1 :: rest) :
    receiveUint16 s = .done (setU0 (valueOf16 s.cfg.byteOrder b0 b1) (consume 2 (attempt s))) := by
  unfold receiveUint16
  rw [memRead_available hc (by decide) (by simp [hi])]
  simp [hi, byteAt]

theorem sendBytes_done {s : State} {b : List Byte} (hc : driverChoice s = none) (hb : b ≠ [])
    (hr : roomFor b.length s = true) : sendBytes b b.length s = .done (produce b (attempt s)) := by
  unfold sendBytes
  rw [List.take_length, memWrite_fits hc hb (outRoom_of_roomFor hr)]

@[simp] theorem bytesOf32_length (o : ByteOrder) (v : Pattern) : (bytesOf32 o v).length = 4 := by cases o <;> rfl

@[simp] theorem bytesOf16_length (o : ByteOrder) (v : Half) : (bytesOf16 o v).length = 2 := by cases o <;> rfl

theorem sendFloat_eq (w : Pattern) (s : State) :
    sendFloat w s = sendBytes (bytesOf32 s.cfg.byteOrder w) (bytesOf32 s.cfg.byteOrder w).length s := by
  rw [bytesOf32_length]; rfl

theorem sendFloat_done {s : State} {w : Pattern} (hc : driverChoice s = none) (hr : roomFor 4 s = true) :
    sendFloat w s = .done (produce (bytesOf32 s.cfg.byteOrder w) (attempt s)) := by
  rw [sendFloat_eq]
  refine sendBytes_done hc (fun h => ?_) (by simpa using hr)
  have := bytesOf32_length s.cfg.byteOrder w
  rw [h] at this
  simp at this

end Sys2Proof.Machine
end

