-- ==== Sys2Proof/Laws/Progress.lean ====
section
/-! SUPPORT. What a statement of an action, and a list of them, can do: one lemma for every way they end (`runOp_spec`,
`runOps_spec`), which the claims about instructions and steps cite instead of unfolding them. -/

namespace Sys2Proof.Machine

/-! ### Bytes of a trace -/

@[simp] theorem inBytes_append (a b : List Event) : inBytes (a ++ b) = inBytes a ++ inBytes b := by
  induction a with
  | nil => rfl
  | cons e es ih => cases e <;> simp [inBytes, ih]

@[simp] theorem outBytes_append (a b : List Event) : outBytes (a ++ b) = outBytes a ++ outBytes b := by
  induction a with
  | nil => rfl
  | cons e es ih => cases e <;> simp [outBytes, ih]

@[simp] theorem inBytes_map_inp (l : List Byte) : inBytes (l.map Event.inp) = l := by
  induction l with
  | nil => rfl
  | cons b l ih => simp [inBytes, ih]

@[simp] theorem outBytes_map_inp (l : List Byte) : outBytes (l.map Event.inp) = [] := by
  induction l with
  | nil => rfl
  | cons b l ih => simp [outBytes, ih]

@[simp] theorem inBytes_map_out (l : List Byte) : inBytes (l.map Event.out) = [] := by
  induction l with
  | nil => rfl
  | cons b l ih => simp [inBytes, ih]

@[simp] theorem outBytes_map_out (l : List Byte) : outBytes (l.map Event.out) = l := by
  induction l with
  | nil => rfl
  | cons b l ih => simp [outBytes, ih]

theorem inBytes_none {ev : List Event} (h : ∀ b, Event.inp b ∉ ev) : inBytes ev = [] := by
  induction ev with
  | nil => rfl
  | cons e es ih =>
    cases e with
    | inp b => exact absurd (by simp) (h b)
    | _ => exact ih (fun b hb => h b (by simp [hb]))

theorem outBytes_none {ev : List Event} (h : ∀ b, Event.out b ∉ ev) : outBytes ev = [] := by
  induction ev with
  | nil => rfl
  | cons e es ih =>
    cases e with
    | out b => exact absurd (by simp) (h b)
    | _ => exact ih (fun b hb => h b (by simp [hb]))

theorem cyclesBegun_append (a b : List Event) : cyclesBegun (a ++ b) = cyclesBegun a + cyclesBegun b := by
  induction a with
  | nil => simp [cyclesBegun]
  | cons e es ih => cases e <;> simp [cyclesBegun, ih, Nat.add_right_comm]

theorem cyclesEnded_append (a b : List Event) : cyclesEnded (a ++ b) = cyclesEnded a + cyclesEnded b := by
  induction a with
  | nil => simp [cyclesEnded]
  | cons e es ih => cases e <;> simp [cyclesEnded, ih] <;> omega

theorem lastRequest_append (a b : List Event) : lastRequest (a ++ b) = (lastRequest b).or (lastRequest a) := by
  induction a with
  | nil => simp [lastRequest]
  | cons e es ih =>
    cases e <;> simp [lastRequest, ih]

/-! ### Progress: `t` is `s` after the events `ev` -/

/-- `OUT` is within its capacity (20_memory.md rule R68). -/
def withinCapacity (s : State) : Prop := ∀ c, s.cfg.outCapacity = some c → s.output.length ≤ c

/-- `t` comes from `s` by the events `ev`: the trace has grown by them, the streams have moved by exactly their bytes, `OUT` is
still within its capacity, and neither the parameters, nor the header registers, nor the host's and the caller's plans are touched. -/
structure Progress (ev : List Event) (s t : State) : Prop where
  cfg      : t.cfg = s.cfg
  k        : t.k = s.k
  c1       : t.c1 = s.c1
  c2       : t.c2 = s.c2
  c3       : t.c3 = s.c3
  c4       : t.c4 = s.c4
  host     : t.host = s.host
  caller   : t.caller = s.caller
  trace    : t.trace = s.trace ++ ev
  input    : s.input = inBytes ev ++ t.input
  output   : t.output = s.output ++ outBytes ev
  capacity : withinCapacity s → withinCapacity t

theorem Progress.refl (s : State) : Progress [] s s where
  cfg := rfl
  k := rfl
  c1 := rfl
  c2 := rfl
  c3 := rfl
  c4 := rfl
  host := rfl
  caller := rfl
  trace := by simp
  input := by simp [inBytes]
  output := by simp [outBytes]
  capacity := id

theorem Progress.trans {ev ev' : List Event} {s t u : State} (h : Progress ev s t) (h' : Progress ev' t u) :
    Progress (ev ++ ev') s u where
  cfg := h'.cfg.trans h.cfg
  k := h'.k.trans h.k
  c1 := h'.c1.trans h.c1
  c2 := h'.c2.trans h.c2
  c3 := h'.c3.trans h.c3
  c4 := h'.c4.trans h.c4
  host := h'.host.trans h.host
  caller := h'.caller.trans h.caller
  trace := by rw [h'.trace, h.trace, List.append_assoc]
  input := by rw [h.input, h'.input, inBytes_append, List.append_assoc]
  output := by rw [h'.output, h.output, outBytes_append, List.append_assoc]
  capacity := fun hs => h'.capacity (h.capacity hs)

/-- An update of fields that `Progress` does not speak of. -/
theorem Progress.of_eqs {s t : State} (hcfg : t.cfg = s.cfg) (hk : t.k = s.k) (h1 : t.c1 = s.c1) (h2 : t.c2 = s.c2)
    (h3 : t.c3 = s.c3) (h4 : t.c4 = s.c4) (hh : t.host = s.host) (hc : t.caller = s.caller) (ht : t.trace = s.trace) (hi : t.input = s.input)
    (ho : t.output = s.output) : Progress [] s t where
  cfg := hcfg
  k := hk
  c1 := h1
  c2 := h2
  c3 := h3
  c4 := h4
  host := hh
  caller := hc
  trace := by simp [ht]
  input := by simp [inBytes, hi]
  output := by simp [outBytes, ho]
  capacity := fun hs c hc => by rw [ho]; exact hs c (hcfg ▸ hc)

theorem progress_attempt (s : State) : Progress [] s (attempt s) :=
  .of_eqs rfl rfl rfl rfl rfl rfl rfl rfl rfl rfl rfl

theorem progress_setF (r : FReg) (w : Pattern) (s : State) : Progress [] s (setF r w s) := by
  apply Progress.of_eqs <;> simp

theorem progress_returnOf (p : Port) (w : Pattern) (s : State) : Progress [] s (returnOf p w s) := by
  apply Progress.of_eqs <;> simp

theorem progress_useAnswer (s : State) : Progress [] s (useAnswer s) := by
  apply Progress.of_eqs <;> simp

theorem progress_consume (n : Nat) (s : State) : Progress ((s.input.take n).map Event.inp) s (consume n s) where
  cfg := rfl
  k := rfl
  c1 := rfl
  c2 := rfl
  c3 := rfl
  c4 := rfl
  host := rfl
  caller := rfl
  trace := rfl
  input := by rw [inBytes_map_inp, consume_input, List.take_append_drop]
  output := by rw [outBytes_map_inp, consume_output, List.append_nil]
  capacity := id

theorem progress_produce (b : List Byte) (s : State)
    (hc : withinCapacity s → withinCapacity (produce b s)) : Progress (b.map Event.out) s (produce b s) where
  cfg := rfl
  k := rfl
  c1 := rfl
  c2 := rfl
  c3 := rfl
  c4 := rfl
  host := rfl
  caller := rfl
  trace := rfl
  input := by simp
  output := by simp
  capacity := hc

/-- An event that is no stream byte. -/
theorem progress_event (e : Event) (he : ∀ b, e ≠ .inp b ∧ e ≠ .out b) {s t : State} (hcfg : t.cfg = s.cfg) (hk : t.k = s.k)
    (h1 : t.c1 = s.c1) (h2 : t.c2 = s.c2) (h3 : t.c3 = s.c3) (h4 : t.c4 = s.c4) (hh : t.host = s.host) (hc : t.caller = s.caller)
    (ht : t.trace = s.trace ++ [e]) (hi : t.input = s.input) (ho : t.output = s.output) : Progress [e] s t where
  cfg := hcfg
  k := hk
  c1 := h1
  c2 := h2
  c3 := h3
  c4 := h4
  host := hh
  caller := hc
  trace := ht
  input := by
    cases e with
    | inp b => exact absurd rfl (he b).1
    | _ => simp [inBytes, hi]
  output := by
    cases e with
    | out b => exact absurd rfl (he b).2
    | _ => simp [outBytes, ho]
  capacity := fun hs c hc => by rw [ho]; exact hs c (hcfg ▸ hc)

/-! ### What a failure leaves -/

/-- The state a `StreamFault` leaves (60_exceptions.md rule R193). -/
structure Abandoned (s t : State) : Prop where
  st      : t.st = .idle
  todo    : t.todo = []
  outcome : t.outcome = none
  ind     : t.ind = s.ind

/-- The state of the cycle an operation leaves alone. -/
structure SameControl (s t : State) : Prop where
  st      : t.st = s.st
  todo    : t.todo = s.todo
  outcome : t.outcome = s.outcome
  ind     : t.ind = s.ind

theorem SameControl.refl (s : State) : SameControl s s := ⟨rfl, rfl, rfl, rfl⟩

theorem SameControl.trans {s t u : State} (h : SameControl s t) (h' : SameControl t u) : SameControl s u :=
  ⟨h'.st.trans h.st, h'.todo.trans h.todo, h'.outcome.trans h.outcome, h'.ind.trans h.ind⟩

/-- The payload registers are untouched. -/
structure SamePayload (s t : State) : Prop where
  f0 : t.f0 = s.f0
  f1 : t.f1 = s.f1
  f2 : t.f2 = s.f2
  u0 : t.u0 = s.u0

theorem SamePayload.refl (s : State) : SamePayload s s := ⟨rfl, rfl, rfl, rfl⟩

theorem SamePayload.trans {s t u : State} (h : SamePayload s t) (h' : SamePayload t u) : SamePayload s u :=
  ⟨h'.f0.trans h.f0, h'.f1.trans h.f1, h'.f2.trans h.f2, h'.u0.trans h.u0⟩

/-! ### Reads and writes as progress -/

/-- An access of `IN` makes only `IN` events and leaves the rest of the state alone. -/
theorem memRead_spec (n : Nat) (s : State) :
    match memRead n s with
    | .got b t  => ∃ ev, Progress ev s t ∧ ev = b.map Event.inp ∧ b.length = n ∧ SameControl s t ∧ SamePayload s t
    | .held t   => Progress [] s t ∧ SameControl s t ∧ SamePayload s t
    | .failed t => ∃ b : List Byte, Progress (b.map Event.inp ++ [.fault .inp]) s t ∧ Abandoned s t ∧ SamePayload s t := by
  rcases memRead_cases n s with ⟨rfl, h⟩ | ⟨hn, hc, hl, h⟩ | ⟨hc, hl, h⟩ | ⟨hn, m, hc, h⟩ <;> rw [h]
  · exact ⟨[], .refl s, rfl, rfl, .refl s, .refl s⟩
  · refine ⟨_, (progress_attempt s).trans (progress_consume n (attempt s)), rfl, ?_, ⟨rfl, rfl, rfl, rfl⟩, ⟨rfl, rfl, rfl, rfl⟩⟩
    simp [hl]
  · exact ⟨progress_attempt s, ⟨rfl, rfl, rfl, rfl⟩, ⟨rfl, rfl, rfl, rfl⟩⟩
  · refine ⟨s.input.take (min m (n - 1)), ?_, ⟨rfl, rfl, rfl, rfl⟩, ⟨rfl, rfl, rfl, rfl⟩⟩
    refine ((progress_attempt s).trans (progress_consume _ (attempt s))).trans ?_
    exact progress_event _ (by simp) rfl rfl rfl rfl rfl rfl rfl rfl rfl rfl rfl

theorem withinCapacity_produce (b : List Byte) (s : State) (j : Nat) (hj : j ≤ outRoom b.length s)
    (hs : withinCapacity s) : withinCapacity (produce (b.take j) s) := by
  intro c hc
  have hc' : s.cfg.outCapacity = some c := hc
  have := hs c hc'
  unfold outRoom at hj
  simp only [hc'] at hj
  simp only [produce_output, List.length_append, List.length_take]
  omega

/-- A write makes only `OUT` events and leaves the rest of the state alone. -/
theorem memWrite_spec (b : List Byte) (s : State) :
    match memWrite b s with
    | .wrote t     => Progress (b.map Event.out) s t ∧ SameControl s t ∧ SamePayload s t
    | .held rest t => ∃ done, b = done ++ rest ∧ rest ≠ [] ∧ Progress (done.map Event.out) s t ∧ SameControl s t ∧ SamePayload s t
    | .failed t    => ∃ done : List Byte, Progress (done.map Event.out ++ [.fault .out]) s t ∧ Abandoned s t ∧ SamePayload s t := by
  have room : ∀ n, outRoom n (attempt s) = outRoom n s := fun _ => rfl
  rcases memWrite_cases b s with ⟨rfl, h⟩ | ⟨hc, hb, hr, h⟩ | ⟨hc, hr, h⟩ | ⟨hb, m, hc, h⟩ <;> rw [h]
  · exact ⟨.refl s, .refl s, .refl s⟩
  · refine ⟨(progress_attempt s).trans (progress_produce b (attempt s) fun hs => ?_), ⟨rfl, rfl, rfl, rfl⟩, ⟨rfl, rfl, rfl, rfl⟩⟩
    have := withinCapacity_produce b (attempt s) b.length (by rw [room, hr]) hs
    rwa [List.take_length] at this
  · refine ⟨_, (List.take_append_drop (outRoom b.length s) b).symm, ?_, ?_, ⟨rfl, rfl, rfl, rfl⟩, ⟨rfl, rfl, rfl, rfl⟩⟩
    · intro h0
      have := congrArg List.length h0
      simp at this
      omega
    · exact (progress_attempt s).trans (progress_produce _ (attempt s) fun hs =>
        withinCapacity_produce b (attempt s) _ (by rw [room]) hs)
  · refine ⟨_, ((progress_attempt s).trans (progress_produce _ (attempt s) fun hs =>
        withinCapacity_produce b (attempt s) _ (by rw [room]; exact Nat.min_le_right _ _) hs)).trans
        (progress_event _ (by simp) rfl rfl rfl rfl rfl rfl rfl rfl rfl rfl rfl), ⟨rfl, rfl, rfl, rfl⟩, ⟨rfl, rfl, rfl, rfl⟩⟩

/-! ### Statements -/

/-- The call events a port can make. -/
def portMakes (p : Port) : Call → Bool
  | .setPose _ _ _ => p == .setPose
  | .getX _ => p == .getX
  | .getY _ => p == .getY
  | .getHeading _ => p == .getHeading
  | .receiveSpeedInstruction => p == .receiveSpeedInstruction
  | .stop | .stopOut => p == .stop
  | .capture => p == .capture
  | .scan => p == .scan
  | .toneStart => p == .toneStart
  | .tonePlay _ => p == .tonePlay
  | .toneStop => p == .toneStop
  | .wait _ => false

/-- The events a statement can make, apart from a failure. -/
def opMakes (v : StopVariant) : Op → Event → Bool
  | .indSet on, .ind on' => on == on'
  | .receiveFloat _, .inp _ => true
  | .receiveUint16, .inp _ => true
  | .sendFloat _, .out _ => true
  | .sendBytes _, .out _ => true
  | .call p, .call c => portMakes p c
  | .call p, .inp _ => lendsIn p
  | .call p, .out _ => lendsOut v p
  | .during p _ _, .inp _ => lendsIn p
  | .during p _ _, .out _ => lendsOut v p
  | .wait, .call (.wait _) => true
  | _, _ => false

/-- A statement that can write `F0 F1 F2`. -/
def writesF : Op → Bool
  | .receiveFloat _ => true
  | .call .getX | .call .getY | .call .getHeading => true
  | .during .getX _ _ | .during .getY _ _ | .during .getHeading _ _ => true
  | _ => false

/-- A statement that can write `U0`. -/
def writesU0 : Op → Bool
  | .receiveUint16 => true
  | _ => false

/-- What every end of a statement `op` has in common: its events and the payload registers. -/
structure Did (v : StopVariant) (op : Op) (ev : List Event) (s t : State) : Prop where
  events : ∀ e ∈ ev, opMakes v op e = true
  keepsF : writesF op = false → t.f0 = s.f0 ∧ t.f1 = s.f1 ∧ t.f2 = s.f2
  keepsU : writesU0 op = false → t.u0 = s.u0

theorem Did.of_same {v : StopVariant} {op : Op} {ev : List Event} {s t : State} (h : SamePayload s t)
    (he : ∀ e ∈ ev, opMakes v op e = true) : Did v op ev s t :=
  ⟨he, fun _ => ⟨h.f0, h.f1, h.f2⟩, fun _ => h.u0⟩

/-- The three ways a statement ends. -/
def OpSpec (v : StopVariant) (op : Op) (s : State) (r : OpResult) : Prop :=
  match r with
  | .done t      => ∃ ev, Progress ev s t ∧ Did v op ev s t ∧ (isBody op = true → SameControl s t)
  | .held left t => ∃ ev, Progress ev s t ∧ Did v op ev s t ∧ SameControl s t ∧ isBody op = true ∧ isBody left = true
  | .failed t    => ∃ ev d, Progress (ev ++ [.fault d]) s t ∧ Did v op ev s t ∧ Abandoned s t ∧ isBody op = true

theorem sendBytes_spec (v : StopVariant) (op : Op) (b : List Byte) (n : Nat) (s : State) (hb : isBody op = true)
    (ho : ∀ x, opMakes v op (.out x) = true) : OpSpec v op s (sendBytes b n s) := by
  have hm : ∀ l : List Byte, ∀ e ∈ l.map Event.out, opMakes v op e = true := by
    intro l e he
    obtain ⟨x, -, rfl⟩ := List.mem_map.mp he
    exact ho x
  have h := memWrite_spec (b.take n) s
  unfold sendBytes
  cases hw : memWrite (b.take n) s with
  | wrote t => rw [hw] at h; exact ⟨_, h.1, .of_same h.2.2 (hm _), fun _ => h.2.1⟩
  | held rest t =>
    rw [hw] at h
    obtain ⟨d, -, -, hp, hsc, hsp⟩ := h
    exact ⟨_, hp, .of_same hsp (hm _), hsc, hb, rfl⟩
  | failed t =>
    rw [hw] at h
    obtain ⟨d, hp, ha, hsp⟩ := h
    exact ⟨_, _, hp, .of_same hsp (hm _), ha, hb⟩

theorem duringCall_spec (p : Port) (w : Pattern) (acts acts' : List Act) (s : State) :
    OpSpec s.cfg.stopVariant (.during p acts' w) s (duringCall p w acts s) := by
  have hret : ∀ t : State, SameControl s t → ∀ ev, Progress ev s t → SamePayload s t →
      (∀ e ∈ ev, opMakes s.cfg.stopVariant (.during p acts' w) e = true) →
      OpSpec s.cfg.stopVariant (.during p acts' w) s (.done (returnOf p w t)) := by
    intro t hsc ev hp hsp he
    refine ⟨ev, ?_, ⟨he, ?_, ?_⟩, fun _ => ?_⟩
    · have := hp.trans (progress_returnOf p w t)
      rwa [List.append_nil] at this
    · intro hw
      rw [← hsp.f0, ← hsp.f1, ← hsp.f2]
      cases p <;> simp_all [writesF, returnOf]
    · intro _
      rw [← hsp.u0]
      simp
    · exact hsc.trans ⟨by simp, by simp, by simp, by simp⟩
  -- every state reached on the way is a progress of `s` by lent accesses
  suffices H : ∀ (acts : List Act) (t : State) (ev : List Event), Progress ev s t → SameControl s t → SamePayload s t →
      (∀ e ∈ ev, opMakes s.cfg.stopVariant (.during p acts' w) e = true) →
      OpSpec s.cfg.stopVariant (.during p acts' w) s (duringCall p w acts t) from
    H acts s [] (.refl s) (.refl s) (.refl s) (by simp)
  intro acts
  induction acts with
  | nil =>
    intro t ev hp hsc hsp he
    exact hret t hsc ev hp hsp he
  | cons a acts ih =>
    intro t ev hp hsc hsp he
    cases a with
    | take n =>
      unfold duringCall
      split
      · next hl =>
        have hm : ∀ l : List Byte, ∀ e ∈ l.map Event.inp, opMakes s.cfg.stopVariant (.during p acts' w) e = true := by
          intro l e he
          obtain ⟨x, -, rfl⟩ := List.mem_map.mp he
          exact hl
        have h := memRead_spec n t
        cases hr : memRead n t with
        | got b u =>
          rw [hr] at h
          obtain ⟨ev', hp', rfl, -, hsc', hsp'⟩ := h
          refine ih u _ (hp.trans hp') (hsc.trans hsc') (hsp.trans hsp') ?_
          intro e hmem
          rcases List.mem_append.mp hmem with hmem | hmem
          · exact he e hmem
          · exact hm _ e hmem
        | held u =>
          rw [hr] at h
          obtain ⟨hp', hsc', hsp'⟩ := h
          refine ⟨ev, ?_, .of_same (hsp.trans hsp') he, hsc.trans hsc', rfl, rfl⟩
          have := hp.trans hp'
          rwa [List.append_nil] at this
        | failed u =>
          rw [hr] at h
          obtain ⟨b, hp', ha, hsp'⟩ := h
          refine ⟨ev ++ b.map Event.inp, .inp, ?_, .of_same (hsp.trans hsp') ?_, ⟨ha.st, ha.todo, ha.outcome, ?_⟩, rfl⟩
          · rw [List.append_assoc]; exact hp.trans hp'
          · intro e hmem
            rcases List.mem_append.mp hmem with hmem | hmem
            · exact he e hmem
            · exact hm _ e hmem
          · rw [ha.ind, hsc.ind]
      · exact ih t ev hp hsc hsp he
    | give b =>
      unfold duringCall
      split
      · next hl =>
        have hm : ∀ l : List Byte, ∀ e ∈ l.map Event.out, opMakes s.cfg.stopVariant (.during p acts' w) e = true := by
          intro l e he
          obtain ⟨x, -, rfl⟩ := List.mem_map.mp he
          rw [hp.cfg] at hl
          exact hl
        have h := memWrite_spec b t
        cases hr : memWrite b t with
        | wrote u =>
          rw [hr] at h
          obtain ⟨hp', hsc', hsp'⟩ := h
          refine ih u _ (hp.trans hp') (hsc.trans hsc') (hsp.trans hsp') ?_
          intro e hmem
          rcases List.mem_append.mp hmem with hmem | hmem
          · exact he e hmem
          · exact hm _ e hmem
        | held rest u =>
          rw [hr] at h
          obtain ⟨d, -, -, hp', hsc', hsp'⟩ := h
          refine ⟨ev ++ d.map Event.out, hp.trans hp', .of_same (hsp.trans hsp') ?_, hsc.trans hsc', rfl, rfl⟩
          intro e hmem
          rcases List.mem_append.mp hmem with hmem | hmem
          · exact he e hmem
          · exact hm _ e hmem
        | failed u =>
          rw [hr] at h
          obtain ⟨d, hp', ha, hsp'⟩ := h
          refine ⟨ev ++ d.map Event.out, .out, ?_, .of_same (hsp.trans hsp') ?_, ⟨ha.st, ha.todo, ha.outcome, ?_⟩, rfl⟩
          · rw [List.append_assoc]; exact hp.trans hp'
          · intro e hmem
            rcases List.mem_append.mp hmem with hmem | hmem
            · exact he e hmem
            · exact hm _ e hmem
          · rw [ha.ind, hsc.ind]
      · exact ih t ev hp hsc hsp he
    | linger => exact ⟨ev, hp, .of_same hsp he, hsc, rfl, rfl⟩
    | hang => exact ⟨ev, hp, .of_same hsp he, hsc, rfl, rfl⟩

theorem portMakes_callOf (p : Port) (w : Pattern) (s : State) : portMakes p (callOf p w s) = true := by
  cases p
  case stop => unfold callOf; cases s.cfg.stopVariant <;> rfl
  all_goals rfl

theorem callPort_spec (p : Port) (s : State) : OpSpec s.cfg.stopVariant (.call p) s (callPort p s) := by
  unfold callPort
  have hw : ∀ a w, writesF (.during p a w) = writesF (.call p) := by intros; cases p <;> rfl
  have hev : Progress [.call (callOf p (nextAnswer s).result s)] s
      (emit (.call (callOf p (nextAnswer s).result s)) (useAnswer s)) := by
    apply progress_event <;> simp
  have hfirst := portMakes_callOf p (nextAnswer s).result s
  have hmake : ∀ a w ev, (∀ e ∈ ev, opMakes s.cfg.stopVariant (.during p a w) e = true) →
      ∀ e ∈ Event.call (callOf p (nextAnswer s).result s) :: ev, opMakes s.cfg.stopVariant (.call p) e = true := by
    intro a w ev h e he
    rcases List.mem_cons.mp he with rfl | he
    · exact hfirst
    · have := h e he
      cases e <;> simp_all [opMakes]
  have h := duringCall_spec p (nextAnswer s).result (nextAnswer s).acts []
    (emit (.call (callOf p (nextAnswer s).result s)) (useAnswer s))
  simp only [emit_cfg, useAnswer_cfg] at h
  unfold OpSpec at h ⊢
  split at h
  · next t heq =>
    obtain ⟨ev, hp, hd, hsc⟩ := h
    refine ⟨_, hev.trans hp, ⟨hmake _ _ ev hd.events, fun hf => ?_, fun hu => ?_⟩, fun _ => ?_⟩
    · simpa using hd.keepsF (by rw [hw]; exact hf)
    · simpa using hd.keepsU rfl
    · have := hsc rfl
      exact ⟨by simpa using this.st, by simpa using this.todo, by simpa using this.outcome, by simpa using this.ind⟩
  · next left t heq =>
    obtain ⟨ev, hp, hd, hsc, -, hl⟩ := h
    refine ⟨_, hev.trans hp, ⟨hmake _ _ ev hd.events, fun hf => ?_, fun hu => ?_⟩, ?_, rfl, hl⟩
    · simpa using hd.keepsF (by rw [hw]; exact hf)
    · simpa using hd.keepsU rfl
    · exact ⟨by simpa using hsc.st, by simpa using hsc.todo, by simpa using hsc.outcome, by simpa using hsc.ind⟩
  · next t heq =>
    obtain ⟨ev, d, hp, hd, ha, -⟩ := h
    refine ⟨_, d, ?_, ⟨hmake _ _ ev hd.events, fun hf => ?_, fun hu => ?_⟩, ⟨ha.st, ha.todo, ha.outcome, ?_⟩, rfl⟩
    · have := hev.trans hp
      rwa [← List.append_assoc] at this
    · simpa using hd.keepsF (by rw [hw]; exact hf)
    · simpa using hd.keepsU rfl
    · simpa using ha.ind

/-- What a statement can do. -/
theorem runOp_spec (op : Op) (s : State) : OpSpec s.cfg.stopVariant op s (runOp op s) := by
  cases op with
  | goto p => exact ⟨[], .of_eqs rfl rfl rfl rfl rfl rfl rfl rfl rfl rfl rfl, .of_same ⟨rfl, rfl, rfl, rfl⟩ (by simp), by simp [isBody]⟩
  | indSet on =>
    refine ⟨[.ind on], ?_, .of_same ⟨rfl, rfl, rfl, rfl⟩ (by simp [opMakes]), by simp [isBody]⟩
    exact progress_event _ (by simp) rfl rfl rfl rfl rfl rfl rfl rfl rfl rfl rfl
  | receiveFloat r =>
    have h := memRead_spec 4 s
    have hm : ∀ l : List Byte, ∀ e ∈ l.map Event.inp, opMakes s.cfg.stopVariant (.receiveFloat r) e = true := by
      intro l e he
      obtain ⟨x, -, rfl⟩ := List.mem_map.mp he
      rfl
    unfold runOp receiveFloat
    cases hr : memRead 4 s with
    | got b t =>
      rw [hr] at h
      obtain ⟨ev, hp, rfl, -, hsc, hsp⟩ := h
      refine ⟨b.map Event.inp, ?_, ⟨hm b, by simp [writesF], fun _ => by simpa using hsp.u0⟩, fun _ => ?_⟩
      · have := hp.trans (progress_setF r (valueOf32 t.cfg.byteOrder (byteAt b 0) (byteAt b 1) (byteAt b 2) (byteAt b 3)) t)
        rwa [List.append_nil] at this
      · exact hsc.trans ⟨by simp, by simp, by simp, by simp⟩
    | held t =>
      rw [hr] at h
      exact ⟨[], h.1, .of_same h.2.2 (by simp), h.2.1, rfl, rfl⟩
    | failed t =>
      rw [hr] at h
      obtain ⟨b, hp, ha, hsp⟩ := h
      exact ⟨_, _, hp, .of_same hsp (hm b), ha, rfl⟩
  | receiveUint16 =>
    have h := memRead_spec 2 s
    have hm : ∀ l : List Byte, ∀ e ∈ l.map Event.inp, opMakes s.cfg.stopVariant .receiveUint16 e = true := by
      intro l e he
      obtain ⟨x, -, rfl⟩ := List.mem_map.mp he
      rfl
    unfold runOp receiveUint16
    cases hr : memRead 2 s with
    | got b t =>
      rw [hr] at h
      obtain ⟨ev, hp, rfl, -, hsc, hsp⟩ := h
      refine ⟨b.map Event.inp, ?_, ⟨hm b, fun _ => ⟨hsp.f0, hsp.f1, hsp.f2⟩, by simp [writesU0]⟩, fun _ => hsc.trans ⟨rfl, rfl, rfl, rfl⟩⟩
      have := hp.trans (Progress.of_eqs (s := t)
        (t := setU0 (valueOf16 t.cfg.byteOrder (byteAt b 0) (byteAt b 1)) t) rfl rfl rfl rfl rfl rfl rfl rfl rfl rfl rfl)
      rwa [List.append_nil] at this
    | held t =>
      rw [hr] at h
      exact ⟨[], h.1, .of_same h.2.2 (by simp), h.2.1, rfl, rfl⟩
    | failed t =>
      rw [hr] at h
      obtain ⟨b, hp, ha, hsp⟩ := h
      exact ⟨_, _, hp, .of_same hsp (hm b), ha, rfl⟩
  | sendFloat r => exact sendBytes_spec _ _ _ _ s rfl (fun _ => rfl)
  | sendBytes b => exact sendBytes_spec _ _ _ _ s rfl (fun _ => rfl)
  | call p => exact callPort_spec p s
  | during p acts w => exact duringCall_spec p w acts acts s
  | wait =>
    refine ⟨[.call (.wait s.cfg.beepDuration)], ?_, .of_same ⟨rfl, rfl, rfl, rfl⟩ (by simp [opMakes]), fun _ => ⟨rfl, rfl, rfl, rfl⟩⟩
    exact progress_event _ (by simp) rfl rfl rfl rfl rfl rfl rfl rfl rfl rfl rfl
  | finish o => exact ⟨[], .of_eqs rfl rfl rfl rfl rfl rfl rfl rfl rfl rfl rfl, .of_same ⟨rfl, rfl, rfl, rfl⟩ (by simp), by simp [isBody]⟩

/-! ### Lists of statements -/

/-- What every run of a list of statements does, however it ends. -/
structure Ran (v : StopVariant) (ops : List Op) (ev : List Event) (s t : State) : Prop where
  progress : Progress ev s t
  keepsF   : (∀ op ∈ ops, writesF op = false) → t.f0 = s.f0 ∧ t.f1 = s.f1 ∧ t.f2 = s.f2
  keepsU   : (∀ op ∈ ops, writesU0 op = false) → t.u0 = s.u0

/-- The two ends of an action: abandoned by a failure, its last event; or with none, held where it was or in `Done`. -/
def Ended (v : StopVariant) (ops : List Op) (ev : List Event) (s t : State) : Prop :=
  (∃ d earlier, ev = earlier ++ [.fault d] ∧ (∀ e ∈ earlier, ∃ op ∈ ops, opMakes v op e = true)
      ∧ t.st = .idle ∧ t.todo = [] ∧ t.outcome = none)
    ∨ ((∀ e ∈ ev, ∃ op ∈ ops, opMakes v op e = true) ∧ (bodyThenFinish ops = true → t.st = s.st ∨ t.st = .done))

/-- The first statement of the rest of an action, unless it is the entry to `Done`. -/
theorem bodyThenFinish_cons {op : Op} {rest : List Op} (h : bodyThenFinish (op :: rest) = true)
    (hfin : ¬ ∃ o, op = .finish o ∧ rest = []) : isBody op = true ∧ bodyThenFinish rest = true := by
  cases op <;> cases rest <;> simp_all [bodyThenFinish, isBody]

theorem Ran.keepEmpty {v : StopVariant} {s t : State} (h : Progress [] s t) (hp : SamePayload s t) : Ran v [] [] s t :=
  ⟨h, fun _ => ⟨hp.f0, hp.f1, hp.f2⟩, fun _ => hp.u0⟩

/-- A run of statements: its events are theirs, and a failure is the last of them. -/
theorem runOps_spec (ops : List Op) (s : State) :
    ∃ ev, Ran s.cfg.stopVariant ops ev s (runOps ops s) ∧ Ended s.cfg.stopVariant ops ev s (runOps ops s) := by
  induction ops generalizing s with
  | nil => exact ⟨[], .keepEmpty (.refl s) (.refl s), .inr ⟨by simp, by simp [bodyThenFinish]⟩⟩
  | cons op rest ih =>
    have h := runOp_spec op s
    unfold runOps
    cases hr : runOp op s with
    | done t =>
      rw [hr] at h
      obtain ⟨ev, hp, hd, hsc⟩ := h
      obtain ⟨ev', hran, hend⟩ := ih t
      have hcfg := hp.cfg
      rw [hcfg] at hran hend
      refine ⟨ev ++ ev', ⟨hp.trans hran.progress, fun hf => ?_, fun hu => ?_⟩, ?_⟩
      · obtain ⟨a, b, c⟩ := hd.keepsF (hf op (by simp))
        obtain ⟨a', b', c'⟩ := hran.keepsF (fun o ho => hf o (by simp [ho]))
        exact ⟨a'.trans a, b'.trans b, c'.trans c⟩
      · exact (hran.keepsU (fun o ho => hu o (by simp [ho]))).trans (hd.keepsU (hu op (by simp)))
      · rcases hend with ⟨d, e1, rfl, he, hs⟩ | ⟨he, hst⟩
        · left
          refine ⟨d, ev ++ e1, by simp, ?_, hs⟩
          intro e hmem
          rcases List.mem_append.mp hmem with hmem | hmem
          · exact ⟨op, by simp, hd.events e hmem⟩
          · obtain ⟨o, ho, hm⟩ := he e hmem
            exact ⟨o, by simp [ho], hm⟩
        · right
          refine ⟨fun e hmem => ?_, fun hb => ?_⟩
          swap
          · by_cases hfin : ∃ o, op = .finish o ∧ rest = []
            · obtain ⟨o, rfl, rfl⟩ := hfin
              injection hr with hr
              subst hr
              exact .inr rfl
            · have hb' := bodyThenFinish_cons hb hfin
              rw [← (hsc hb'.1).st]
              exact hst hb'.2
          rcases List.mem_append.mp hmem with hmem | hmem
          · exact ⟨op, by simp, hd.events e hmem⟩
          · obtain ⟨o, ho, hm⟩ := he e hmem
            exact ⟨o, by simp [ho], hm⟩
    | held left t =>
      rw [hr] at h
      obtain ⟨ev, hp, hd, hsc, -, -⟩ := h
      refine ⟨ev, ⟨?_, fun hf => hd.keepsF (hf op (by simp)), fun hu => hd.keepsU (hu op (by simp))⟩,
        .inr ⟨fun e hmem => ⟨op, by simp, hd.events e hmem⟩, fun _ => .inl hsc.st⟩⟩
      have := hp.trans (Progress.of_eqs (s := t) (t := { t with todo := left :: rest }) rfl rfl rfl rfl rfl rfl rfl rfl rfl rfl rfl)
      rwa [List.append_nil] at this
    | failed t =>
      rw [hr] at h
      obtain ⟨ev, d, hp, hd, ha, -⟩ := h
      exact ⟨ev ++ [.fault d], ⟨hp, fun hf => hd.keepsF (hf op (by simp)), fun hu => hd.keepsU (hu op (by simp))⟩,
        .inl ⟨d, ev, rfl, fun e hmem => ⟨op, by simp, hd.events e hmem⟩, ha.st, ha.todo, ha.outcome⟩⟩

/-- How a run of the rest of an action leaves the cycle: abandoned, held where it was with a rest of the same form, or in `Done`. -/
theorem runOps_control (ops : List Op) (s : State) (hops : bodyThenFinish ops = true) (htodo : s.todo = []) :
    (runOps ops s).ind = s.ind ∧
      (((runOps ops s).st = .idle ∧ (runOps ops s).todo = [] ∧ (runOps ops s).outcome = none)
        ∨ ((runOps ops s).st = s.st ∧ bodyThenFinish (runOps ops s).todo = true ∧ (runOps ops s).outcome = s.outcome)
        ∨ ((runOps ops s).st = .done ∧ (runOps ops s).todo = [] ∧ (runOps ops s).outcome.isSome = true)) := by
  induction ops generalizing s with
  | nil => simp [bodyThenFinish] at hops
  | cons op rest ih =>
    by_cases hfin : ∃ o, op = .finish o ∧ rest = []
    · obtain ⟨o, rfl, rfl⟩ := hfin
      refine ⟨rfl, .inr (.inr ⟨rfl, ?_, rfl⟩)⟩
      simpa [runOps, runOp] using htodo
    · have hb := bodyThenFinish_cons hops hfin
      have h := runOp_spec op s
      unfold runOps
      cases hr : runOp op s with
      | done t =>
        rw [hr] at h
        obtain ⟨ev, -, -, hsc⟩ := h
        have hsc := hsc hb.1
        obtain ⟨hi, hc⟩ := ih t hb.2 (by rw [hsc.todo, htodo])
        refine ⟨hi.trans hsc.ind, ?_⟩
        rw [← hsc.st, ← hsc.outcome]
        exact hc
      | held left t =>
        rw [hr] at h
        obtain ⟨ev, -, -, hsc, -, hl⟩ := h
        refine ⟨hsc.ind, .inr (.inl ⟨hsc.st, ?_, hsc.outcome⟩)⟩
        cases left <;> cases rest <;> simp_all [bodyThenFinish, isBody]
      | failed t =>
        rw [hr] at h
        obtain ⟨ev, d, -, -, ha, -⟩ := h
        exact ⟨ha.ind, .inl ⟨ha.st, ha.todo, ha.outcome⟩⟩

end Sys2Proof.Machine
end

