-- ==== Sys2Proof/Laws/Calls.lean ====
section
/-! SUPPORT. Calls that return at once, for a port that is lent nothing and for one whose accesses all go through; calls that hang. -/

namespace Sys2Proof.Machine

/-- Which answer a call gets depends on the answers and the counter alone. -/
theorem nextAnswer_congr {s t : State} (ha : t.answers = s.answers) (hd : t.draws = s.draws) :
    nextAnswer t = nextAnswer s := by
  unfold nextAnswer
  rw [ha, hd]

theorem useAnswer_congr {s t : State} (ha : t.answers = s.answers) (hd : t.draws = s.draws) :
    (useAnswer t).answers = (useAnswer s).answers ∧ (useAnswer t).draws = (useAnswer s).draws := by
  unfold useAnswer
  rw [ha]
  cases s.answers <;> simp [hd]

/-- A collaborator that is lent no stream and does not keep the call returns with no effect but its result. -/
theorem duringCall_notLent {p : Port} {s : State} {acts : List Act} (w : Pattern) (hi : lendsIn p = false)
    (ho : lendsOut s.cfg.stopVariant p = false) (h : acts.all (fun x => x != .linger && x != .hang) = true) :
    duringCall p w acts s = .done (returnOf p w s) := by
  induction acts with
  | nil => rfl
  | cons a acts ih =>
    simp only [List.all_cons, Bool.and_eq_true] at h
    cases a <;> simp_all [duringCall]

theorem callPort_notLent {p : Port} {s : State} (hi : lendsIn p = false) (ho : lendsOut s.cfg.stopVariant p = false)
    (h : returnsAtOnce (nextAnswer s) = true) :
    callPort p s = .done (returnOf p (nextAnswer s).result
      (emit (.call (callOf p (nextAnswer s).result s)) (useAnswer s))) := by
  unfold callPort
  exact duringCall_notLent _ hi (by simpa using ho) h

theorem lentActs_take {v : StopVariant} {p : Port} (n : Nat) (acts : List Act) (h : lendsIn p = true) :
    lentActs v p (.take n :: acts) = .take n :: lentActs v p acts := by
  simp [lentActs, h]

theorem lentActs_give {v : StopVariant} {p : Port} (b : List Byte) (acts : List Act) (h : lendsOut v p = true) :
    lentActs v p (.give b :: acts) = .give b :: lentActs v p acts := by
  simp [lentActs, h]

theorem lentActs_skip_take {v : StopVariant} {p : Port} (n : Nat) (acts : List Act) (h : lendsIn p = false) :
    lentActs v p (.take n :: acts) = lentActs v p acts := by
  simp [lentActs, h]

theorem lentActs_skip_give {v : StopVariant} {p : Port} (b : List Byte) (acts : List Act) (h : lendsOut v p = false) :
    lentActs v p (.give b :: acts) = lentActs v p acts := by
  simp [lentActs, h]

/-- Acts whose accesses all go through are done exactly, in order, where the port was lent the stream; then the acts after them. -/
theorem duringCall_append {p : Port} {acts : List Act} (more : List Act) (w : Pattern) (s : State)
    (h : acts.all (fun x => x != .linger && x != .hang) = true)
    (hp : proceeds (accessCount (lentActs s.cfg.stopVariant p acts)) s = true)
    (hi : takenBytes (lentActs s.cfg.stopVariant p acts) ≤ s.input.length)
    (ho : roomFor (givenBytes (lentActs s.cfg.stopVariant p acts)).length s = true) :
    duringCall p w (acts ++ more) s = duringCall p w more { s with
      input := s.input.drop (takenBytes (lentActs s.cfg.stopVariant p acts))
      output := s.output ++ givenBytes (lentActs s.cfg.stopVariant p acts)
      faults := s.faults.drop (accessCount (lentActs s.cfg.stopVariant p acts))
      trace := s.trace ++ actEvents (lentActs s.cfg.stopVariant p acts) s.input } := by
  induction acts generalizing s with
  | nil => simp [lentActs, takenBytes, givenBytes, accessCount, actEvents]
  | cons a acts ih =>
    simp only [List.all_cons, Bool.and_eq_true] at h
    rw [List.cons_append]
    cases a with
    | linger => simp at h
    | hang => simp at h
    | take n =>
      cases hl : lendsIn p with
      | false =>
        rw [lentActs_skip_take n acts hl] at *
        conv_lhs => unfold duringCall
        rw [if_neg (by simp [hl])]
        exact ih s h.2 hp hi ho
      | true =>
        rw [lentActs_take n acts hl] at *
        by_cases hn : n = 0
        · subst hn
          simp only [accessCount, takenBytes, givenBytes, actEvents, if_true, Nat.zero_add] at hp hi ho ⊢
          conv_lhs => unfold duringCall
          rw [if_pos hl, memRead_zero]
          simpa using ih s h.2 hp hi ho
        · simp only [accessCount, takenBytes, givenBytes, actEvents, hn, if_false] at hp hi ho ⊢
          rw [Nat.add_comm 1] at hp ⊢
          conv_lhs => unfold duringCall
          rw [if_pos hl, memRead_available (driverChoice_of_proceeds hp) hn (by omega)]
          dsimp only
          rw [ih (consume n (attempt s)) h.2 (proceeds_tail (s := s) rfl hp)
            (by simp only [consume_cfg, attempt_cfg, consume_input, attempt_input, List.length_drop]; omega) ho]
          cases hf : s.faults <;> simp [hf, consume, attempt]
    | give b =>
      cases hl : lendsOut s.cfg.stopVariant p with
      | false =>
        rw [lentActs_skip_give b acts hl] at *
        conv_lhs => unfold duringCall
        rw [if_neg (by simp [hl])]
        exact ih s h.2 hp hi ho
      | true =>
        rw [lentActs_give b acts hl] at *
        by_cases hb : b = []
        · subst hb
          simp only [accessCount, takenBytes, givenBytes, actEvents, if_true, Nat.zero_add, List.nil_append] at hp hi ho ⊢
          conv_lhs => unfold duringCall
          rw [if_pos hl, memWrite_nil]
          simpa using ih s h.2 hp hi ho
        · simp only [accessCount, takenBytes, givenBytes, actEvents, hb, if_false, List.length_append] at hp hi ho ⊢
          rw [Nat.add_comm 1] at hp ⊢
          conv_lhs => unfold duringCall
          rw [if_pos hl, memWrite_fits (driverChoice_of_proceeds hp) hb
            (outRoom_of_roomFor (roomFor_mono (Nat.le_add_right _ _) ho))]
          dsimp only
          rw [ih (produce b (attempt s)) h.2 (proceeds_tail (s := s) rfl hp) hi
            (roomFor_after (s := s) (t := produce b (attempt s)) b rfl rfl ho)]
          cases hf : s.faults <;> simp [hf, produce, attempt]

/-- A collaborator whose accesses all go through does exactly its lent acts, in order. -/
theorem duringCall_lent {p : Port} {acts : List Act} (w : Pattern) (s : State)
    (h : acts.all (fun x => x != .linger && x != .hang) = true)
    (hp : proceeds (accessCount (lentActs s.cfg.stopVariant p acts)) s = true)
    (hi : takenBytes (lentActs s.cfg.stopVariant p acts) ≤ s.input.length)
    (ho : roomFor (givenBytes (lentActs s.cfg.stopVariant p acts)).length s = true) :
    duringCall p w acts s = .done (returnOf p w { s with
      input := s.input.drop (takenBytes (lentActs s.cfg.stopVariant p acts))
      output := s.output ++ givenBytes (lentActs s.cfg.stopVariant p acts)
      faults := s.faults.drop (accessCount (lentActs s.cfg.stopVariant p acts))
      trace := s.trace ++ actEvents (lentActs s.cfg.stopVariant p acts) s.input }) := by
  simpa [duringCall] using duringCall_append [] w s h hp hi ho

/-- A call of a port whose collaborator's accesses all go through. -/
theorem callPort_lent {p : Port} {s : State} (h : returnsAtOnce (nextAnswer s) = true)
    (hp : proceeds (accessCount (lentActs s.cfg.stopVariant p (nextAnswer s).acts)) s = true)
    (hi : takenBytes (lentActs s.cfg.stopVariant p (nextAnswer s).acts) ≤ s.input.length)
    (ho : roomFor (givenBytes (lentActs s.cfg.stopVariant p (nextAnswer s).acts)).length s = true) :
    callPort p s = .done (returnOf p (nextAnswer s).result { useAnswer s with
      input := s.input.drop (takenBytes (lentActs s.cfg.stopVariant p (nextAnswer s).acts))
      output := s.output ++ givenBytes (lentActs s.cfg.stopVariant p (nextAnswer s).acts)
      faults := s.faults.drop (accessCount (lentActs s.cfg.stopVariant p (nextAnswer s).acts))
      trace := s.trace ++ ([.call (callOf p (nextAnswer s).result s)]
        ++ actEvents (lentActs s.cfg.stopVariant p (nextAnswer s).acts) s.input) }) := by
  have hv : (emit (.call (callOf p (nextAnswer s).result s)) (useAnswer s)).cfg = s.cfg := by simp
  have hf : (emit (.call (callOf p (nextAnswer s).result s)) (useAnswer s)).faults = s.faults := by simp
  unfold callPort
  rw [duringCall_lent _ _ h (by rw [hv, proceeds_congr hf]; exact hp) (by rw [hv]; simpa using hi)
    (by rw [hv]; unfold roomFor at *; simpa using ho), hv]
  simp [emit]

/-- When a port is lent only `OUT`, its acts take nothing. -/
theorem takenBytes_lent {v : StopVariant} {p : Port} (h : lendsIn p = false) (acts : List Act) :
    takenBytes (lentActs v p acts) = 0 := by
  induction acts with
  | nil => rfl
  | cons a acts ih =>
    cases a with
    | take n => rw [lentActs_skip_take n acts h, ih]
    | give b =>
      cases ho : lendsOut v p with
      | true => rw [lentActs_give b acts ho]; exact ih
      | false => rw [lentActs_skip_give b acts ho, ih]
    | _ => exact ih

/-- When a port is lent only `OUT`, its acts' events are the bytes it gives. -/
theorem actEvents_lent {v : StopVariant} {p : Port} (h : lendsIn p = false) (acts : List Act) (input : List Byte) :
    actEvents (lentActs v p acts) input = (givenBytes (lentActs v p acts)).map Event.out := by
  induction acts with
  | nil => rfl
  | cons a acts ih =>
    cases a with
    | take n => rw [lentActs_skip_take n acts h, ih]
    | give b =>
      cases ho : lendsOut v p with
      | true => rw [lentActs_give b acts ho]; simp [actEvents, givenBytes, ih]
      | false => rw [lentActs_skip_give b acts ho, ih]
    | _ => exact ih

/-- `MOVE`'s collaborator is lent both streams, so nothing it does is left out. -/
theorem lentActs_move (v : StopVariant) (acts : List Act) : lentActs v .receiveSpeedInstruction acts = acts := by
  unfold lentActs
  rw [List.filter_eq_self]
  intro a _
  cases a <;> rfl

/-- A call event depends on the payload registers and the parameters alone. -/
theorem callOf_congr {p : Port} {w : Pattern} {s t : State} (hcfg : t.cfg = s.cfg) (h0 : t.f0 = s.f0) (h1 : t.f1 = s.f1)
    (h2 : t.f2 = s.f2) (hu : t.u0 = s.u0) : callOf p w t = callOf p w s := by
  unfold callOf
  cases p <;> simp [hcfg, h0, h1, h2, hu]

/-- A call whose collaborator hangs after acts that go through holds at the hang. -/
theorem callPort_hangs {p : Port} {s : State} {lead more : List Act} (ha : (nextAnswer s).acts = lead ++ .hang :: more)
    (h : lead.all (fun x => x != .linger && x != .hang) = true)
    (hp : proceeds (accessCount (lentActs s.cfg.stopVariant p lead)) s = true)
    (hi : takenBytes (lentActs s.cfg.stopVariant p lead) ≤ s.input.length)
    (ho : roomFor (givenBytes (lentActs s.cfg.stopVariant p lead)).length s = true) :
    callPort p s = .held (.during p (.hang :: more) (nextAnswer s).result) { useAnswer s with
      input := s.input.drop (takenBytes (lentActs s.cfg.stopVariant p lead))
      output := s.output ++ givenBytes (lentActs s.cfg.stopVariant p lead)
      faults := s.faults.drop (accessCount (lentActs s.cfg.stopVariant p lead))
      trace := s.trace ++ ([.call (callOf p (nextAnswer s).result s)]
        ++ actEvents (lentActs s.cfg.stopVariant p lead) s.input) } := by
  have hv : (emit (.call (callOf p (nextAnswer s).result s)) (useAnswer s)).cfg = s.cfg := by simp
  have hf : (emit (.call (callOf p (nextAnswer s).result s)) (useAnswer s)).faults = s.faults := by simp
  unfold callPort
  rw [ha, duringCall_append _ _ _ h (by rw [hv, proceeds_congr hf]; exact hp) (by rw [hv]; simpa using hi)
    (by rw [hv]; unfold roomFor at *; simpa using ho), hv]
  simp [duringCall, emit]

/-- A call whose collaborator will hang holds in the call, control as it was, or fails; it never returns. -/
theorem duringCall_neverReturns (p : Port) (w : Pattern) (acts : List Act) (s : State) (h : .hang ∈ acts) :
    (∃ left t, duringCall p w acts s = .held (.during p left w) t ∧ .hang ∈ left ∧ SameControl s t)
      ∨ ∃ t d, duringCall p w acts s = .failed t ∧ t.st = .idle ∧ t.todo = [] ∧ t.ind = s.ind
          ∧ t.trace.getLast? = some (.fault d) := by
  induction acts generalizing s with
  | nil => cases h
  | cons a acts ih =>
    have after : ∀ t, SameControl s t → .hang ∈ acts →
        (∃ left u, duringCall p w acts t = .held (.during p left w) u ∧ .hang ∈ left ∧ SameControl s u)
          ∨ ∃ u d, duringCall p w acts t = .failed u ∧ u.st = .idle ∧ u.todo = [] ∧ u.ind = s.ind
              ∧ u.trace.getLast? = some (.fault d) := by
      intro t ht hmem
      rcases ih t hmem with ⟨l, u, h1, h2, h3⟩ | ⟨u, d, h1, h2, h3, h4, h5⟩
      · exact .inl ⟨l, u, h1, h2, ht.trans h3⟩
      · exact .inr ⟨u, d, h1, h2, h3, h4.trans ht.ind, h5⟩
    cases a with
    | linger => exact .inl ⟨acts, s, rfl, by simpa using h, .refl s⟩
    | hang => exact .inl ⟨_, s, rfl, h, .refl s⟩
    | take n =>
      have hmem : .hang ∈ acts := by simpa using h
      unfold duringCall
      split
      · rcases memRead_cases n s with ⟨_, e⟩ | ⟨_, _, _, e⟩ | ⟨_, _, e⟩ | ⟨_, m, _, e⟩ <;> rw [e]
        · exact after s (.refl s) hmem
        · exact after _ ⟨rfl, rfl, rfl, rfl⟩ hmem
        · exact .inl ⟨_, _, rfl, h, rfl, rfl, rfl, rfl⟩
        · exact .inr ⟨_, .inp, rfl, rfl, rfl, rfl, by simp [takeStreamFault, emit]⟩
      · exact after s (.refl s) hmem
    | give b =>
      have hmem : .hang ∈ acts := by simpa using h
      unfold duringCall
      split
      · rcases memWrite_cases b s with ⟨_, e⟩ | ⟨_, _, _, e⟩ | ⟨_, _, e⟩ | ⟨_, m, _, e⟩ <;> rw [e]
        · exact after s (.refl s) hmem
        · exact after _ ⟨rfl, rfl, rfl, rfl⟩ hmem
        · exact .inl ⟨_, _, rfl, by simp [hmem], rfl, rfl, rfl, rfl⟩
        · exact .inr ⟨_, .out, rfl, rfl, rfl, rfl, by simp [takeStreamFault, emit]⟩
      · exact after s (.refl s) hmem

end Sys2Proof.Machine
end

