-- ==== Sys2Proof/Laws/Instr.lean ====
section
/-! SUPPORT. What every instruction does, in one equation (`exec_eq`): it steers the parser, or performs a list of statements. -/

namespace Sys2Proof.Machine

/-- Where a steering row sends the parser. -/
def steersTo : Instr → ParserState
  | .needC4 _ _ _ => .readCode4
  | _ => .readCode3

/-- The statements of a row that is an echo or an action. -/
def statementsOf (c : HexCase) : Instr → Option (List Op)
  | .probe k             => some [.sendBytes (echoText c k), .finish .probeEcho]
  | .clr                 => some (dispatchOps clrAction (.executed .CLR))
  | .pic                 => some (dispatchOps picAction (.executed .PIC))
  | .pos                 => some (dispatchOps posAction (.executed .POS))
  | .move                => some (dispatchOps moveAction (.executed .MOVE))
  | .stop                => some (dispatchOps stopAction (.executed .STOP))
  | .scan                => some (dispatchOps scanAction (.executed .SCAN))
  | .beep                => some (dispatchOps beepAction (.executed .BEEP))
  | .invalid _ _ _ _     => some (dispatchOps invalidAction .invalid)
  | .frameStart | .resync3C1 _ _ | .resync3C2 _ _ | .resync3C3 _ _ | .needC4 _ _ _ | .resync4 _ _ _ => none

/-- Every instruction answers a next state. -/
theorem exec_eq (i : Instr) (s : State) :
    exec i s = .next (match statementsOf s.cfg.hexCase i with
      | some ops => perform ops s
      | none     => goto (steersTo i) s) := by
  cases i <;> rfl

theorem exec_steers {i : Instr} {c : HexCase} (h : statementsOf c i = none) (s : State) :
    exec i s = .next (goto (steersTo i) s) := by
  cases i <;> first | rfl | simp [statementsOf] at h

/-- The rest of an action, after the entry to `Dispatch` and `IndSet(0)` (41_parser.md rule R139). -/
theorem perform_dispatchOps (action : List Op) (o : CycleOutcome) (s : State) :
    perform (dispatchOps action o) s =
      runOps (action ++ [.finish o]) (indSet false (goto .dispatch { s with todo := [] })) := rfl

/-- An action: the indicator goes off first, then its statements (41_parser.md rule R139). -/
theorem dispatchOps_spec (action : List Op) (o : CycleOutcome) (s : State) :
    ∃ ev, (perform (dispatchOps action o) s).trace = s.trace ++ .ind false :: ev
      ∧ Ran s.cfg.stopVariant (action ++ [.finish o]) ev (indSet false (goto .dispatch { s with todo := [] }))
          (perform (dispatchOps action o) s)
      ∧ Ended s.cfg.stopVariant (action ++ [.finish o]) ev (indSet false (goto .dispatch { s with todo := [] }))
          (perform (dispatchOps action o) s) := by
  rw [perform_dispatchOps]
  obtain ⟨ev, hr, he⟩ := runOps_spec (action ++ [.finish o]) (indSet false (goto .dispatch { s with todo := [] }))
  refine ⟨ev, ?_, hr, he⟩
  rw [hr.progress.trace]
  simp

/-- A list of body statements, then the entry to `Done`. -/
theorem bodyThenFinish_append (action : List Op) (o : CycleOutcome) (h : action.all isBody = true) :
    bodyThenFinish (action ++ [.finish o]) = true := by
  induction action with
  | nil => rfl
  | cons op rest ih =>
    simp only [List.all_cons, Bool.and_eq_true] at h
    cases op <;> cases rest <;> simp_all [bodyThenFinish, isBody]

/-- The shape of an action: an echo, or the entry to `Dispatch` and a body. -/
theorem statementsOf_shape {i : Instr} {c : HexCase} {ops : List Op} (h : statementsOf c i = some ops) :
    (isDispatched i = false ∧ bodyThenFinish ops = true ∧ ∃ k, i = .probe k)
      ∨ (isDispatched i = true ∧ ∃ action o, ops = dispatchOps action o ∧ action.all isBody = true) := by
  cases i <;> simp only [statementsOf, Option.some.injEq, reduceCtorEq] at h
  case probe k => subst h; exact .inl ⟨rfl, rfl, k, rfl⟩
  all_goals subst h; exact .inr ⟨rfl, _, _, rfl, rfl⟩

/-- An instruction that steers is not dispatched. -/
theorem isDispatched_of_none {i : Instr} {c : HexCase} (h : statementsOf c i = none) : isDispatched i = false := by
  cases i <;> first | rfl | simp [statementsOf] at h

/-- The events an instruction may make, apart from a failure. -/
def allows (v : StopVariant) (i : Instr) : Event → Bool
  | .call c => mayCall i c
  | .inp _ => mayTakeInput i
  | .out _ => mayGiveOutput v i
  | .ind on => !on && isDispatched i
  | .start | .ret _ | .fault _ => false

/-- A statement all of whose events the instruction may make. -/
def within (v : StopVariant) (i : Instr) (op : Op) : Prop := ∀ e, opMakes v op e = true → allows v i e = true

theorem within_goto (v : StopVariant) (i : Instr) (p : ParserState) : within v i (.goto p) := by
  intro e hm; exact absurd hm Bool.false_ne_true

theorem within_finish (v : StopVariant) (i : Instr) (o : CycleOutcome) : within v i (.finish o) := by
  intro e hm; exact absurd hm Bool.false_ne_true

theorem within_indSet {v : StopVariant} {i : Instr} (h : isDispatched i = true) : within v i (.indSet false) := by
  intro e hm
  cases e with
  | ind on => cases on <;> simp_all [opMakes, allows]
  | _ => exact absurd hm Bool.false_ne_true

theorem within_receive {v : StopVariant} {i : Instr} (h : mayTakeInput i = true) :
    (∀ r, within v i (.receiveFloat r)) ∧ within v i .receiveUint16 := by
  constructor
  · intro r e hm
    cases e with
    | inp b => exact h
    | _ => exact absurd hm Bool.false_ne_true
  · intro e hm
    cases e with
    | inp b => exact h
    | _ => exact absurd hm Bool.false_ne_true

theorem within_send {v : StopVariant} {i : Instr} (h : mayGiveOutput v i = true) :
    (∀ r, within v i (.sendFloat r)) ∧ ∀ b, within v i (.sendBytes b) := by
  constructor
  · intro r e hm
    cases e with
    | out b => exact h
    | _ => exact absurd hm Bool.false_ne_true
  · intro b e hm
    cases e with
    | out b => exact h
    | _ => exact absurd hm Bool.false_ne_true

theorem within_call {i : Instr} {v : StopVariant} {p : Port} (hc : ∀ c, portMakes p c = true → mayCall i c = true)
    (hi : lendsIn p = true → mayTakeInput i = true) (ho : lendsOut v p = true → mayGiveOutput v i = true) :
    within v i (.call p) := by
  intro e hm
  cases e with
  | call c => exact hc c hm
  | inp b => exact hi hm
  | out b => exact ho hm
  | _ => exact absurd hm Bool.false_ne_true

theorem within_wait {v : StopVariant} : within v .beep .wait := by
  intro e hm
  cases e with
  | call c => cases c <;> first | rfl | exact absurd hm Bool.false_ne_true
  | _ => exact absurd hm Bool.false_ne_true

/-- Every statement of an instruction keeps to what the instruction may do (42_commands.md rule R168). -/
theorem statements_within {i : Instr} {c : HexCase} {ops : List Op} (v : StopVariant) (ho : statementsOf c i = some ops) :
    ∀ op ∈ ops, within v i op := by
  -- a port that is lent nothing
  have quiet : ∀ p, (∀ c, portMakes p c = true → mayCall i c = true) → lendsIn p = false → lendsOut v p = false →
      within v i (.call p) := fun p hc hi hl => within_call hc (by simp [hi]) (by simp [hl])
  have h1 := @within_goto v i
  have h2 := @within_finish v i
  have h3 := @within_indSet v i
  have h4 := @within_receive v i
  have h5 := @within_send v i
  cases i <;> simp only [statementsOf, Option.some.injEq, reduceCtorEq] at ho <;> subst ho <;>
    simp only [dispatchOps, clrAction, picAction, posAction, moveAction, stopAction, scanAction, beepAction, invalidAction,
      List.cons_append, List.nil_append, List.forall_mem_cons, List.not_mem_nil, false_implies, implies_true, and_true]
  case probe => exact ⟨(h5 rfl).2 _, h2 _⟩
  case invalid => exact ⟨h1 _, h3 rfl, (h5 rfl).2 _, h2 _⟩
  case clr =>
    refine ⟨h1 _, h3 rfl, (h4 rfl).1 _, (h4 rfl).1 _, (h4 rfl).1 _, quiet _ ?_ rfl rfl, h2 _⟩
    intro c; cases c <;> simp [portMakes, mayCall]
  case pic =>
    refine ⟨h1 _, h3 rfl, quiet _ ?_ rfl rfl, h2 _⟩
    intro c; cases c <;> simp [portMakes, mayCall]
  case pos =>
    refine ⟨h1 _, h3 rfl, quiet _ ?_ rfl rfl, (h5 rfl).1 _, quiet _ ?_ rfl rfl, (h5 rfl).1 _, quiet _ ?_ rfl rfl,
      (h5 rfl).1 _, h2 _⟩ <;> intro c <;> cases c <;> simp [portMakes, mayCall]
  case move =>
    refine ⟨h1 _, h3 rfl, within_call ?_ (fun _ => rfl) (fun _ => rfl), h2 _⟩
    intro c; cases c <;> simp [portMakes, mayCall]
  case stop =>
    refine ⟨h1 _, h3 rfl, within_call ?_ (by simp [lendsIn]) ?_, h2 _⟩
    · intro c; cases c <;> simp [portMakes, mayCall]
    · intro h; simpa [mayGiveOutput, isProbe, isInvalid, lendsOut] using h
  case scan =>
    refine ⟨h1 _, h3 rfl, within_call ?_ (by simp [lendsIn]) (fun _ => rfl), h2 _⟩
    intro c; cases c <;> simp [portMakes, mayCall]
  case beep =>
    refine ⟨h1 _, h3 rfl, (h4 rfl).2, quiet _ ?_ rfl rfl, quiet _ ?_ rfl rfl, within_wait, quiet _ ?_ rfl rfl, h2 _⟩ <;>
      intro c <;> cases c <;> simp [portMakes, mayCall]

/-- What every instruction does: its events, the streams they move, the payload registers, and how it ends. -/
theorem exec_spec (i : Instr) (s t : State) (h : exec i s = .next t) :
    ∃ ev, Progress ev s t
      ∧ ((statementsOf s.cfg.hexCase i = none ∧ ev = [] ∧ t = goto (steersTo i) s)
        ∨ ∃ ops, statementsOf s.cfg.hexCase i = some ops ∧ t = perform ops s
            ∧ Ran s.cfg.stopVariant ops ev { s with todo := [] } t
            ∧ Ended s.cfg.stopVariant ops ev { s with todo := [] } t) := by
  rw [exec_eq] at h
  injection h with h
  cases hs : statementsOf s.cfg.hexCase i with
  | none =>
    rw [hs] at h
    subst h
    exact ⟨[], .of_eqs rfl rfl rfl rfl rfl rfl rfl rfl rfl rfl rfl, .inl ⟨rfl, rfl, rfl⟩⟩
  | some ops =>
    rw [hs] at h
    subst h
    obtain ⟨ev, hran, hend⟩ := runOps_spec ops { s with todo := [] }
    refine ⟨ev, ?_, .inr ⟨ops, rfl, rfl, hran, hend⟩⟩
    have h0 : Progress [] s { s with todo := [] } := .of_eqs rfl rfl rfl rfl rfl rfl rfl rfl rfl rfl rfl
    exact h0.trans hran.progress

/-- Every event of an instruction is one it may make, but for a failure, which is the last. -/
theorem exec_events (i : Instr) (s t : State) (h : exec i s = .next t) :
    ∃ ev, Progress ev s t
      ∧ ((∃ d earlier, ev = earlier ++ [.fault d] ∧ ∀ e ∈ earlier, allows s.cfg.stopVariant i e = true)
        ∨ ∀ e ∈ ev, allows s.cfg.stopVariant i e = true) := by
  obtain ⟨ev, hp, hc⟩ := exec_spec i s t h
  refine ⟨ev, hp, ?_⟩
  rcases hc with ⟨-, rfl, -⟩ | ⟨ops, ho, -, -, he⟩
  · exact .inr (by simp)
  · have hw := statements_within s.cfg.stopVariant ho
    rcases he with ⟨d, e1, rfl, hh, -⟩ | ⟨hh, -⟩
    · exact .inl ⟨d, e1, rfl, fun e hm => by obtain ⟨op, hop, hx⟩ := hh e hm; exact hw op hop e hx⟩
    · exact .inr fun e hm => by obtain ⟨op, hop, hx⟩ := hh e hm; exact hw op hop e hx

/-- How an instruction leaves the cycle: steered, or abandoned, held, or in `Done`. -/
theorem exec_control {i : Instr} {v t : State} (h : exec i v = .next t) :
    (statementsOf v.cfg.hexCase i = none ∧ t = goto (steersTo i) v)
      ∨ (∃ p, ((p = v.st ∧ (∃ k, i = .probe k) ∧ isDispatched i = false ∧ t.ind = v.ind)
            ∨ (p = .dispatch ∧ isDispatched i = true ∧ t.ind = false))
          ∧ ((t.st = .idle ∧ t.todo = [] ∧ t.outcome = none)
            ∨ (t.st = p ∧ bodyThenFinish t.todo = true ∧ t.outcome = v.outcome)
            ∨ (t.st = .done ∧ t.todo = [] ∧ t.outcome.isSome = true))) := by
  rw [exec_eq] at h
  injection h with h
  cases hs : statementsOf v.cfg.hexCase i with
  | none =>
    rw [hs] at h
    exact .inl ⟨rfl, h.symm⟩
  | some ops =>
    rw [hs] at h
    subst h
    right
    rcases statementsOf_shape hs with ⟨hd, hb, hp⟩ | ⟨hd, a, o, rfl, ha⟩
    · obtain ⟨h1, h2⟩ := runOps_control ops { v with todo := [] } hb rfl
      exact ⟨v.st, .inl ⟨rfl, hp, hd, h1⟩, h2⟩
    · obtain ⟨h1, h2⟩ := runOps_control (a ++ [.finish o]) (indSet false (goto .dispatch { v with todo := [] }))
        (bodyThenFinish_append a o ha) rfl
      exact ⟨.dispatch, .inr ⟨rfl, hd, h1⟩, h2⟩

end Sys2Proof.Machine
end

