-- ==== Sys2Proof/Laws/Payload.lean ====
section
/-! SUPPORT. Runs of payload accesses inside an action: floats received one after another, and getters each followed by its send. -/

namespace Sys2Proof.Machine

/-- A getter called and its value sent (42_commands.md rule R162). -/
theorem runOps_getter {p : Port} {r : FReg} {s : State} (rest : List Op)
    (hpr : (p = .getX ∧ r = .F0) ∨ (p = .getY ∧ r = .F1) ∨ (p = .getHeading ∧ r = .F2))
    (ha : returnsAtOnce (nextAnswer s) = true) (hc : driverChoice s = none) (hr : roomFor 4 s = true) :
    runOps (.call p :: .sendFloat r :: rest) s = runOps rest { setF r (nextAnswer s).result (useAnswer s) with
      output := s.output ++ bytesOf32 s.cfg.byteOrder (nextAnswer s).result
      faults := s.faults.tail
      trace := s.trace ++ ([.call (callOf p (nextAnswer s).result s)]
        ++ (bytesOf32 s.cfg.byteOrder (nextAnswer s).result).map Event.out) } := by
  have hi : lendsIn p = false := by rcases hpr with ⟨rfl, -⟩ | ⟨rfl, -⟩ | ⟨rfl, -⟩ <;> rfl
  have ho : lendsOut s.cfg.stopVariant p = false := by rcases hpr with ⟨rfl, -⟩ | ⟨rfl, -⟩ | ⟨rfl, -⟩ <;> rfl
  simp only [runOps, runOp]
  rw [callPort_notLent hi ho ha]
  dsimp only
  have hu : ∀ w c, returnOf p w (emit c (useAnswer s)) = setF r w (emit c (useAnswer s)) := by
    rcases hpr with ⟨rfl, rfl⟩ | ⟨rfl, rfl⟩ | ⟨rfl, rfl⟩ <;> intros <;> rfl
  rw [hu, sendFloat_done (by rw [driverChoice_congr (s := s) (by simp)]; exact hc) (by unfold roomFor at *; simpa using hr)]
  dsimp only
  cases r <;> cases hs : s.answers <;> simp [getF, setF, produce, attempt, emit, useAnswer, hs]

/-- What a run of payload reads leaves alone. -/
structure SameButPayload (s t : State) : Prop where
  cfg     : t.cfg = s.cfg
  st      : t.st = s.st
  ind     : t.ind = s.ind
  output  : t.output = s.output
  todo    : t.todo = s.todo
  outcome : t.outcome = s.outcome
  host    : t.host = s.host
  answers : t.answers = s.answers
  draws   : t.draws = s.draws
  u0      : t.u0 = s.u0

theorem SameButPayload.trans {s t u : State} (h : SameButPayload s t) (h' : SameButPayload t u) : SameButPayload s u :=
  ⟨h'.cfg.trans h.cfg, h'.st.trans h.st, h'.ind.trans h.ind, h'.output.trans h.output, h'.todo.trans h.todo,
    h'.outcome.trans h.outcome, h'.host.trans h.host, h'.answers.trans h.answers, h'.draws.trans h.draws, h'.u0.trans h.u0⟩

/-- The first `j` floats of a payload are there and the driver lets them through: they are read, the rest of the action is to come. -/
theorem runOps_floats (j : Nat) (regs : List FReg) (rest : List Op) (s : State) (hj : j ≤ regs.length)
    (hp : proceeds j s = true) (hl : 4 * j ≤ s.input.length) :
    ∃ t, runOps (regs.map Op.receiveFloat ++ rest) s = runOps ((regs.drop j).map Op.receiveFloat ++ rest) t
      ∧ SameButPayload s t ∧ t.input = s.input.drop (4 * j) ∧ t.faults = s.faults.drop j
      ∧ t.trace = s.trace ++ (s.input.take (4 * j)).map Event.inp := by
  induction j generalizing regs s with
  | zero => exact ⟨s, rfl, ⟨rfl, rfl, rfl, rfl, rfl, rfl, rfl, rfl, rfl, rfl⟩, rfl, rfl, by simp⟩
  | succ j ih =>
    cases regs with
    | nil => simp at hj
    | cons r regs =>
      obtain ⟨b0, b1, b2, b3, l, hi⟩ : ∃ b0 b1 b2 b3 l, s.input = b0 :: b1 :: b2 :: b3 :: l := by
        rcases hs : s.input with _ | ⟨b0, _ | ⟨b1, _ | ⟨b2, _ | ⟨b3, l⟩⟩⟩⟩ <;> simp_all <;> omega
      have hr := receiveFloat_done (r := r) (driverChoice_of_proceeds hp) hi
      obtain ⟨t, ht, hsame, hin, hf, htr⟩ := ih regs
        (setF r (valueOf32 s.cfg.byteOrder b0 b1 b2 b3) (consume 4 (attempt s))) (by simpa using hj)
        (proceeds_tail (s := s) (by simp) hp) (by simp [hi] at hl ⊢; omega)
      refine ⟨t, ?_, ?_, ?_, ?_, ?_⟩
      · simp only [List.map_cons, List.cons_append, List.drop_succ_cons, runOps, runOp]
        rw [hr]
        exact ht
      · exact SameButPayload.trans (by constructor <;> simp) hsame
      · rw [hin]
        simp [Nat.mul_add, Nat.add_comm]
      · rw [hf]
        simp
      · rw [htr]
        simp [hi, Nat.mul_add]

end Sys2Proof.Machine
end

