-- ==== Sys2Proof/Laws/PerInstr.lean ====
section
/-! SUPPORT. Statements proved for every instruction, one lemma a constructor. -/

namespace Sys2Proof.Laws.HeaderShape

/-- The header of an instruction has its format's length, and its first byte is the sentinel unless the row is `PROBE`
(30_encoding.md rules R82, R86). -/
def Statement (i : Instr) : Prop :=
  (encode i).length = i.format.bytes ∧ ((encode i).head? = some sentinel ∨ Machine.isProbe i = true)

theorem frameStart : Statement .frameStart := ⟨rfl, .inl rfl⟩

theorem probe (k : Byte) : Statement (.probe k) := ⟨rfl, .inr rfl⟩

theorem resync3C1 (c2 c3 : Byte) : Statement (.resync3C1 c2 c3) := ⟨rfl, .inl rfl⟩

theorem resync3C2 (c1 c3 : Byte) : Statement (.resync3C2 c1 c3) := ⟨rfl, .inl rfl⟩

theorem resync3C3 (c1 c2 : Byte) : Statement (.resync3C3 c1 c2) := ⟨rfl, .inl rfl⟩

theorem clr : Statement .clr := ⟨rfl, .inl rfl⟩

theorem pic : Statement .pic := ⟨rfl, .inl rfl⟩

theorem pos : Statement .pos := ⟨rfl, .inl rfl⟩

theorem needC4 (c1 c2 c3 : Byte) : Statement (.needC4 c1 c2 c3) := ⟨rfl, .inl rfl⟩

theorem resync4 (c1 c2 c3 : Byte) : Statement (.resync4 c1 c2 c3) := ⟨rfl, .inl rfl⟩

theorem move : Statement .move := ⟨rfl, .inl rfl⟩

theorem stop : Statement .stop := ⟨rfl, .inl rfl⟩

theorem scan : Statement .scan := ⟨rfl, .inl rfl⟩

theorem beep : Statement .beep := ⟨rfl, .inl rfl⟩

theorem invalid (c1 c2 c3 c4 : Byte) : Statement (.invalid c1 c2 c3 c4) := ⟨rfl, .inl rfl⟩

end Sys2Proof.Laws.HeaderShape
end

