-- ==== Sys2Proof/Laws/Step.lean ====
section
/-! SUPPORT. What a step can do, said once: the equations of the header reads, and the inversion `step_cases` that the claims
about every step cite. -/

namespace Sys2Proof.Machine

@[simp] theorem driverChoice_hostActs (s : State) : driverChoice (hostActs s) = driverChoice s := rfl

/-- With nothing planned, the host's move changes nothing. -/
theorem hostActs_quiet {s : State} (h : s.host = []) : hostActs s = s := by
  cases s
  simp_all [hostActs]

/-! ### Header reads that go through -/

theorem fetch_probe {u : State} {b : Byte} {rest : List Byte} {i : Instr} (h0 : u.todo = []) (hs : u.st = .probeByte)
    (hc : driverChoice u = none) (hi : u.input = b :: rest) (hd : decode [b] = .ok i) :
    fetch u = .run i { u with
      k := b, input := rest, faults := u.faults.tail, trace := u.trace ++ [.inp b] } := by
  simp only [fetch, h0, hs, fetchProbe]
  rw [memRead_available hc (by decide) (by simp [hi])]
  simp [verdict, hi, byteAt, hd, consume, attempt, h0, hs]

theorem fetch_window {u : State} {b1 b2 b3 : Byte} {rest : List Byte} {i : Instr} (h0 : u.todo = [])
    (hs : u.st = .readCode3) (hc : driverChoice u = none) (hi : u.input = b1 :: b2 :: b3 :: rest)
    (hd : decode [u.k, b1, b2, b3] = .ok i) :
    fetch u = .run i { u with
      c1 := b1, c2 := b2, c3 := b3, input := rest, faults := u.faults.tail
      trace := u.trace ++ [.inp b1, .inp b2, .inp b3] } := by
  simp only [fetch, h0, hs, fetchWindow]
  rw [memRead_available hc (by decide) (by simp [hi])]
  simp [verdict, hi, byteAt, hd, consume, attempt, h0, hs]

theorem fetch_fourth {u : State} {b : Byte} {rest : List Byte} {i : Instr} (h0 : u.todo = []) (hs : u.st = .readCode4)
    (hc : driverChoice u = none) (hi : u.input = b :: rest) (hd : decode [u.k, u.c1, u.c2, u.c3, b] = .ok i) :
    fetch u = .run i { u with
      c4 := b, input := rest, faults := u.faults.tail, trace := u.trace ++ [.inp b] } := by
  simp only [fetch, h0, hs, fetchFourth]
  rw [memRead_available hc (by decide) (by simp [hi])]
  simp [verdict, hi, byteAt, hd, consume, attempt, h0, hs]

theorem decode_one (b : Byte) : decode [b] = .ok (decodeP1 b) := rfl

theorem decode_three {k : Byte} (hk : k = sentinel) (b1 b2 b3 : Byte) :
    decode [k, b1, b2, b3] = .ok (decodeF3 b1 b2 b3) := by
  simp [decode, hk]

theorem decode_four {k c1 c2 c3 : Byte} (hk : k = sentinel) (hn : needsFourth c1 c2 c3 = true) (b : Byte) :
    decode [k, c1, c2, c3, b] = .ok (decodeF4 c1 c2 c3 b) := by
  simp [decode, hk, hn]

/-! ### An action in progress -/

theorem step_resumes {s : State} {op : Op} {rest : List Op} (h : s.todo = op :: rest) :
    step s = .next (perform (op :: rest) (hostActs s)) := by
  have ht : (hostActs s).todo = op :: rest := h
  unfold step fetch
  rw [ht]

/-- A call that has come to a hang keeps everything but what the host changes. -/
theorem step_hangs {s : State} {p : Port} {more : List Act} {w : Pattern} {rest : List Op}
    (h : s.todo = .during p (.hang :: more) w :: rest) : step s = .next (hostActs s) := by
  rw [step_resumes h]
  simp [perform, runOps, runOp, duringCall, hostActs, h]

/-! ### `Idle` -/

theorem step_idle {s : State} (hst : s.st = .idle) (h0 : s.todo = []) : step s = .next (callerActs (hostActs s)) := by
  unfold step
  simp only [fetch, hostActs_todo, hostActs_st, h0, hst]

/-! ### Steps of a quiet environment: no host move, no failure planned -/

theorem step_window {s : State} {b1 b2 b3 : Byte} {rest : List Byte} (h0 : s.todo = []) (hs : s.st = .readCode3)
    (hk : s.k = sentinel) (hh : s.host = []) (hf : s.faults = []) (hi : s.input = b1 :: b2 :: b3 :: rest) :
    step s = exec (decodeF3 b1 b2 b3) { s with
      c1 := b1, c2 := b2, c3 := b3, input := rest, trace := s.trace ++ [.inp b1, .inp b2, .inp b3] } := by
  unfold step
  rw [hostActs_quiet hh, fetch_window h0 hs (by simp [driverChoice, hf]) hi (decode_three hk b1 b2 b3)]
  simp [hf]

theorem step_fourth {s : State} {b : Byte} {rest : List Byte} (h0 : s.todo = []) (hs : s.st = .readCode4)
    (hk : s.k = sentinel) (hn : needsFourth s.c1 s.c2 s.c3 = true) (hh : s.host = []) (hf : s.faults = [])
    (hi : s.input = b :: rest) :
    step s = exec (decodeF4 s.c1 s.c2 s.c3 b) { s with c4 := b, input := rest, trace := s.trace ++ [.inp b] } := by
  unfold step
  rw [hostActs_quiet hh, fetch_fourth h0 hs (by simp [driverChoice, hf]) hi (decode_four hk hn b)]
  simp [hf]

/-- A run of one step. -/
theorem steps_one {s t : State} {i : Instr} (h : step s = exec i t) : steps 1 s = exec i t := by
  simp only [steps]
  rw [h, exec_eq]

/-- A run of one step more. -/
theorem steps_succ {s u : State} {n : Nat} (h : step s = .next u) : steps (n + 1) s = steps n u := by
  simp only [steps]
  rw [h]

/-! ### Every step -/

/-- The seven things a step can do, `u` being the state after the host's move: go on with an action, begin a cycle, decline to, end
one, hold in a header read, fail in one, or run an instruction. -/
inductive StepCase (u t : State) : Prop
  | resume (op : Op) (rest : List Op) (htodo : u.todo = op :: rest) (ht : t = perform (op :: rest) u)
  | begins (htodo : u.todo = []) (hst : u.st = .idle) (hc : callerChoice u = .start) (ht : t = beginCycle (passChoice u))
  | declines (htodo : u.todo = []) (hst : u.st = .idle) (hc : callerChoice u ≠ .start) (ht : t = passChoice u ∨ t = u)
  | ends (o : CycleOutcome) (htodo : u.todo = []) (hst : u.st = .done) (ho : u.outcome = some o) (ht : t = returnToCaller o u)
  | holds (htodo : u.todo = []) (hst : u.st = .probeByte ∨ u.st = .readCode3 ∨ u.st = .readCode4) (ht : t = attempt u)
  | fails (j : Nat) (htodo : u.todo = []) (hst : u.st = .probeByte ∨ u.st = .readCode3 ∨ u.st = .readCode4)
      (ht : t = takeStreamFault .inp (consume j (attempt u)))
  | probe (b : Byte) (rest : List Byte) (v : State) (htodo : u.todo = []) (hst : u.st = .probeByte)
      (hin : u.input = b :: rest)
      (hv : v = { u with k := b, input := rest, faults := u.faults.tail, trace := u.trace ++ [.inp b] })
      (hf : fetch u = .run (decodeP1 b) v) (ht : exec (decodeP1 b) v = .next t)
  | window (b1 b2 b3 : Byte) (rest : List Byte) (v : State) (htodo : u.todo = []) (hst : u.st = .readCode3)
      (hk : u.k = sentinel) (hin : u.input = b1 :: b2 :: b3 :: rest)
      (hv : v = { u with
        c1 := b1, c2 := b2, c3 := b3, input := rest, faults := u.faults.tail
        trace := u.trace ++ [.inp b1, .inp b2, .inp b3] })
      (hf : fetch u = .run (decodeF3 b1 b2 b3) v) (ht : exec (decodeF3 b1 b2 b3) v = .next t)
  | fourth (b : Byte) (rest : List Byte) (v : State) (htodo : u.todo = []) (hst : u.st = .readCode4)
      (hk : u.k = sentinel) (hn : needsFourth u.c1 u.c2 u.c3 = true) (hin : u.input = b :: rest)
      (hv : v = { u with c4 := b, input := rest, faults := u.faults.tail, trace := u.trace ++ [.inp b] })
      (hf : fetch u = .run (decodeF4 u.c1 u.c2 u.c3 b) v) (ht : exec (decodeF4 u.c1 u.c2 u.c3 b) v = .next t)

theorem step_cases {s t : State} (h : step s = .next t) : StepCase (hostActs s) t := by
  unfold step at h
  generalize hostActs s = u at h
  cases htodo : u.todo with
  | cons op rest =>
    simp only [fetch, htodo] at h
    injection h with h
    exact .resume op rest htodo h.symm
  | nil =>
    cases hst : u.st with
    | idle =>
      simp only [fetch, htodo, hst] at h
      injection h with h
      rcases callerActs_cases u with ⟨hc, e⟩ | ⟨hc, e⟩ | ⟨hc, e⟩
      · exact .begins htodo hst hc (h ▸ e)
      · exact .declines htodo hst (by simp [hc]) (.inl (h ▸ e))
      · exact .declines htodo hst (by simp [hc]) (.inr (h ▸ e))
    | dispatch => simp [fetch, htodo, hst] at h
    | done =>
      cases ho : u.outcome with
      | none => simp [fetch, htodo, hst, ho] at h
      | some o =>
        simp only [fetch, htodo, hst, ho] at h
        injection h with h
        exact .ends o htodo hst ho h.symm
    | probeByte =>
      rcases memRead_cases 1 u with ⟨h1, -⟩ | ⟨-, hc, hl, -⟩ | ⟨-, -, hr⟩ | ⟨-, m, -, hr⟩
      · simp at h1
      · obtain ⟨b, rest, hin⟩ : ∃ b rest, u.input = b :: rest := by
          cases hu : u.input <;> simp_all
        have hf := fetch_probe htodo hst hc hin (decode_one b)
        rw [hf] at h
        exact .probe b rest _ htodo hst hin rfl hf h
      · simp only [fetch, htodo, hst, fetchProbe, hr] at h
        injection h with h
        exact .holds htodo (.inl hst) h.symm
      · simp only [fetch, htodo, hst, fetchProbe, hr] at h
        injection h with h
        exact .fails _ htodo (.inl hst) h.symm
    | readCode3 =>
      rcases memRead_cases 3 u with ⟨h1, -⟩ | ⟨-, hc, hl, hr⟩ | ⟨-, -, hr⟩ | ⟨-, m, -, hr⟩
      · simp at h1
      · obtain ⟨b1, b2, b3, rest, hin⟩ : ∃ b1 b2 b3 rest, u.input = b1 :: b2 :: b3 :: rest := by
          rcases hu : u.input with _ | ⟨b1, _ | ⟨b2, _ | ⟨b3, rest⟩⟩⟩ <;> simp_all
        by_cases hk : u.k = sentinel
        · have hf := fetch_window htodo hst hc hin (decode_three hk b1 b2 b3)
          rw [hf] at h
          exact .window b1 b2 b3 rest _ htodo hst hk hin rfl hf h
        · simp [fetch, htodo, hst, fetchWindow, hr, verdict, decode, hk] at h
      · simp only [fetch, htodo, hst, fetchWindow, hr] at h
        injection h with h
        exact .holds htodo (.inr (.inl hst)) h.symm
      · simp only [fetch, htodo, hst, fetchWindow, hr] at h
        injection h with h
        exact .fails _ htodo (.inr (.inl hst)) h.symm
    | readCode4 =>
      rcases memRead_cases 1 u with ⟨h1, -⟩ | ⟨-, hc, hl, hr⟩ | ⟨-, -, hr⟩ | ⟨-, m, -, hr⟩
      · simp at h1
      · obtain ⟨b, rest, hin⟩ : ∃ b rest, u.input = b :: rest := by
          cases hu : u.input <;> simp_all
        by_cases hk : u.k = sentinel
        · by_cases hn : needsFourth u.c1 u.c2 u.c3 = true
          · have hf := fetch_fourth htodo hst hc hin (decode_four hk hn b)
            rw [hf] at h
            exact .fourth b rest _ htodo hst hk hn hin rfl hf h
          · simp [fetch, htodo, hst, fetchFourth, hr, verdict, decode, hk, hn] at h
        · simp [fetch, htodo, hst, fetchFourth, hr, verdict, decode, hk] at h
      · simp only [fetch, htodo, hst, fetchFourth, hr] at h
        injection h with h
        exact .holds htodo (.inr (.inr hst)) h.symm
      · simp only [fetch, htodo, hst, fetchFourth, hr] at h
        injection h with h
        exact .fails _ htodo (.inr (.inr hst)) h.symm

end Sys2Proof.Machine
end

