-- ==== Sys2Proof/Laws/Table.lean ====
section
/-! SUPPORT. Header words byte by byte: joined bytes are equal, and masked, place by place, so that matching a row of the opcode
table (30_encoding.md rule R82) becomes a question about bytes. -/

namespace Sys2Proof

/-- Joined words are equal when their parts are. -/
theorem append_inj {m n : Nat} {a c : BitVec m} {b d : BitVec n} : a ++ b = c ++ d ↔ a = c ∧ b = d := by
  constructor
  · intro h
    have hl := congrArg (fun x : BitVec (m + n) => x.extractLsb' n m) h
    have hr := congrArg (fun x : BitVec (m + n) => x.extractLsb' 0 n) h
    simp only [BitVec.extractLsb'_append_eq_left, BitVec.extractLsb'_append_eq_right] at hl hr
    exact ⟨hl, hr⟩
  · rintro ⟨rfl, rfl⟩
    rfl

/-- A masked joined word matches when its parts do. -/
theorem append_matches {m n : Nat} (a ma pa : BitVec m) (b mb pb : BitVec n) :
    (a ++ b) &&& (ma ++ mb) = pa ++ pb ↔ a &&& ma = pa ∧ b &&& mb = pb := by
  rw [BitVec.and_append, append_inj]

end Sys2Proof
end

