-- ==== Sys2Proof/Tests/Slice0.lean ====
section
/-! SUPPORT. The model's own tests, and a witness for the hypotheses of every statement. Expected results are those of
spec/95_test_vectors.md (V..., P...) or written out from the rule named. -/

namespace Sys2Proof.Tests

open Sys2Proof.Machine

/-! ### Helpers -/

/-- Parameters of a test build: `HEX_CASE = upper`, `STOP_VARIANT = plain`, `OUT_CAPACITY` unbounded (95_test_vectors.md). -/
def build (o : ByteOrder) : Config := ⟨o, .upper, .plain, 3, none⟩

/-- A state in `st` with `input` in `IN`, a sentinel in `k`, the indicator on, and three collaborators that return at once, with the
pose of V77. -/
def at' (o : ByteOrder) (st : ParserState) (input : List Byte) : State :=
  { State.reset with
    cfg := build o, st := st, k := 0x21#8, ind := true, input := input
    answers := [⟨[], 0x3F800000#32⟩, ⟨[], 0xC0200000#32⟩, ⟨[], 0x3F000000#32⟩] }

/-- The state an outcome goes on with. -/
def next? : Host.Outcome State Fault Refusal → Option State
  | .next t => some t
  | _ => none

/-- The payload of V70. -/
def poseLE : List Byte :=
  [0x00#8, 0x00#8, 0x80#8, 0x3F#8, 0x00#8, 0x00#8, 0x20#8, 0xC0#8, 0x00#8, 0x00#8, 0x00#8, 0x3F#8]

/-- The payload of V71 and the reply of V77. -/
def poseBE : List Byte :=
  [0x3F#8, 0x80#8, 0x00#8, 0x00#8, 0xC0#8, 0x20#8, 0x00#8, 0x00#8, 0x3F#8, 0x00#8, 0x00#8, 0x00#8]

/-! ### Well-formedness: a term each check refuses -/

theorem test_illformed_probe : (Instr.probe 0x21#8).wellFormed = false := by decide
theorem test_illformed_resync3C2 : (Instr.resync3C2 0x21#8 0x58#8).wellFormed = false := by decide
theorem test_illformed_resync3C3_c1 : (Instr.resync3C3 0x21#8 0x58#8).wellFormed = false := by decide
theorem test_illformed_resync3C3_c2 : (Instr.resync3C3 0x58#8 0x21#8).wellFormed = false := by decide
theorem test_illformed_needC4_sentinel : (Instr.needC4 0x58#8 0x21#8 0x5A#8).wellFormed = false := by decide
theorem test_illformed_needC4_code : (Instr.needC4 0x43#8 0x4C#8 0x52#8).wellFormed = false := by decide
theorem test_illformed_resync4 : (Instr.resync4 0x50#8 0x49#8 0x43#8).wellFormed = false := by decide
theorem test_illformed_invalid_window : (Instr.invalid 0x50#8 0x4F#8 0x53#8 0x51#8).wellFormed = false := by decide
theorem test_illformed_invalid_sentinel : (Instr.invalid 0x58#8 0x59#8 0x5A#8 0x21#8).wellFormed = false := by decide
theorem test_illformed_invalid_code : (Instr.invalid 0x42#8 0x45#8 0x45#8 0x50#8).wellFormed = false := by decide

/-! ### Decoding: a word for every constructor, written out from 30_encoding.md rules R82 to R86 -/

theorem test_decode_frameStart : decodeTableWord 8 0b00100001 = some .frameStart := by decide
theorem test_decode_probe : decodeTableWord 8 0b01000001 = some (.probe 0x41#8) := by decide
theorem test_decode_resync3C1 :
    decodeTableWord 32 0b00100001_00100001_01010000_01001001 = some (.resync3C1 0x50#8 0x49#8) := by decide
theorem test_decode_resync3C2 :
    decodeTableWord 32 0b00100001_01010000_00100001_01011000 = some (.resync3C2 0x50#8 0x58#8) := by decide
theorem test_decode_resync3C3 :
    decodeTableWord 32 0b00100001_01010011_01010100_00100001 = some (.resync3C3 0x53#8 0x54#8) := by decide
theorem test_decode_clr : decodeTableWord 32 0b00100001_01000011_01001100_01010010 = some .clr := by decide
theorem test_decode_pic : decodeTableWord 32 0b00100001_01010000_01001001_01000011 = some .pic := by decide
theorem test_decode_pos : decodeTableWord 32 0b00100001_01010000_01001111_01010011 = some .pos := by decide
theorem test_decode_needC4 :
    decodeTableWord 32 0b00100001_01001101_01001111_01010110 = some (.needC4 0x4D#8 0x4F#8 0x56#8) := by decide
theorem test_decode_resync4 :
    decodeTableWord 40 0b00100001_01001101_01001111_01010110_00100001 = some (.resync4 0x4D#8 0x4F#8 0x56#8) := by decide
theorem test_decode_move : decodeTableWord 40 0b00100001_01001101_01001111_01010110_01000101 = some .move := by decide
theorem test_decode_stop : decodeTableWord 40 0b00100001_01010011_01010100_01001111_01010000 = some .stop := by decide
theorem test_decode_scan : decodeTableWord 40 0b00100001_01010011_01000011_01000001_01001110 = some .scan := by decide
theorem test_decode_beep : decodeTableWord 40 0b00100001_01000010_01000101_01000101_01010000 = some .beep := by decide
/-- V62 and V64: an unmatched window, and matching is case-sensitive. -/
theorem test_decode_invalid :
    decodeTableWord 40 0b00100001_01011000_01011001_01011010_01010001 = some (.invalid 0x58#8 0x59#8 0x5A#8 0x51#8)
      ∧ decodeTableWord 40 0x21636C7258 = some (.invalid 0x63#8 0x6C#8 0x72#8 0x58#8) := by decide
/-- R87: a fourth byte is never read after a three-byte code. -/
theorem test_decode_refuses : decodeTableWord 40 0x2150494354 = none ∧ decodeTableWord 16 0x2121 = none := by decide

/-! ### The codec (V3, V9, V17, V24, V27) -/

theorem test_bytes_of_float :
    bytesOf32 .LE 0x40490FDB#32 = [0xDB#8, 0x0F#8, 0x49#8, 0x40#8]
      ∧ bytesOf32 .BE 0x12345678#32 = [0x12#8, 0x34#8, 0x56#8, 0x78#8] := by decide
theorem test_value_of_float :
    valueOf32 .LE 0x00#8 0x00#8 0x80#8 0x3F#8 = 0x3F800000#32
      ∧ valueOf32 .BE 0x78#8 0x56#8 0x34#8 0x12#8 = 0x78563412#32 := by decide
theorem test_value_of_uint16 :
    valueOf16 .LE 0xB8#8 0x01#8 = 440#16 ∧ valueOf16 .BE 0x01#8 0xB8#8 = 440#16
      ∧ (valueOf16 .LE 0xFF#8 0xFF#8).toNat = 65535 := by decide

/-! ### The probe echo (V30, V37, V44, V45) -/

theorem test_echo_A : echoText .upper 0x41#8 =
    [0x41#8, 0x53#8, 0x43#8, 0x49#8, 0x49#8, 0x20#8, 0x41#8, 0x2C#8, 0x20#8, 0x48#8, 0x65#8, 0x78#8, 0x20#8, 0x34#8, 0x31#8,
      0x2C#8, 0x20#8, 0x44#8, 0x65#8, 0x63#8, 0x20#8, 0x36#8, 0x35#8, 0x2E#8, 0x0D#8, 0x0A#8] := by decide
theorem test_echo_digits :
    hexText .upper 0x00#8 = [0x30#8] ∧ decText 0x00#8 = [0x30#8] ∧ hexText .upper 0xFF#8 = [0x46#8, 0x46#8]
      ∧ decText 0xFF#8 = [0x32#8, 0x35#8, 0x35#8] ∧ hexText .lower 0x6A#8 = [0x36#8, 0x61#8]
      ∧ decText 0x80#8 = [0x31#8, 0x32#8, 0x38#8] ∧ decText 0x64#8 = [0x31#8, 0x30#8, 0x30#8] := by decide
theorem test_probe : (next? (step (at' .LE .probeByte [0x41#8, 0x42#8]))).map
    (fun t => (t.st, t.ind, t.outcome, t.output, t.input)) =
      some (.done, true, some .probeEcho, echoText .upper 0x41#8, [0x42#8]) := by decide
/-- V92: the echo write fails after ten bytes. -/
theorem test_probe_fails :
    (next? (step { at' .LE .probeByte [0x41#8] with faults := [none, some 10] })).map
      (fun t => (t.st, t.ind, t.output, t.trace.getLast?)) =
        some (.idle, true, [0x41#8, 0x53#8, 0x43#8, 0x49#8, 0x49#8, 0x20#8, 0x41#8, 0x2C#8, 0x20#8, 0x48#8],
          some (.fault .out)) := by decide

/-! ### Steering rows (V47, V55, V52, V59, V68, V56) -/

theorem test_frameStart : (next? (step (at' .LE .probeByte [0x21#8, 0x50#8]))).map
    (fun t => (t.st, t.ind, t.input, t.trace)) = some (.readCode3, true, [0x50#8], [.inp 0x21#8]) := by decide
theorem test_resync3C1 : (next? (step (at' .LE .readCode3 [0x21#8, 0x50#8, 0x49#8, 0x43#8]))).map
    (fun t => (t.st, t.ind, t.input, t.output)) = some (.readCode3, true, [0x43#8], []) := by decide
theorem test_resync3C2 : (next? (step (at' .LE .readCode3 [0x50#8, 0x21#8, 0x58#8, 0x50#8]))).map
    (fun t => (t.st, t.trace)) = some (.readCode3, [.inp 0x50#8, .inp 0x21#8, .inp 0x58#8]) := by decide
theorem test_resync3C3 : (next? (step (at' .LE .readCode3 [0x53#8, 0x54#8, 0x21#8, 0x4F#8]))).map
    (fun t => (t.st, t.input)) = some (.readCode3, [0x4F#8]) := by decide
theorem test_needC4 : (next? (step (at' .LE .readCode3 [0x4D#8, 0x4F#8, 0x56#8]))).map
    (fun t => (t.st, t.ind, t.c1, t.c2, t.c3)) = some (.readCode4, true, 0x4D#8, 0x4F#8, 0x56#8) := by decide
theorem test_resync4 :
    (next? (step { at' .LE .readCode4 [0x21#8, 0x50#8] with c1 := 0x4D#8, c2 := 0x4F#8, c3 := 0x56#8 })).map
      (fun t => (t.st, t.ind, t.input, t.output)) = some (.readCode3, true, [0x50#8], []) := by decide

/-! ### Commands -/

/-- V70. -/
theorem test_clr_LE : (next? (step (at' .LE .readCode3 ([0x43#8, 0x4C#8, 0x52#8] ++ poseLE)))).map
    (fun t => (t.st, t.ind, t.input, t.output, t.trace.getLast?)) =
      some (.done, false, [], [], some (.call (.setPose 0x3F800000#32 0xC0200000#32 0x3F000000#32))) := by decide
/-- V74. -/
theorem test_clr_BE : (next? (exec .clr (at' .BE .readCode3 [0x12#8, 0x34#8, 0x56#8, 0x78#8, 0x9A#8, 0xBC#8, 0xDE#8, 0xF0#8,
    0x0F#8, 0xED#8, 0xCB#8, 0xA9#8]))).map (fun t => t.trace.getLast?) =
      some (some (.call (.setPose 0x12345678#32 0x9ABCDEF0#32 0x0FEDCBA9#32))) := by decide
/-- V50, V51: the byte after a three-byte code stays. -/
theorem test_pic : (next? (step (at' .LE .readCode3 [0x50#8, 0x49#8, 0x43#8, 0x54#8]))).map
    (fun t => (t.st, t.ind, t.input, t.output, t.trace)) = some (.done, false, [0x54#8], [],
      [.inp 0x50#8, .inp 0x49#8, .inp 0x43#8, .ind false, .call .capture]) := by decide
/-- V77. -/
theorem test_pos : (next? (step (at' .BE .readCode3 [0x50#8, 0x4F#8, 0x53#8]))).map
    (fun t => (t.st, t.ind, t.output, t.outcome)) = some (.done, false, poseBE, some (.executed .POS)) := by decide
/-- V94: the second send fails after one byte; `get_heading` is not called. -/
theorem test_pos_fails : (next? (exec .pos { at' .BE .readCode3 [] with faults := [none, some 1] })).map
    (fun t => (t.st, t.ind, t.output.length, t.trace.drop 6)) = some (.idle, false, 5,
      [.call (.getY 0xC0200000#32), .out 0xC0#8, .fault .out]) := by decide
/-- R163: bytes taken and given during `MOVE` lie between the call and the end of the action. -/
theorem test_move : (next? (exec .move { at' .LE .readCode4 [1#8, 2#8, 3#8] with
      answers := [⟨[.take 1, .give [7#8], .take 1], 0#32⟩] })).map
    (fun t => (t.st, t.input, t.output, t.trace)) = some (.done, [3#8], [7#8],
      [.ind false, .call .receiveSpeedInstruction, .inp 1#8, .out 7#8, .inp 2#8]) := by decide
/-- R209 (a): the collaborator's failure is the cycle's. -/
theorem test_move_fails : (next? (exec .move { at' .LE .readCode4 [1#8, 2#8, 3#8] with
      answers := [⟨[.take 1, .take 2], 0#32⟩], faults := [none, some 0] })).map
    (fun t => (t.st, t.ind, t.input, t.trace)) = some (.idle, false, [2#8, 3#8],
      [.ind false, .call .receiveSpeedInstruction, .inp 1#8, .fault .inp]) := by decide
/-- V81: under `plain` nothing goes to `OUT`, whatever the collaborator would like. -/
theorem test_stop_plain : (next? (exec .stop { at' .LE .readCode4 [] with answers := [⟨[.give [7#8]], 0#32⟩] })).map
    (fun t => (t.st, t.output, t.trace)) = some (.done, [], [.ind false, .call .stop]) := by decide
/-- R164: under `with_out` the collaborator may write. -/
theorem test_stop_with_out : (next? (exec .stop { at' .LE .readCode4 [] with
      cfg := { build .LE with stopVariant := .withOut }, answers := [⟨[.give [7#8]], 0#32⟩] })).map
    (fun t => (t.st, t.output, t.trace)) = some (.done, [7#8], [.ind false, .call .stopOut, .out 7#8]) := by decide
/-- R206: `SCAN` is not lent `IN`. -/
theorem test_scan : (next? (exec .scan { at' .LE .readCode4 [1#8] with answers := [⟨[.take 1, .give [7#8, 8#8]], 0#32⟩] })).map
    (fun t => (t.st, t.input, t.output)) = some (.done, [1#8], [7#8, 8#8]) := by decide
/-- V82. -/
theorem test_beep_LE : (next? (exec .beep (at' .LE .readCode4 [0xB8#8, 0x01#8]))).map
    (fun t => (t.st, t.ind, t.u0, t.trace)) = some (.done, false, 440#16,
      [.ind false, .inp 0xB8#8, .inp 0x01#8, .call .toneStart, .call (.tonePlay 440#16), .call (.wait 3), .call .toneStop]) := by
  decide
/-- V84, V87: the wrong order is not detected; a short payload holds before any audio call. -/
theorem test_beep_BE_short : (next? (exec .beep (at' .BE .readCode4 [0xB8#8, 0x01#8]))).map (fun t => t.u0) = some 47105#16
    ∧ (next? (exec .beep (at' .LE .readCode4 [0xB8#8]))).map (fun t => (t.st, t.ind, t.input, t.trace)) =
      some (.dispatch, false, [0xB8#8], [.ind false]) := by decide
/-- V62. -/
theorem test_invalid :
    (next? (step { at' .LE .readCode4 [0x51#8] with c1 := 0x58#8, c2 := 0x59#8, c3 := 0x5A#8 })).map
      (fun t => (t.st, t.ind, t.outcome, t.output)) = some (.done, false, some .invalid,
        [0x49#8, 0x4E#8, 0x56#8, 0x41#8, 0x4C#8, 0x49#8, 0x44#8]) := by decide
/-- R68: a full `OUT` holds the rest of the text. -/
theorem test_invalid_holds : (next? (exec (.invalid 0x58#8 0x59#8 0x5A#8 0x51#8) { at' .LE .readCode4 [] with
      cfg := { build .LE with outCapacity := some 3 } })).map (fun t => (t.st, t.output, t.outcome)) =
    some (.dispatch, [0x49#8, 0x4E#8, 0x56#8], none) := by decide

/-! ### Steps that are no instruction (V67, V90, V99) -/

theorem test_start : (next? (step (at' .LE .idle [0x0D#8]))).map (fun t => (t.st, t.ind, t.input, t.trace)) =
    some (.probeByte, true, [0x0D#8], [.start, .ind true]) := by decide
/-- R215: a caller that waits leaves the host's bytes where they are; one that has stopped stays stopped. -/
theorem test_caller_declines :
    (next? (step { at' .LE .idle [1#8] with caller := [.wait, .start], host := [⟨[2#8], 0⟩] })).map
      (fun t => (t.st, t.input, t.trace, t.caller)) = some (.idle, [1#8, 2#8], [], [.start])
    ∧ (next? (step { at' .LE .idle [1#8] with caller := [.stop] })).map (fun t => (t.st, t.trace, t.caller)) =
      some (.idle, [], [.stop]) := by decide
theorem test_window_holds : (next? (step (at' .LE .readCode3 [0x50#8, 0x49#8]))).map (fun t => (t.st, t.input, t.trace)) =
    some (.readCode3, [0x50#8, 0x49#8], []) := by decide
theorem test_first_read_fails : (next? (step { at' .LE .probeByte [0x41#8] with faults := [some 0] })).map
    (fun t => (t.st, t.ind, t.input, t.trace)) = some (.idle, true, [0x41#8], [.fault .inp]) := by decide
theorem test_return : (next? (step { at' .LE .done [0x54#8] with outcome := some (.executed .PIC) })).map
    (fun t => (t.st, t.outcome, t.input, t.trace)) = some (.idle, none, [0x54#8], [.ret (.executed .PIC)]) := by decide
/-- Table words placed in the reset state run at once (log 27). -/
theorem test_placed :
    (next? (step (State.reset.withFetchWord 40 0x2158595A51))).map (fun t => (t.ind, t.output)) = some (false, invalidText)
      ∧ (next? (step (State.reset.withFetchWord 32 0x21504F53))).isSome = true := ⟨by decide, rfl⟩

/-! ### Witnesses: for every statement with hypotheses, states and operands that meet them all -/

/-- The driver fails the next access after one byte. -/
def failing (s : State) : State := { s with faults := [some 1] }

theorem witness_DecodeOfEncode :
    [Instr.frameStart, .probe 0x41#8, .resync3C1 0x21#8 0x00#8, .resync3C2 0x20#8 0xFF#8, .resync3C3 0x22#8 0x00#8, .clr, .pic, .pos,
      .needC4 0x4D#8 0x4F#8 0x56#8, .resync4 0x58#8 0x59#8 0x5A#8, .move, .stop, .scan, .beep,
      .invalid 0x4D#8 0x4F#8 0x56#8 0x65#8].all Instr.wellFormed = true := by decide
theorem witness_EncodeOfDecode : decode [0x21#8, 0x4D#8, 0x4F#8, 0x56#8, 0x45#8] = .ok .move ∧ decode [0x22#8] = .ok (.probe 0x22#8) :=
  ⟨rfl, rfl⟩
theorem witness_DecodeIsFirstTableRow :
    decode [0x21#8, 0x21#8, 0x21#8, 0x21#8] = .ok (.resync3C1 0x21#8 0x21#8)
      ∧ decode [0x21#8, 0x50#8, 0x49#8, 0x43#8] = .ok .pic ∧ decode [0x20#8] = .ok (.probe 0x20#8)
      ∧ decode [0x21#8, 0x50#8, 0x49#8, 0x44#8, 0x21#8] = .ok (.resync4 0x50#8 0x49#8 0x44#8) := ⟨rfl, rfl, rfl, rfl⟩
theorem witness_DecodeRefusesByName :
    decode [0x20#8, 0x50#8, 0x49#8, 0x43#8] = .error (.noSentinel 0x20#8)
      ∧ decode [0x20#8, 0x50#8, 0x49#8, 0x43#8, 0x54#8] = .error (.noSentinel 0x20#8)
      ∧ decode [0x21#8, 0x50#8, 0x49#8, 0x43#8, 0x54#8] = .error (.decidedAtThree 0x50#8 0x49#8 0x43#8)
      ∧ decode [] = .error (.noFormat 0) ∧ decode [0x21#8, 0x21#8] = .error (.noFormat 2) := ⟨rfl, rfl, rfl, rfl, rfl⟩
theorem witness_RoundTripOverStreams :
    let s : State := { at' .LE .dispatch [] with cfg := { build .LE with outCapacity := some 4 } }
    let u := at' .LE .dispatch [0x00#8, 0x00#8, 0x80#8, 0x3F#8, 0x21#8]
    let v := at' .LE .dispatch [0xB8#8, 0x01#8, 0x21#8]
    proceeds 1 s = true ∧ proceeds 1 u = true ∧ u.cfg.byteOrder = s.cfg.byteOrder ∧ roomFor 4 s = true
      ∧ u.input = bytesOf32 s.cfg.byteOrder 0x3F800000#32 ++ [0x21#8]
      ∧ v.input = bytesOf16 s.cfg.byteOrder 440#16 ++ [0x21#8] := by decide
theorem witness_CycleBeginsWithIndicatorOn :
    (failing (at' .LE .idle [])).st = .idle ∧ (at' .LE .idle []).todo = [] ∧ callerChoice (at' .LE .idle []) = .start
      ∧ callerChoice { at' .LE .idle [] with caller := [.start, .stop] } = .start := by decide
theorem witness_DoneReturnsOutcome :
    let s : State := { at' .LE .done [0x54#8] with outcome := some .probeEcho }
    s.st = .done ∧ s.todo = [] ∧ s.outcome = some .probeEcho := by decide
/-- One state for each clause of the statement. -/
theorem witness_StepRunsDecodedInstr :
    ((at' .LE .probeByte [0x21#8]).todo = [] ∧ driverChoice (at' .LE .probeByte [0x21#8]) = none
        ∧ (hostActs (at' .LE .probeByte [0x21#8])).input = 0x21#8 :: [] ∧ decode [0x21#8] = .ok .frameStart)
      ∧ ((hostActs (at' .LE .readCode3 [0x50#8, 0x49#8, 0x43#8])).input = 0x50#8 :: 0x49#8 :: 0x43#8 :: []
        ∧ decode [(at' .LE .readCode3 []).k, 0x50#8, 0x49#8, 0x43#8] = .ok .pic)
      ∧ ((hostActs (at' .LE .readCode4 [0x51#8])).input = 0x51#8 :: []
        ∧ decode [(at' .LE .readCode4 []).k, (at' .LE .readCode4 []).c1, (at' .LE .readCode4 []).c2, (at' .LE .readCode4 []).c3,
            0x51#8] = .ok (.invalid 0x00#8 0x00#8 0x00#8 0x51#8)) :=
  ⟨⟨rfl, rfl, rfl, rfl⟩, ⟨rfl, rfl⟩, ⟨rfl, rfl⟩⟩
theorem witness_PlacedWordRuns : decodeTableWord 8 0x21 = some .frameStart ∧ decodeTableWord 32 0x21434C52 = some .clr
    ∧ decodeTableWord 40 0x214D4F5645 = some .move := by decide
theorem witness_ProbeByteDecides :
    let s := at' .LE .probeByte [0x21#8]
    s.st = .probeByte ∧ s.todo = [] ∧ driverChoice s = none ∧ (hostActs s).input = 0x21#8 :: []
      ∧ (hostActs (at' .LE .probeByte [0x20#8])).input = 0x20#8 :: [] := by decide
theorem witness_SentinelInWindowResyncs :
    let s := at' .LE .readCode3 [0x50#8, 0x49#8, 0x21#8]
    s.st = .readCode3 ∧ s.todo = [] ∧ s.k = sentinel ∧ driverChoice s = none
      ∧ (hostActs s).input = 0x50#8 :: 0x49#8 :: 0x21#8 :: [] ∧ (0x21#8 : Byte) = sentinel := by decide
theorem witness_ThreeByteWindowDecides :
    let s := at' .LE .readCode3 [0x50#8, 0x49#8, 0x43#8, 0x21#8]
    s.st = .readCode3 ∧ s.todo = [] ∧ s.k = sentinel ∧ driverChoice s = none
      ∧ (hostActs s).input = 0x50#8 :: 0x49#8 :: 0x43#8 :: [0x21#8] ∧ (0x50#8 : Byte) ≠ sentinel ∧ (0x49#8 : Byte) ≠ sentinel
      ∧ (0x43#8 : Byte) ≠ sentinel := by decide
theorem witness_FourthByteDecides :
    let s : State := { at' .LE .readCode4 [0x45#8] with c1 := 0x4D#8, c2 := 0x4F#8, c3 := 0x56#8 }
    s.st = .readCode4 ∧ s.todo = [] ∧ s.k = sentinel ∧ needsFourth s.c1 s.c2 s.c3 = true ∧ driverChoice s = none
      ∧ (hostActs s).input = 0x45#8 :: [] := by decide
theorem witness_ProbeEchoesAndEnds :
    let s : State := { at' .LE .probeByte [] with cfg := { build .LE with outCapacity := some 27 } }
    proceeds 1 s = true ∧ roomFor (echoText s.cfg.hexCase 0xFF#8).length s = true := by decide
theorem witness_EchoTextLength :
    ([0x09#8, 0x0A#8, 0x0F#8, 0x10#8, 0x63#8, 0x64#8] : List Byte).map (fun k => (echoText .upper k).length) =
      [24, 25, 25, 26, 26, 27] := by decide
/-- Both sides of the letters' border, in both cases (R133). -/
theorem witness_EchoTextFields :
    (9 < 10 ∧ (hexDigit .upper 9).toNat = 0x39) ∧ (10 ≤ 10 ∧ 10 < 16 ∧ (hexDigit .upper 10).toNat = 0x41)
      ∧ (15 < 16 ∧ (hexDigit .lower 15).toNat = 0x66) ∧ (decDigit 9).toNat = 0x39 := by decide
theorem witness_ClrSetsReceivedPose :
    let s := at' .LE .readCode3 (poseLE ++ [0x21#8])
    proceeds 3 s = true ∧ returnsAtOnce (nextAnswer s) = true
      ∧ s.input = 0x00#8 :: 0x00#8 :: 0x80#8 :: 0x3F#8 :: 0x00#8 :: 0x00#8 :: 0x20#8 :: 0xC0#8 :: 0x00#8 :: 0x00#8 :: 0x00#8
          :: 0x3F#8 :: [0x21#8] := by decide
theorem witness_PicCapturesOnly : returnsAtOnce (nextAnswer (at' .LE .readCode3 [])) = true := by decide
theorem witness_PosSendsCurrentPose :
    let s : State := { at' .BE .readCode3 [] with cfg := { build .BE with outCapacity := some 12 } }
    proceeds 3 s = true ∧ roomFor 12 s = true ∧ returnsAtOnce (nextAnswer s) = true
      ∧ returnsAtOnce (nextAnswer (useAnswer s)) = true
      ∧ returnsAtOnce (nextAnswer (useAnswer (useAnswer s))) = true := by decide
theorem witness_MoveLendsBothStreams :
    let s : State := { at' .LE .readCode4 [1#8, 2#8] with answers := [⟨[.take 1, .give [7#8], .take 1], 0#32⟩] }
    returnsAtOnce (nextAnswer s) = true ∧ proceeds (accessCount (nextAnswer s).acts) s = true
      ∧ takenBytes (nextAnswer s).acts ≤ s.input.length ∧ roomFor (givenBytes (nextAnswer s).acts).length s = true := by decide
/-- One state for each clause. -/
theorem witness_StopFollowsItsVariant :
    (returnsAtOnce (nextAnswer (at' .LE .readCode4 [])) = true ∧ (at' .LE .readCode4 []).cfg.stopVariant = .plain)
      ∧ (let s : State := { at' .LE .readCode4 [] with
          cfg := { build .LE with stopVariant := .withOut, outCapacity := some 2 }, answers := [⟨[.give [7#8, 8#8], .take 1], 0#32⟩] };
        returnsAtOnce (nextAnswer s) = true ∧ s.cfg.stopVariant = .withOut
          ∧ proceeds (accessCount (lentActs .withOut .stop (nextAnswer s).acts)) s = true
          ∧ roomFor (givenBytes (lentActs .withOut .stop (nextAnswer s).acts)).length s = true) := by decide
theorem witness_ScanLendsOutput :
    let s : State := { at' .LE .readCode4 [1#8] with answers := [⟨[.take 9, .give [7#8, 8#8]], 0#32⟩] }
    returnsAtOnce (nextAnswer s) = true
      ∧ proceeds (accessCount (lentActs s.cfg.stopVariant .scan (nextAnswer s).acts)) s = true
      ∧ roomFor (givenBytes (lentActs s.cfg.stopVariant .scan (nextAnswer s).acts)).length s = true := by decide
theorem witness_BeepPlaysReceivedFrequency :
    let s := at' .LE .readCode4 [0xB8#8, 0x01#8]
    proceeds 1 s = true ∧ s.input = 0xB8#8 :: 0x01#8 :: [] ∧ returnsAtOnce (nextAnswer s) = true
      ∧ returnsAtOnce (nextAnswer (useAnswer s)) = true
      ∧ returnsAtOnce (nextAnswer (useAnswer (useAnswer s))) = true := by decide
theorem witness_InvalidWritesText :
    let s : State := { at' .LE .readCode4 [] with cfg := { build .LE with outCapacity := some 7 } }
    proceeds 1 s = true ∧ roomFor 7 s = true := by decide
theorem witness_RegisterFrameOfEveryInstr :
    ∃ t, exec .beep (at' .LE .readCode4 [0xB8#8, 0x01#8]) = .next t ∧ Instr.beep ≠ .clr ∧ Instr.beep ≠ .pos
      ∧ ∃ t', exec .clr (at' .LE .readCode3 poseLE) = .next t' ∧ Instr.clr ≠ .beep :=
  ⟨_, rfl, by decide, by decide, _, rfl, by decide⟩
theorem witness_StreamFrameOfEveryInstr :
    ∃ t, exec .pic (at' .LE .readCode3 [1#8]) = .next t ∧ mayTakeInput .pic = false
      ∧ mayGiveOutput (at' .LE .readCode3 [1#8]).cfg.stopVariant .pic = false :=
  ⟨_, rfl, by decide, by decide⟩
theorem witness_CallsOnlyOfTheirCommand : ∃ t, exec .pic (at' .LE .readCode3 []) = .next t ∧ Event.call .capture ∈ t.trace :=
  ⟨_, rfl, by decide⟩
/-- One state for each clause, at the largest number of bytes that still holds. -/
theorem witness_HeaderReadHolds :
    ((at' .LE .probeByte []).todo = [] ∧ driverChoice (at' .LE .probeByte []) = none
        ∧ (hostActs (at' .LE .probeByte [])).input = [])
      ∧ (hostActs (at' .LE .readCode4 [])).input = [] ∧ (hostActs (at' .LE .readCode3 [0x50#8, 0x49#8])).input.length < 3 := by
  decide
theorem witness_HeaderReadFails :
    (failing (at' .LE .probeByte [0x41#8])).todo = [] ∧ driverChoice (failing (at' .LE .probeByte [0x41#8])) = some 1
      ∧ (failing (at' .LE .readCode4 [0x41#8])).st = .readCode4 ∧ (failing (at' .LE .readCode3 [])).st = .readCode3 := by decide
theorem witness_FailureEndsTheAction :
    (∃ t, exec .clr (failing (at' .LE .readCode3 poseLE)) = .next t ∧ t.trace.getLast? = some (.fault .inp))
      ∧ ∃ t, exec (.probe 0x41#8) { at' .LE .idle [] with cfg := { build .LE with outCapacity := some 0 } } = .next t ∧ t.st = .idle :=
  ⟨⟨_, rfl, by decide⟩, ⟨_, rfl, by decide⟩⟩
/-- The first, the second and the third read fail. -/
theorem witness_ClrPayloadFailure :
    [0, 1, 2].all (fun j =>
      let s : State := { at' .LE .readCode3 poseLE with faults := List.replicate j none ++ [some 9] }
      proceeds j s && (s.faults[j]? == some (some 9)) && decide (4 * j ≤ s.input.length)) = true := by decide
/-- The first, the second and the third send fails, `OUT` having just the places up to its end. -/
theorem witness_PosReplyFailure :
    [0, 1, 2].all (fun j =>
      let s : State := { at' .BE .readCode3 [] with
        cfg := { build .BE with outCapacity := some (4 * j + 4) }, faults := List.replicate j none ++ [some 1] }
      ([(Call.getX 0x3F800000#32, bytesOf32 .BE 0x3F800000#32), (.getY 0xC0200000#32, bytesOf32 .BE 0xC0200000#32),
          (.getHeading 0x3F000000#32, bytesOf32 .BE 0x3F000000#32)])[j]?.isSome
        && ((nextAnswer s).result == 0x3F800000#32) && ((nextAnswer (useAnswer (useAnswer s))).result == 0x3F000000#32)
        && proceeds j s && (s.faults[j]? == some (some 1)) && roomFor (4 * j + 4) s && returnsAtOnce (nextAnswer s)
        && returnsAtOnce (nextAnswer (useAnswer s)) && returnsAtOnce (nextAnswer (useAnswer (useAnswer s)))) = true := by decide
theorem witness_ShortClrPayloadHolds :
    proceeds 3 (at' .LE .readCode3 (poseLE.take 11)) = true ∧ (at' .LE .readCode3 (poseLE.take 11)).input.length < 12
      ∧ (at' .LE .readCode3 []).input.length < 12 := by decide
theorem witness_PayloadInTwoPartsIsTheSame :
    (Instr.clr = .clr ∧ (poseLE.take 11).length < 12) ∧ (Instr.beep = .beep ∧ ([0xB8#8] : List Byte).length < 2) := by decide
theorem witness_FullOutputHoldsThenCompletes :
    (let s : State := { at' .LE .readCode4 [] with cfg := { build .LE with outCapacity := some 6 } };
      s.cfg.outCapacity = some 6 ∧ s.faults = [] ∧ s.output.length ≤ 6 ∧ 6 < s.output.length + 7
        ∧ 7 ≤ (6 - s.output.length) + 1 ∧ 1 ≤ 6)
      ∧ (let s : State := { at' .LE .readCode4 [] with
          cfg := { build .LE with outCapacity := some 7 }, output := List.replicate 7 0#8 };
        s.output.length ≤ 7 ∧ 7 < s.output.length + 7 ∧ 7 ≤ (7 - s.output.length) + 7) := by decide
/-- Every call of every command, the earlier ones returning at once; a hang at once but for `MOVE`, where it comes after acts. -/
theorem witness_HangingCallHoldsForEver :
    ([(.clr, 0, .setPose), (.pic, 0, .capture), (.pos, 0, .getX), (.pos, 1, .getY), (.pos, 2, .getHeading), (.stop, 0, .stop),
        (.scan, 0, .scan), (.beep, 0, .toneStart), (.beep, 1, .tonePlay), (.beep, 2, .toneStop)] :
      List (Instr × Nat × Port)).all (fun q =>
        let s : State := { at' .LE .readCode4 poseLE with
          answers := List.replicate q.2.1 ⟨[], 0#32⟩ ++ [⟨[.hang], 0#32⟩] }
        ((portsOf q.1)[q.2.1]? == some q.2.2)
          && (List.range q.2.1).all (fun l => returnsAtOnce (answerAt l s)) && ((answerAt q.2.1 s).acts == [] ++ .hang :: [])
          && proceeds (accessesBefore q.1 q.2.1 + 0) s && decide (payloadLength q.1 + 0 ≤ s.input.length)
          && roomFor (repliedBefore q.1 q.2.1 + 0) s) = true
      ∧ (let s : State := { at' .LE .readCode4 [1#8] with answers := [⟨[.take 1, .give [7#8], .hang, .take 1], 0#32⟩] };
        let acts := lentActs s.cfg.stopVariant .receiveSpeedInstruction [.take 1, .give [7#8]];
        (portsOf .move)[0]? = some .receiveSpeedInstruction
          ∧ (answerAt 0 s).acts = [.take 1, .give [7#8]] ++ .hang :: [.take 1]
          ∧ proceeds (accessesBefore .move 0 + accessCount acts) s = true
          ∧ payloadLength .move + takenBytes acts ≤ s.input.length
          ∧ roomFor (repliedBefore .move 0 + (givenBytes acts).length) s = true) := by decide
/-- The events of V82 up to its last call. -/
theorem test_eventsBefore :
    eventsBefore .beep 2 (at' .LE .readCode4 [0xB8#8, 0x01#8]) =
      [.ind false, .inp 0xB8#8, .inp 0x01#8, .call .toneStart, .call (.tonePlay 440#16), .call (.wait 3)] := by decide
/-- A call that lingers and takes a byte before it hangs, and one that hangs already. -/
theorem witness_CallWithHangNeverReturns :
    let rest : List Op := [.finish (.executed .MOVE)]
    let acts : List Act := [.linger, .take 1, .hang]
    let s : State := { at' .LE .dispatch [1#8] with todo := .during .receiveSpeedInstruction acts 0#32 :: rest }
    s.todo = .during .receiveSpeedInstruction acts 0#32 :: rest ∧ .hang ∈ acts
      ∧ ([.hang, .take 1] : List Act).head? = some .hang := by decide
/-- Both clauses: the caller retries, or waits, or has stopped; the same states serve ResetLeavesStreams. -/
theorem witness_NextCycleAfterFailure :
    callerChoice (at' .LE .dispatch [1#8]) = .start ∧ callerChoice { at' .LE .dispatch [] with caller := [.wait] } ≠ .start
      ∧ callerChoice { at' .LE .dispatch [] with caller := [.stop] } ≠ .start := by decide
theorem witness_ResetLeavesStreams :
    callerChoice (at' .LE .readCode3 [1#8]) = .start ∧ callerChoice { at' .LE .readCode3 [] with caller := [.stop] } ≠ .start := by
  decide
/-- One state for each clause. -/
theorem witness_CallerMayDeclineToInvoke :
    (let s : State := { at' .LE .idle [1#8] with caller := [.wait, .start], host := [⟨[2#8], 0⟩] };
      s.st = .idle ∧ s.todo = [] ∧ callerChoice s ≠ .start)
      ∧ (let s : State := { at' .LE .idle [1#8] with caller := [.stop] };
        s.st = .idle ∧ s.todo = [] ∧ callerChoice s = .stop) := by decide
theorem witness_ResyncHasNoBound :
    let windows : List (Byte × Byte × Byte) := [(0x21#8, 0x21#8, 0x21#8), (0x50#8, 0x21#8, 0x58#8)]
    let s := at' .LE .readCode3 ([0x21#8, 0x21#8, 0x21#8, 0x50#8, 0x21#8, 0x58#8] ++ [0x50#8, 0x49#8])
    s.st = .readCode3 ∧ s.todo = [] ∧ s.k = sentinel ∧ s.host = [] ∧ s.faults = []
      ∧ (∀ w ∈ windows, w.1 = sentinel ∨ w.2.1 = sentinel ∨ w.2.2 = sentinel)
      ∧ s.input = windows.flatMap (fun w => [w.1, w.2.1, w.2.2]) ++ [0x50#8, 0x49#8]
      ∧ ([0x50#8, 0x49#8] : List Byte).length < 3 :=
  ⟨rfl, rfl, rfl, rfl, rfl, by simp [sentinel], rfl, by decide⟩
theorem witness_SentinelRunThenCodeRuns :
    let s := at' .LE .idle (List.replicate (3 * 1) sentinel ++ (encode .pic ++ [0x54#8]))
    s.st = .idle ∧ s.todo = [] ∧ callerChoice s = .start ∧ s.host = [] ∧ s.faults = []
      ∧ s.input = List.replicate (3 * 1) sentinel ++ (encode .pic ++ [0x54#8]) := by decide
theorem witness_ExtraSentinelShiftsWindow :
    let s := at' .LE .idle ([0x21#8, 0x21#8, 0x50#8, 0x49#8, 0x43#8] ++ [0x50#8])
    s.st = .idle ∧ s.todo = [] ∧ callerChoice s = .start ∧ s.host = [] ∧ s.faults = []
      ∧ s.input = [0x21#8, 0x21#8, 0x50#8, 0x49#8, 0x43#8] ++ [0x50#8] := by decide
/-- Both clauses: V58's header ends in a command, V67's runs out of bytes. -/
theorem witness_ListenCycleFollowsProcedure :
    (let body : List Byte := [0x42#8, 0x45#8, 0x45#8, 0x21#8, 0x42#8, 0x45#8, 0x45#8, 0x50#8, 0xB8#8, 0x01#8];
      (at' .LE .idle (0x21#8 :: body)).input = 0x21#8 :: body ∧ callerChoice (at' .LE .idle (0x21#8 :: body)) = .start
        ∧ (at' .LE .idle (0x21#8 :: body)).host = []
        ∧ acquire body = some ⟨.beep, [0xB8#8, 0x01#8], 0, 1⟩)
      ∧ acquire [0x50#8, 0x49#8] = none ∧ acquire [0x21#8, 0x21#8, 0x21#8, 0x4D#8, 0x4F#8, 0x56#8] = none := by decide

/-- A state that listens meets the invariant. -/
theorem inv_listening (input : List Byte) : Inv (at' .LE .readCode3 input) where
  sentinelInK _ := rfl
  windowUndecided h := by cases h
  indicatorOn _ := rfl
  indicatorOff h := by cases h
  outcomeInDone := rfl
  actionInDispatch h := by cases h
  todoInAction h := absurd rfl h
  todoFinishes h := absurd rfl h
  withinCapacity c h := by cases h

theorem witness_StepKeepsInv :
    Inv (at' .LE .readCode3 [0x50#8, 0x49#8, 0x43#8]) ∧ ∃ t, step (at' .LE .readCode3 [0x50#8, 0x49#8, 0x43#8]) = .next t :=
  ⟨inv_listening _, _, rfl⟩
theorem witness_StepNeverStops : Inv (at' .LE .readCode3 []) := inv_listening _
theorem witness_StreamsAreLossless : ∃ t, step (at' .LE .readCode3 [0x50#8, 0x4F#8, 0x53#8]) = .next t ∧ t.output ≠ [] :=
  ⟨_, rfl, by decide⟩
theorem witness_StepKeepsCyclesBalanced :
    let s : State := { at' .LE .readCode3 [] with trace := [.start, .ind true] }
    cyclesBegun s.trace = cyclesEnded s.trace + 1 ∧ s.st ≠ .idle ∧ ∃ t, step s = .next t := ⟨rfl, by decide, _, rfl⟩
theorem witness_StepKeepsLastRequest :
    let s : State := { at' .LE .readCode3 [0x50#8, 0x49#8, 0x43#8] with trace := [.start, .ind true] }
    lastRequest s.trace = some true ∧ s.ind = true ∧ ∃ t, step s = .next t := ⟨rfl, rfl, _, rfl⟩
/-- Both clauses: the start of a cycle asks on, a command asks off. -/
theorem witness_IndicatorRequestsOnlyThere :
    (∃ t, step (at' .LE .idle []) = .next t ∧ Event.ind true ∈ t.trace)
      ∧ ∃ t, step (at' .LE .readCode3 [0x50#8, 0x49#8, 0x43#8]) = .next t ∧ Event.ind false ∈ t.trace :=
  ⟨⟨_, rfl, by decide⟩, ⟨_, rfl, by decide⟩⟩
theorem witness_RegistersAreDeadBetweenCycles :
    let s := at' .LE .idle []
    let s' : State := { s with k := 7#8, c4 := 9#8, f1 := 3#32, u0 := 5#16 }
    s.st = .idle ∧ s.todo = [] ∧ s.k ≠ s'.k ∧ eraseRegisters s = eraseRegisters s' := ⟨rfl, rfl, by decide, rfl⟩
theorem witness_StepKeepsParameters : ∃ t, step (at' .BE .idle []) = .next t := ⟨_, rfl⟩

end Sys2Proof.Tests
end

section
/-! Proofs: `bytes_of` and `value_of` are inverse to each other (20_memory.md rules R57, R58). The two byte orders name the same
slices in opposite sequence, so each direction rests on one fact per width about slices and concatenation. -/

namespace Sys2Proof.Machine

theorem append_slices16 (v : Half) : v.extractLsb' 8 8 ++ v.extractLsb' 0 8 = v :=
  BitVec.extractLsb'_append_extractLsb' (w := 8) (len := 8)

/-- Adjacent slices merge from the most significant end downwards. -/
theorem append_slices32 (v : Pattern) :
    v.extractLsb' 24 8 ++ v.extractLsb' 16 8 ++ v.extractLsb' 8 8 ++ v.extractLsb' 0 8 = v := by
  have upper : v.extractLsb' 24 8 ++ v.extractLsb' 16 8 = v.extractLsb' 16 16 :=
    BitVec.extractLsb'_append_extractLsb'_eq_extractLsb' rfl
  have upper3 : v.extractLsb' 16 16 ++ v.extractLsb' 8 8 = v.extractLsb' 8 24 :=
    BitVec.extractLsb'_append_extractLsb'_eq_extractLsb' rfl
  rw [upper, upper3]
  exact BitVec.extractLsb'_append_extractLsb' (w := 24) (len := 8)

/-- A slice above the low byte of a concatenation is a slice of the part before that byte. -/
theorem extractLsb'_append_byte {w : Nat} (hi : BitVec w) (lo : Byte) (start len : Nat) :
    (hi ++ lo).extractLsb' (start + 8) len = hi.extractLsb' start len := by
  rw [BitVec.extractLsb'_append_eq_of_le (Nat.le_add_left 8 start), Nat.add_sub_cancel]

theorem slices32_append (b3 b2 b1 b0 : Byte) :
    (b3 ++ b2 ++ b1 ++ b0).extractLsb' 24 8 = b3 ∧ (b3 ++ b2 ++ b1 ++ b0).extractLsb' 16 8 = b2
      ∧ (b3 ++ b2 ++ b1 ++ b0).extractLsb' 8 8 = b1 ∧ (b3 ++ b2 ++ b1 ++ b0).extractLsb' 0 8 = b0 := by
  refine ⟨?_, ?_, ?_, BitVec.extractLsb'_append_eq_right⟩
  · rw [extractLsb'_append_byte _ _ 16, extractLsb'_append_byte _ _ 8, BitVec.extractLsb'_append_eq_left]
  · rw [extractLsb'_append_byte _ _ 8, extractLsb'_append_byte _ _ 0, BitVec.extractLsb'_append_eq_right]
  · rw [extractLsb'_append_byte _ _ 0, BitVec.extractLsb'_append_eq_right]

theorem exists_bytesOf16_valueOf16 (o : ByteOrder) (v : Half) :
    ∃ b0 b1, bytesOf16 o v = [b0, b1] ∧ valueOf16 o b0 b1 = v := by
  cases o <;> exact ⟨_, _, rfl, append_slices16 v⟩

theorem exists_bytesOf32_valueOf32 (o : ByteOrder) (v : Pattern) :
    ∃ b0 b1 b2 b3, bytesOf32 o v = [b0, b1, b2, b3] ∧ valueOf32 o b0 b1 b2 b3 = v := by
  cases o <;> exact ⟨_, _, _, _, rfl, append_slices32 v⟩

@[simp] theorem bytesOf16_valueOf16 (o : ByteOrder) (b0 b1 : Byte) : bytesOf16 o (valueOf16 o b0 b1) = [b0, b1] := by
  cases o <;> simp only [bytesOf16, valueOf16, BitVec.extractLsb'_append_eq_left, BitVec.extractLsb'_append_eq_right]

@[simp] theorem bytesOf32_valueOf32 (o : ByteOrder) (b0 b1 b2 b3 : Byte) :
    bytesOf32 o (valueOf32 o b0 b1 b2 b3) = [b0, b1, b2, b3] := by
  cases o
  case LE =>
    obtain ⟨h3, h2, h1, h0⟩ := slices32_append b3 b2 b1 b0
    simp only [bytesOf32, valueOf32, h0, h1, h2, h3]
  case BE =>
    obtain ⟨h0, h1, h2, h3⟩ := slices32_append b0 b1 b2 b3
    simp only [bytesOf32, valueOf32, h0, h1, h2, h3]

/-- Settles O6: `value_of` as written is its definition; the inverse laws hold at both widths, in both byte orders. -/
theorem valueOfInvertsBytesOf : Obligations.ValueOfInvertsBytesOf :=
  ⟨fun _ _ => ⟨rfl, rfl⟩, fun _ _ _ _ => ⟨rfl, rfl⟩, exists_bytesOf16_valueOf16, exists_bytesOf32_valueOf32,
    bytesOf16_valueOf16, bytesOf32_valueOf32⟩

end Sys2Proof.Machine
end

section
/-! Proofs: the decisions of the parser on the bytes it has read, and the return from `Done` (41_parser.md rules R134 to R140). A
step whose header read goes through is `exec` of the verdict, for every host and driver; `exec` of a verdict follows the decision
chain of R86 arm by arm. -/

namespace Sys2Proof.Machine

/-! ### Steps of any environment in which the header read goes through -/

theorem step_of_fetch_run {s t : State} {i : Instr} (h : fetch (hostActs s) = .run i t) : step s = exec i t := by
  unfold step
  rw [h]

theorem step_of_fetch_advance {s t : State} (h : fetch (hostActs s) = .advance t) : step s = .next t := by
  unfold step
  rw [h]

theorem step_reads_probe {s : State} {b : Byte} {rest : List Byte} (hs : s.st = .probeByte) (h0 : s.todo = [])
    (hc : driverChoice s = none) (hi : (hostActs s).input = b :: rest) :
    step s = exec (decodeP1 b) { hostActs s with
      k := b, input := rest, faults := s.faults.tail, trace := s.trace ++ [.inp b] } :=
  step_of_fetch_run (fetch_probe h0 hs hc hi (decode_one b))

theorem step_reads_window {s : State} {b1 b2 b3 : Byte} {rest : List Byte} (hs : s.st = .readCode3) (h0 : s.todo = [])
    (hk : s.k = sentinel) (hc : driverChoice s = none) (hi : (hostActs s).input = b1 :: b2 :: b3 :: rest) :
    step s = exec (decodeF3 b1 b2 b3) { hostActs s with
      c1 := b1, c2 := b2, c3 := b3, input := rest, faults := s.faults.tail
      trace := s.trace ++ [.inp b1, .inp b2, .inp b3] } :=
  step_of_fetch_run (fetch_window h0 hs hc hi (decode_three hk b1 b2 b3))

theorem step_reads_fourth {s : State} {b : Byte} {rest : List Byte} (hs : s.st = .readCode4) (h0 : s.todo = [])
    (hk : s.k = sentinel) (hn : needsFourth s.c1 s.c2 s.c3 = true) (hc : driverChoice s = none)
    (hi : (hostActs s).input = b :: rest) :
    step s = exec (decodeF4 s.c1 s.c2 s.c3 b) { hostActs s with
      c4 := b, input := rest, faults := s.faults.tail, trace := s.trace ++ [.inp b] } :=
  step_of_fetch_run (fetch_fourth h0 hs hc hi (decode_four hk hn b))

/-! ### What `exec` of a verdict is -/

theorem exec_decodeP1 (b : Byte) (t : State) :
    exec (decodeP1 b) t = if b = sentinel then .next (goto .readCode3 t) else exec (.probe b) t :=
  apply_ite (exec · t) (b = sentinel) .frameStart (.probe b)

theorem exec_decodeF3_of_ne {b1 b2 b3 : Byte} (h1 : b1 ≠ sentinel) (h2 : b2 ≠ sentinel) (h3 : b3 ≠ sentinel) (t : State) :
    exec (decodeF3 b1 b2 b3) t =
      if [b1, b2, b3] = codeCLR then exec .clr t
      else if [b1, b2, b3] = codePIC then exec .pic t
      else if [b1, b2, b3] = codePOS then exec .pos t
      else .next (goto .readCode4 t) := by
  have undecided : exec (.needC4 b1 b2 b3) t = .next (goto .readCode4 t) := rfl
  simp only [decodeF3, if_neg h1, if_neg h2, if_neg h3, apply_ite (exec · t), undecided]

theorem exec_decodeF4 (c1 c2 c3 b : Byte) (t : State) :
    exec (decodeF4 c1 c2 c3 b) t =
      if b = sentinel then .next (goto .readCode3 t)
      else if [c1, c2, c3, b] = codeMOVE then exec .move t
      else if [c1, c2, c3, b] = codeSTOP then exec .stop t
      else if [c1, c2, c3, b] = codeSCAN then exec .scan t
      else if [c1, c2, c3, b] = codeBEEP then exec .beep t
      else exec (.invalid c1 c2 c3 b) t := by
  have resyncs : exec (.resync4 c1 c2 c3) t = .next (goto .readCode3 t) := rfl
  simp only [decodeF4, apply_ite (exec · t), resyncs]

/-! ### `Done` -/

theorem fetch_done {u : State} {o : CycleOutcome} (h0 : u.todo = []) (hs : u.st = .done) (ho : u.outcome = some o) :
    fetch u = .advance (returnToCaller o u) := by
  simp only [fetch, h0, hs, ho]

/-! ### The obligations -/

/-- Settles O10: `RET` is the one transition of `Done`, and nothing of it touches `IN`. -/
theorem doneReturnsOutcome : Obligations.DoneReturnsOutcome :=
  fun _ _ hs h0 ho => step_of_fetch_advance (fetch_done h0 hs ho)

/-- Settles O14: order 1 of R86 on the byte read. -/
theorem probeByteDecides : Obligations.ProbeByteDecides := by
  intro s b rest hs h0 hc hi t
  exact (step_reads_probe hs h0 hc hi).trans (exec_decodeP1 b t)

/-- Settles O16: orders 2 and 3 of R86 on a window without a sentinel. -/
theorem threeByteWindowDecides : Obligations.ThreeByteWindowDecides := by
  intro s b1 b2 b3 rest hs h0 hk hc hi h1 h2 h3 t
  exact (step_reads_window hs h0 hk hc hi).trans (exec_decodeF3_of_ne h1 h2 h3 t)

/-- Settles O17: orders 4 to 6 of R86 on the four bytes of an undecided window. -/
theorem fourthByteDecides : Obligations.FourthByteDecides := by
  intro s b rest hs h0 hk hn hc hi t
  exact (step_reads_fourth hs h0 hk hn hc hi).trans (exec_decodeF4 s.c1 s.c2 s.c3 b t)

end Sys2Proof.Machine
end

section
/-! Proofs: the command whose collaborator is lent nothing and that reads no payload, `PIC` (42_commands.md rule R161). Its action
is one call, and such a call is over as soon as its event is made, whatever the collaborator would do on the streams. -/

namespace Sys2Proof.Machine

/-- The state in which the statements of an action itself begin (41_parser.md rule R139). -/
def enterAction (s : State) : State := indSet false (goto .dispatch { s with todo := [] })

theorem exec_action {i : Instr} {s : State} {action : List Op} {o : CycleOutcome}
    (hi : statementsOf s.cfg.hexCase i = some (dispatchOps action o)) :
    exec i s = .next (runOps (action ++ [.finish o]) (enterAction s)) := by
  rw [exec_eq, hi]
  exact congrArg Host.Outcome.next (perform_dispatchOps action o s)

theorem nextAnswer_enterAction (s : State) : nextAnswer (enterAction s) = nextAnswer s := nextAnswer_congr rfl rfl

/-- The entry of an action does not touch the answers, so using one up commutes with it. -/
theorem useAnswer_enterAction (s : State) : useAnswer (enterAction s) = enterAction (useAnswer s) := by
  cases hs : s.answers <;> simp [useAnswer, enterAction, indSet, goto, emit, hs]

/-- A statement that calls a port which is lent nothing: the rest of the action goes on from the call's return. -/
theorem runOps_call_notLent {p : Port} {s : State} (rest : List Op) (hi : lendsIn p = false)
    (ho : lendsOut s.cfg.stopVariant p = false) (h : returnsAtOnce (nextAnswer s) = true) :
    runOps (.call p :: rest) s = runOps rest (returnOf p (nextAnswer s).result
      (emit (.call (callOf p (nextAnswer s).result s)) (useAnswer s))) := by
  simp only [runOps, runOp, callPort_notLent hi ho h]

/-- Settles O22: after the entry of the action, one call that is lent nothing and returns nothing, then `Done`. -/
theorem picCapturesOnly : Obligations.PicCapturesOnly := by
  intro s h
  have returns : returnsAtOnce (nextAnswer (enterAction s)) = true := by rwa [nextAnswer_enterAction]
  calc exec .pic s
      = .next (runOps [.call .capture, .finish (.executed .PIC)] (enterAction s)) := exec_action (action := picAction) rfl
    _ = .next (runOps [.finish (.executed .PIC)] (emit (.call .capture) (useAnswer (enterAction s)))) :=
        congrArg Host.Outcome.next (runOps_call_notLent _ rfl rfl returns)
    _ = .next (runOps [.finish (.executed .PIC)] (emit (.call .capture) (enterAction (useAnswer s)))) := by
        rw [useAnswer_enterAction]
    _ = _ := by
        simp [runOps, runOp, enterAction, goto, indSet, emit]

end Sys2Proof.Machine
end

section
/-! Proofs: decoding a header and encoding an instruction (30_encoding.md rules R82 to R87). The decision chain accepts three
shapes of header (`decode_ok_cases`); what it answers on each is a chain of tests, followed arm by arm once for well-formedness
and the encoder, and once for the rows of the opcode table. -/

namespace Sys2Proof

open Machine (decode_three decode_four decode_one)

/-! ### Windows that need a fourth byte -/

theorem needsFourth_iff {c1 c2 c3 : Byte} :
    needsFourth c1 c2 c3 = true ↔
      (c1 ≠ sentinel ∧ c2 ≠ sentinel ∧ c3 ≠ sentinel)
        ∧ [c1, c2, c3] ≠ codeCLR ∧ [c1, c2, c3] ≠ codePIC ∧ [c1, c2, c3] ≠ codePOS := by
  simp only [needsFourth, sentinelFree, isCode3, List.all_cons, List.all_nil, Bool.and_eq_true, bne_iff_ne, Bool.not_eq_true',
    Bool.or_eq_false_iff, beq_eq_false_iff_ne, and_true, and_assoc]

theorem isCode4_eq_false_iff {c1 c2 c3 c4 : Byte} :
    isCode4 c1 c2 c3 c4 = false ↔
      [c1, c2, c3, c4] ≠ codeMOVE ∧ [c1, c2, c3, c4] ≠ codeSTOP ∧ [c1, c2, c3, c4] ≠ codeSCAN
        ∧ [c1, c2, c3, c4] ≠ codeBEEP := by
  simp only [isCode4, Bool.or_eq_false_iff, beq_eq_false_iff_ne, and_assoc]

theorem decodeF3_needsFourth {c1 c2 c3 : Byte} (h : needsFourth c1 c2 c3 = true) : decodeF3 c1 c2 c3 = .needC4 c1 c2 c3 := by
  obtain ⟨⟨h1, h2, h3⟩, hCLR, hPIC, hPOS⟩ := needsFourth_iff.mp h
  simp only [decodeF3, if_neg h1, if_neg h2, if_neg h3, if_neg hCLR, if_neg hPIC, if_neg hPOS]

theorem decodeF4_invalid {c1 c2 c3 c4 : Byte} (h4 : c4 ≠ sentinel) (h : isCode4 c1 c2 c3 c4 = false) :
    decodeF4 c1 c2 c3 c4 = .invalid c1 c2 c3 c4 := by
  obtain ⟨hMOVE, hSTOP, hSCAN, hBEEP⟩ := isCode4_eq_false_iff.mp h
  simp only [decodeF4, if_neg h4, if_neg hMOVE, if_neg hSTOP, if_neg hSCAN, if_neg hBEEP]

/-! ### Decoding an encoding -/

/-- Settles O1: each row's header passes the tests before its own by well-formedness, and its own by its fixed bytes. -/
theorem decodeOfEncode : Obligations.DecodeOfEncode := by
  intro i hw
  cases i with
  | frameStart | clr | pic | pos | move | stop | scan | beep => rfl
  | resync3C1 c2 c3 => rfl
  | probe k =>
    have hk : k ≠ sentinel := by simpa [Instr.wellFormed] using hw
    exact congrArg Except.ok (if_neg hk)
  | resync3C2 c1 c3 =>
    have h1 : c1 ≠ sentinel := by simpa [Instr.wellFormed, sentinelFree] using hw
    exact (decode_three rfl _ _ _).trans (congrArg Except.ok ((if_neg h1).trans (if_pos rfl)))
  | resync3C3 c1 c2 =>
    obtain ⟨h1, h2⟩ : c1 ≠ sentinel ∧ c2 ≠ sentinel := by simpa [Instr.wellFormed, sentinelFree] using hw
    exact (decode_three rfl _ _ _).trans (congrArg Except.ok ((if_neg h1).trans ((if_neg h2).trans (if_pos rfl))))
  | needC4 c1 c2 c3 => exact (decode_three rfl _ _ _).trans (congrArg Except.ok (decodeF3_needsFourth hw))
  | resync4 c1 c2 c3 => exact (decode_four rfl hw _).trans (congrArg Except.ok (if_pos rfl))
  | invalid c1 c2 c3 c4 =>
    obtain ⟨⟨hn, h4⟩, hcode⟩ : (needsFourth c1 c2 c3 = true ∧ c4 ≠ sentinel) ∧ isCode4 c1 c2 c3 c4 = false := by
      simpa [Instr.wellFormed] using hw
    exact (decode_four rfl hn _).trans (congrArg Except.ok (decodeF4_invalid h4 hcode))

/-! ### Encoding what was decoded -/

/-- The three shapes of a header the decoder accepts, with its verdict on each (R82, R86). -/
theorem decode_ok_cases {bytes : List Byte} {i : Instr} (h : decode bytes = .ok i) :
    (∃ k, bytes = [k] ∧ i = decodeP1 k)
      ∨ (∃ c1 c2 c3, bytes = [sentinel, c1, c2, c3] ∧ i = decodeF3 c1 c2 c3)
      ∨ (∃ c1 c2 c3 c4, bytes = [sentinel, c1, c2, c3, c4] ∧ needsFourth c1 c2 c3 = true ∧ i = decodeF4 c1 c2 c3 c4) := by
  unfold decode at h
  split at h
  case h_1 k =>
    injection h with h
    exact .inl ⟨k, rfl, h.symm⟩
  case h_2 k c1 c2 c3 =>
    split at h
    · next hk =>
      injection h with h
      exact .inr (.inl ⟨c1, c2, c3, by rw [hk], h.symm⟩)
    · cases h
  case h_3 k c1 c2 c3 c4 =>
    split at h
    · cases h
    · next hk =>
      split at h
      · next hn =>
        injection h with h
        exact .inr (.inr ⟨c1, c2, c3, c4, by rw [not_not.mp hk], hn, h.symm⟩)
      · cases h
  case h_4 => cases h

theorem decodeP1_encodes (k : Byte) : (decodeP1 k).wellFormed = true ∧ encode (decodeP1 k) = [k] := by
  by_cases hk : k = sentinel
  · subst hk
    exact ⟨rfl, rfl⟩
  · simp [decodeP1, hk, Instr.wellFormed, encode]

theorem decodeF3_encodes (c1 c2 c3 : Byte) :
    (decodeF3 c1 c2 c3).wellFormed = true ∧ encode (decodeF3 c1 c2 c3) = [sentinel, c1, c2, c3] := by
  unfold decodeF3
  split_ifs with h1 h2 h3 hCLR hPIC hPOS
  · exact ⟨rfl, by rw [h1]; rfl⟩
  · exact ⟨by simpa [Instr.wellFormed, sentinelFree] using h1, by rw [h2]; rfl⟩
  · exact ⟨by simp [Instr.wellFormed, sentinelFree, h1, h2], by rw [h3]; rfl⟩
  · exact ⟨rfl, by rw [hCLR]; rfl⟩
  · exact ⟨rfl, by rw [hPIC]; rfl⟩
  · exact ⟨rfl, by rw [hPOS]; rfl⟩
  · exact ⟨needsFourth_iff.mpr ⟨⟨h1, h2, h3⟩, hCLR, hPIC, hPOS⟩, rfl⟩

theorem decodeF4_encodes {c1 c2 c3 : Byte} (c4 : Byte) (hn : needsFourth c1 c2 c3 = true) :
    (decodeF4 c1 c2 c3 c4).wellFormed = true ∧ encode (decodeF4 c1 c2 c3 c4) = [sentinel, c1, c2, c3, c4] := by
  unfold decodeF4
  split_ifs with h4 hMOVE hSTOP hSCAN hBEEP
  · exact ⟨hn, by rw [h4]; rfl⟩
  · exact ⟨rfl, by rw [hMOVE]; rfl⟩
  · exact ⟨rfl, by rw [hSTOP]; rfl⟩
  · exact ⟨rfl, by rw [hSCAN]; rfl⟩
  · exact ⟨rfl, by rw [hBEEP]; rfl⟩
  · refine ⟨?_, rfl⟩
    have hcode := isCode4_eq_false_iff.mpr ⟨hMOVE, hSTOP, hSCAN, hBEEP⟩
    simp [Instr.wellFormed, hn, h4, hcode]

/-- Settles O2, one lemma for each accepted shape. -/
theorem encodeOfDecode : Obligations.EncodeOfDecode := by
  intro bytes i h
  rcases decode_ok_cases h with ⟨k, rfl, rfl⟩ | ⟨c1, c2, c3, rfl, rfl⟩ | ⟨c1, c2, c3, c4, rfl, hn, rfl⟩
  · exact decodeP1_encodes k
  · exact decodeF3_encodes c1 c2 c3
  · exact decodeF4_encodes c4 hn

/-! ### Refusals -/

theorem decode_error_iff {bytes : List Byte} {r : DecodeError} (h : decode bytes = .error r) (e : DecodeError) :
    decode bytes = .error e ↔ e = r := by
  rw [h, Except.error.injEq, eq_comm]

/-- Settles O4: lists of no format by their length, windows by their first byte, five bytes by the first four. -/
theorem decodeRefusesByName : Obligations.DecodeRefusesByName := by
  intro bytes e
  rcases bytes with _ | ⟨k, _ | ⟨c1, _ | ⟨c2, _ | ⟨c3, _ | ⟨c4, _ | ⟨c5, rest⟩⟩⟩⟩⟩⟩
  case nil | cons.cons.nil | cons.cons.cons.nil | cons.cons.cons.cons.cons.cons =>
    rw [decode_error_iff (r := .noFormat _) rfl]
    simp
  case cons.nil => simp [decode]
  case cons.cons.cons.cons.nil =>
    by_cases hk : k = sentinel
    · simp [decode, hk]
    · rw [decode_error_iff (r := .noSentinel k) (by simp [decode, hk])]
      simp [hk]
  case cons.cons.cons.cons.cons.nil =>
    by_cases hk : k = sentinel
    · subst hk
      cases hn : needsFourth c1 c2 c3 with
      | true => simp [decode, hn]
      | false =>
        rw [decode_error_iff (r := .decidedAtThree c1 c2 c3) (by simp [decode, hn])]
        simp [hn]
    · rw [decode_error_iff (r := .noSentinel k) (by simp [decode, hk])]
      simp [hk]

/-! ### The opcode table -/

theorem byte_and_ones (b : Byte) : b &&& 0xFF#8 = b := BitVec.and_allOnes

theorem append3_matches {l m n : Nat} (a ma pa : BitVec l) (b mb pb : BitVec m) (c mc pc : BitVec n) :
    (a ++ (b ++ c)) &&& (ma ++ (mb ++ mc)) = pa ++ (pb ++ pc) ↔ a &&& ma = pa ∧ b &&& mb = pb ∧ c &&& mc = pc := by
  simp only [append_matches]

/-- A row of the format `k c1 c2 c3` that fixes the sentinel in `k`, read byte by byte (R82). -/
theorem header3_matches (c1 c2 c3 m1 m2 m3 p1 p2 p3 : Byte) :
    headerWord [sentinel, c1, c2, c3] &&& (0#8 ++ (0xFF#8 ++ (m1 ++ (m2 ++ m3)))) = 0#8 ++ (sentinel ++ (p1 ++ (p2 ++ p3)))
      ↔ c1 &&& m1 = p1 ∧ c2 &&& m2 = p2 ∧ c3 &&& m3 = p3 := by
  calc _ ↔ 0#8 &&& 0#8 = 0#8 ∧ sentinel &&& 0xFF#8 = sentinel
          ∧ (c1 ++ (c2 ++ c3)) &&& (m1 ++ (m2 ++ m3)) = p1 ++ (p2 ++ p3) := append3_matches (m := 8) (n := 24) ..
    _ ↔ (c1 ++ (c2 ++ c3)) &&& (m1 ++ (m2 ++ m3)) = p1 ++ (p2 ++ p3) := by
        simp only [byte_and_ones, BitVec.and_self, true_and]
    _ ↔ _ := append3_matches ..

/-- A row of the format `k c1 c2 c3 c4` that fixes the sentinel in `k`, read byte by byte (R82). -/
theorem header4_matches (c1 c2 c3 c4 m1 m2 m3 m4 p1 p2 p3 p4 : Byte) :
    headerWord [sentinel, c1, c2, c3, c4] &&& (0xFF#8 ++ (m1 ++ (m2 ++ (m3 ++ m4))))
        = sentinel ++ (p1 ++ (p2 ++ (p3 ++ p4)))
      ↔ c1 &&& m1 = p1 ∧ c2 &&& m2 = p2 ∧ c3 &&& m3 = p3 ∧ c4 &&& m4 = p4 := by
  calc _ ↔ sentinel &&& 0xFF#8 = sentinel ∧ c1 &&& m1 = p1
          ∧ (c2 ++ (c3 ++ c4)) &&& (m2 ++ (m3 ++ m4)) = p2 ++ (p3 ++ p4) := append3_matches (m := 8) (n := 24) ..
    _ ↔ _ := by rw [append3_matches, byte_and_ones, eq_self, true_and]

/-- The first row of the three-byte window that matches is the one of the decision chain (R86 orders 2 and 3). -/
theorem firstMatch_f3 (c1 c2 c3 : Byte) :
    firstMatch .f3 (headerWord [sentinel, c1, c2, c3]) = some (decodeF3 c1 c2 c3).mnemonic := by
  have row := header3_matches c1 c2 c3
  have hC1 := row 0xFF#8 0#8 0#8 sentinel 0#8 0#8
  have hC2 := row 0#8 0xFF#8 0#8 0#8 sentinel 0#8
  have hC3 := row 0#8 0#8 0xFF#8 0#8 0#8 sentinel
  have hCLR := row 0xFF#8 0xFF#8 0xFF#8 0x43#8 0x4C#8 0x52#8
  have hPIC := row 0xFF#8 0xFF#8 0xFF#8 0x50#8 0x49#8 0x43#8
  have hPOS := row 0xFF#8 0xFF#8 0xFF#8 0x50#8 0x4F#8 0x53#8
  have hNEED := row 0#8 0#8 0#8 0#8 0#8 0#8
  clear row
  generalize headerWord [sentinel, c1, c2, c3] = header at *
  simp only [byte_and_ones, BitVec.and_zero, true_and, and_true, sentinel, BitVec.reduceAppend] at *
  unfold decodeF3
  split_ifs with h1 h2 h3 h4 h5 h6 <;> simp only [sentinel, List.cons.injEq, and_true] at * <;>
    simp [firstMatch, opcodeTable, *, Instr.mnemonic]

/-- The first row of the four-byte window that matches is the one of the decision chain (R86 orders 4 to 6). -/
theorem firstMatch_f4 (c1 c2 c3 c4 : Byte) :
    firstMatch .f4 (headerWord [sentinel, c1, c2, c3, c4]) = some (decodeF4 c1 c2 c3 c4).mnemonic := by
  have row := header4_matches c1 c2 c3 c4
  have hRESYNC := row 0#8 0#8 0#8 0xFF#8 0#8 0#8 0#8 sentinel
  have hMOVE := row 0xFF#8 0xFF#8 0xFF#8 0xFF#8 0x4D#8 0x4F#8 0x56#8 0x45#8
  have hSTOP := row 0xFF#8 0xFF#8 0xFF#8 0xFF#8 0x53#8 0x54#8 0x4F#8 0x50#8
  have hSCAN := row 0xFF#8 0xFF#8 0xFF#8 0xFF#8 0x53#8 0x43#8 0x41#8 0x4E#8
  have hBEEP := row 0xFF#8 0xFF#8 0xFF#8 0xFF#8 0x42#8 0x45#8 0x45#8 0x50#8
  have hINVALID := row 0#8 0#8 0#8 0#8 0#8 0#8 0#8 0#8
  clear row
  generalize headerWord [sentinel, c1, c2, c3, c4] = header at *
  simp only [byte_and_ones, BitVec.and_zero, true_and, and_true, sentinel, BitVec.reduceAppend] at *
  unfold decodeF4
  split_ifs with h1 h2 h3 h4 h5 <;> simp only [sentinel, List.cons.injEq, and_true] at * <;>
    simp [firstMatch, opcodeTable, *, Instr.mnemonic]

theorem firstMatch_p1 (k : Byte) : firstMatch .p1 (headerWord [k]) = some (decodeP1 k).mnemonic := by
  have hFRAME : headerWord [k] &&& 0xFF#40 = 0x21#40 ↔ 0#32 &&& 0#32 = 0#32 ∧ k &&& 0xFF#8 = 0x21#8 :=
    append_matches 0#32 0#32 0#32 k 0xFF#8 0x21#8
  rw [byte_and_ones, BitVec.and_self, eq_self, true_and] at hFRAME
  generalize headerWord [k] = header at *
  unfold decodeP1
  split_ifs with hk <;> simp only [sentinel] at hk <;>
    simp [firstMatch, opcodeTable, hFRAME, hk, Instr.mnemonic]

theorem decodeP1_format (k : Byte) : (decodeP1 k).format = .p1 := by
  unfold decodeP1
  split_ifs <;> rfl

theorem decodeF3_format (c1 c2 c3 : Byte) : (decodeF3 c1 c2 c3).format = .f3 := by
  unfold decodeF3
  split_ifs <;> rfl

theorem decodeF4_format (c1 c2 c3 c4 : Byte) : (decodeF4 c1 c2 c3 c4).format = .f4 := by
  unfold decodeF4
  split_ifs <;> rfl

/-- Settles O3, format by format. -/
theorem decodeIsFirstTableRow : Obligations.DecodeIsFirstTableRow := by
  intro bytes i h
  rcases decode_ok_cases h with ⟨k, rfl, rfl⟩ | ⟨c1, c2, c3, rfl, rfl⟩ | ⟨c1, c2, c3, c4, rfl, -, rfl⟩
  · rw [decodeP1_format]
    exact ⟨rfl, firstMatch_p1 k⟩
  · rw [decodeF3_format]
    exact ⟨rfl, firstMatch_f3 c1 c2 c3⟩
  · rw [decodeF4_format]
    exact ⟨rfl, firstMatch_f4 c1 c2 c3 c4⟩

/-- Settles O5: twelve header words, each decoded. -/
theorem commandWordsDecode : Obligations.CommandWordsDecode := by
  unfold Obligations.CommandWordsDecode
  decide

end Sys2Proof
end

section
/-! Proofs: what every instruction does and leaves, on every path (10_state.md, 20_memory.md rules R51 to R66, 42_commands.md rule
R168, 60_exceptions.md rule R193). Each claim is read off one lemma, `exec_ends`: the events of an instruction are ones it may make,
but for a failure, which is the last and leaves `Idle`. -/

namespace Sys2Proof.Machine

/-! ### How an instruction ends -/

/-- The two ends of instruction `i` with the events `ev`: abandoned by a failure, its last event, in `Idle`; or with none, inside the
cycle unless a `PROBE` was run from `Idle`. -/
def InstrEnds (v : StopVariant) (i : Instr) (ev : List Event) (s t : State) : Prop :=
  (∃ d earlier, ev = earlier ++ [.fault d] ∧ (∀ e ∈ earlier, allows v i e = true)
      ∧ t.st = .idle ∧ t.todo = [] ∧ t.outcome = none)
    ∨ ((∀ e ∈ ev, allows v i e = true) ∧ (t.st = .idle → isDispatched i = false ∧ s.st = .idle))

theorem progress_enterAction (s : State) : Progress [.ind false] s (enterAction s) :=
  progress_event _ (by simp) rfl rfl rfl rfl rfl rfl rfl rfl rfl rfl rfl

/-- A list of statements that keep to what the instruction may do ends the instruction. -/
theorem Ended.instrEnds {v : StopVariant} {i : Instr} {ops : List Op} {lead ev : List Event} {s u t : State}
    (hends : Ended v ops ev u t) (hw : ∀ op ∈ ops, within v i op) (hlead : ∀ e ∈ lead, allows v i e = true)
    (hops : bodyThenFinish ops = true) (hidle : u.st = .idle → isDispatched i = false ∧ s.st = .idle) :
    InstrEnds v i (lead ++ ev) s t := by
  have allowed : ∀ es, (∀ e ∈ es, ∃ op ∈ ops, opMakes v op e = true) → ∀ e ∈ lead ++ es, allows v i e = true := by
    intro es hes e he
    rcases List.mem_append.mp he with he | he
    · exact hlead e he
    · obtain ⟨op, hop, hm⟩ := hes e he
      exact hw op hop e hm
  rcases hends with ⟨d, earlier, rfl, he, hleft⟩ | ⟨he, hst⟩
  · exact .inl ⟨d, lead ++ earlier, by rw [List.append_assoc], allowed earlier he, hleft⟩
  · refine .inr ⟨allowed ev he, fun ht => ?_⟩
    rcases hst hops with h | h
    · exact hidle (h.symm.trans ht)
    · rw [ht] at h
      cases h

theorem exec_ends {i : Instr} {s t : State} (h : exec i s = .next t) :
    ∃ ev, Progress ev s t ∧ InstrEnds s.cfg.stopVariant i ev s t := by
  cases hs : statementsOf s.cfg.hexCase i with
  | none =>
    rw [exec_steers hs] at h
    injection h with h
    subst h
    refine ⟨[], .of_eqs rfl rfl rfl rfl rfl rfl rfl rfl rfl rfl rfl, .inr ⟨by simp, fun ht => ?_⟩⟩
    cases i <;> simp [steersTo] at ht
  | some ops =>
    have hw := statements_within s.cfg.stopVariant hs
    rcases statementsOf_shape hs with ⟨hd, hb, -⟩ | ⟨hd, action, o, rfl, ha⟩
    · rw [exec_eq, hs] at h
      injection h with h
      subst h
      obtain ⟨ev, hran, hend⟩ := runOps_spec ops { s with todo := [] }
      have begun : Progress [] s { s with todo := [] } := .of_eqs rfl rfl rfl rfl rfl rfl rfl rfl rfl rfl rfl
      exact ⟨ev, begun.trans hran.progress, hend.instrEnds (lead := []) hw (by simp) hb fun hi => ⟨hd, hi⟩⟩
    · rw [exec_action hs] at h
      injection h with h
      subst h
      obtain ⟨ev, hran, hend⟩ := runOps_spec (action ++ [.finish o]) (enterAction s)
      refine ⟨_, (progress_enterAction s).trans hran.progress, hend.instrEnds (fun op hop => hw op ?_) ?_
        (bodyThenFinish_append action o ha) fun hi => by cases hi⟩
      · simp only [dispatchOps, List.append_assoc, List.mem_append]
        exact .inr (List.mem_append.mp hop)
      · simp [allows, hd]

/-! ### The payload registers -/

theorem writesF_eq_false {i : Instr} {c : HexCase} {ops : List Op} (h : statementsOf c i = some ops) (hclr : i ≠ .clr)
    (hpos : i ≠ .pos) : ∀ op ∈ ops, writesF op = false := by
  cases i <;> simp_all only [statementsOf, Option.some.injEq, reduceCtorEq, ne_eq, not_true] <;> subst h <;>
    simp [dispatchOps, picAction, moveAction, stopAction, scanAction, beepAction, invalidAction, writesF]

theorem writesU0_eq_false {i : Instr} {c : HexCase} {ops : List Op} (h : statementsOf c i = some ops) (hbeep : i ≠ .beep) :
    ∀ op ∈ ops, writesU0 op = false := by
  cases i <;> simp_all only [statementsOf, Option.some.injEq, reduceCtorEq, ne_eq, not_true] <;> subst h <;>
    simp [dispatchOps, clrAction, picAction, posAction, moveAction, stopAction, scanAction, invalidAction, writesU0]

/-! ### The indicator -/

theorem exec_ind {i : Instr} {s t : State} (h : exec i s = .next t) : t.ind = if isDispatched i then false else s.ind := by
  rcases exec_control h with ⟨hs, rfl⟩ | ⟨p, ⟨-, -, hd, hi⟩ | ⟨-, hd, hi⟩, -⟩
  · simp [isDispatched_of_none hs]
  · simp [hd, hi]
  · simp [hd, hi]

/-! ### The obligations -/

/-- Settles O29: the header registers and the plans by `Progress`, the payload registers by the statements of the action. -/
theorem registerFrameOfEveryInstr : Obligations.RegisterFrameOfEveryInstr := by
  intro i s t h
  obtain ⟨ev, hp, hc⟩ := exec_spec i s t h
  refine ⟨hp.cfg, hp.k, hp.c1, hp.c2, hp.c3, hp.c4, hp.host, hp.caller, ?_⟩
  rcases hc with ⟨-, -, rfl⟩ | ⟨ops, hs, -, hran, -⟩
  · exact ⟨fun _ _ => ⟨rfl, rfl, rfl⟩, fun _ => rfl, exec_ind h⟩
  · exact ⟨fun hclr hpos => hran.keepsF (writesF_eq_false hs hclr hpos), fun hbeep => hran.keepsU (writesU0_eq_false hs hbeep),
      exec_ind h⟩

/-- An event that is no failure and that an instruction makes is one it may make. -/
theorem InstrEnds.allows_of_mem {v : StopVariant} {i : Instr} {ev : List Event} {s t : State} (h : InstrEnds v i ev s t) {e : Event}
    (he : e ∈ ev) (hf : ∀ d, e ≠ .fault d) : allows v i e = true := by
  rcases h with ⟨d, earlier, rfl, ha, -⟩ | ⟨ha, -⟩
  · rcases List.mem_append.mp he with he | he
    · exact ha e he
    · exact absurd (List.mem_singleton.mp he) (hf d)
  · exact ha e he

/-- Settles O30: a stream whose events an instruction may not make is as it was. -/
theorem streamFrameOfEveryInstr : Obligations.StreamFrameOfEveryInstr := by
  intro i s t h
  obtain ⟨ev, hp, hends⟩ := exec_ends h
  refine ⟨fun hi => ?_, fun ho => ?_, ev, hp.trace, hp.input, hp.output⟩
  · have none_taken : inBytes ev = [] := inBytes_none fun b hb => by
      have := hends.allows_of_mem hb (by simp)
      simp [allows, hi] at this
    rw [hp.input, none_taken, List.nil_append]
  · have none_given : outBytes ev = [] := outBytes_none fun b hb => by
      have := hends.allows_of_mem hb (by simp)
      simp [allows, ho] at this
    rw [hp.output, none_given, List.append_nil]

/-- Settles O31. -/
theorem callsOnlyOfTheirCommand : Obligations.CallsOnlyOfTheirCommand := by
  intro i s t h
  obtain ⟨ev, hp, hends⟩ := exec_ends h
  exact ⟨ev, hp.trace, fun c hc => hends.allows_of_mem hc (by simp)⟩

/-- Settles O34: no instruction may make a `FAULT` of its own, so the one that ends it is the only one. -/
theorem failureEndsTheAction : Obligations.FailureEndsTheAction := by
  intro i s t h
  obtain ⟨ev, hp, hends⟩ := exec_ends h
  refine ⟨ev, hp.trace, ?_⟩
  rcases hends with ⟨d, earlier, rfl, ha, hleft⟩ | ⟨ha, hidle⟩
  · exact .inl ⟨d, earlier, rfl, fun d' hd' => Bool.false_ne_true (ha _ hd'), hleft⟩
  · exact .inr ⟨fun d hd => Bool.false_ne_true (ha _ hd), hidle⟩

end Sys2Proof.Machine
end

section
/-! Proofs: header reads that hold or fail, and the equations of a step that runs an instruction (20_memory.md rules R52, R53,
60_exceptions.md rules R190 to R196). Together with `step_idle` and `step_resumes` they answer for every state of the invariant. -/

namespace Sys2Proof.Machine

/-! ### Header reads that hold or fail -/

/-- How many bytes the parser reads in a state in which it reads (41_parser.md rule R141). -/
def headerRead : ParserState → Option Nat
  | .probeByte | .readCode4 => some 1
  | .readCode3 => some 3
  | .idle | .dispatch | .done => none

theorem fetch_held {u v : State} {n : Nat} (h0 : u.todo = []) (hn : headerRead u.st = some n) (hr : memRead n u = .held v) :
    fetch u = .advance v := by
  unfold headerRead at hn
  split at hn <;> cases hn <;> simp_all [fetch, fetchProbe, fetchWindow, fetchFourth]

theorem fetch_failed {u v : State} {n : Nat} (h0 : u.todo = []) (hn : headerRead u.st = some n) (hr : memRead n u = .failed v) :
    fetch u = .advance v := by
  unfold headerRead at hn
  split at hn <;> cases hn <;> simp_all [fetch, fetchProbe, fetchWindow, fetchFourth]

theorem step_holds {s : State} {n : Nat} (h0 : s.todo = []) (hn : headerRead s.st = some n) (hc : driverChoice s = none)
    (hl : (hostActs s).input.length < n) : step s = .next (attempt (hostActs s)) :=
  step_of_fetch_advance (fetch_held h0 hn (memRead_short hc hl))

theorem step_fails {s : State} {m n : Nat} (h0 : s.todo = []) (hn : headerRead s.st = some n) (hc : driverChoice s = some m) :
    step s = .next (takeStreamFault .inp (consume (min m (n - 1)) (attempt (hostActs s)))) := by
  have hpos : n ≠ 0 := by
    unfold headerRead at hn
    split at hn <;> cases hn <;> decide
  exact step_of_fetch_advance (fetch_failed h0 hn (memRead_fails hc hpos))

/-- Settles O32. -/
theorem headerReadHolds : Obligations.HeaderReadHolds := by
  intro s h0 hc h
  rcases h with ⟨hst | hst, hi⟩ | ⟨hst, hl⟩
  · exact step_holds (n := 1) h0 (by rw [hst]; rfl) hc (by rw [hi]; exact Nat.one_pos)
  · exact step_holds (n := 1) h0 (by rw [hst]; rfl) hc (by rw [hi]; exact Nat.one_pos)
  · exact step_holds (n := 3) h0 (by rw [hst]; rfl) hc hl

/-- Settles O33. -/
theorem headerReadFails : Obligations.HeaderReadFails := by
  intro s m n h0 hc h
  have hn : headerRead s.st = some n := by
    rcases h with ⟨hst | hst, rfl⟩ | ⟨hst, rfl⟩ <;> rw [hst] <;> rfl
  rw [step_fails h0 hn hc]
  simp [takeStreamFault, consume, attempt, emit, h0]

/-! ### Header reads that go through -/

/-- Settles O11, one equation of `fetch` for each state in which the parser reads. -/
theorem stepRunsDecodedInstr : Obligations.StepRunsDecodedInstr := by
  intro s i rest h0 hc
  refine ⟨fun b hst hi hd => ?_, fun b1 b2 b3 hst hi hd => ?_, fun b hst hi hd => ?_⟩
  · exact step_of_fetch_run (fetch_probe h0 hst hc hi hd)
  · exact step_of_fetch_run (fetch_window h0 hst hc hi hd)
  · exact step_of_fetch_run (fetch_fourth h0 hst hc hi hd)

/-- Settles O13. -/
theorem steeringRowsOnlyMoveSt : Obligations.SteeringRowsOnlyMoveSt :=
  fun _ _ _ _ => ⟨rfl, rfl, rfl, rfl, rfl, rfl⟩

theorem exec_decodeF3_of_sentinel {b1 b2 b3 : Byte} (h : b1 = sentinel ∨ b2 = sentinel ∨ b3 = sentinel) (t : State) :
    exec (decodeF3 b1 b2 b3) t = .next (goto .readCode3 t) := by
  unfold decodeF3
  split_ifs with h1 h2 h3
  · rfl
  · rfl
  · rfl
  all_goals simp [h1, h2, h3] at h

/-- Settles O15: the first three tests of R86 on the window. -/
theorem sentinelInWindowResyncs : Obligations.SentinelInWindowResyncs := by
  intro s b1 b2 b3 rest hst h0 hk hc hi h
  rw [step_reads_window hst h0 hk hc hi, exec_decodeF3_of_sentinel h]
  simp [goto, hst]

/-- Settles O12: the placed word's last bytes are at the head of `IN` after the host's move too. -/
theorem placedWordRuns : Obligations.PlacedWordRuns := by
  intro s nbits w i h
  obtain ⟨bytes, hbytes⟩ : ∃ bytes, headerBytes nbits w = bytes := ⟨_, rfl⟩
  have hd : decode bytes = .ok i := by
    unfold decodeTableWord at h
    rw [hbytes] at h
    split at h
    · injection h with h
      rw [← h]
      assumption
    · cases h
  unfold State.withFetchWord
  rw [hbytes]
  rcases decode_ok_cases hd with ⟨k, rfl, rfl⟩ | ⟨c1, c2, c3, rfl, rfl⟩ | ⟨c1, c2, c3, c4, rfl, hn, rfl⟩
  · exact ⟨_, step_of_fetch_run (fetch_probe rfl rfl rfl rfl hd)⟩
  · exact ⟨_, step_of_fetch_run (fetch_window rfl rfl rfl rfl hd)⟩
  · exact ⟨_, step_of_fetch_run (fetch_fourth rfl rfl rfl rfl hd)⟩

/-! ### Progress -/

/-- What keeps a state off the three faults of `step` (log 24). -/
structure Steady (s : State) : Prop where
  sentinelInK : s.st = .readCode3 ∨ s.st = .readCode4 → s.k = sentinel
  windowUndecided : s.st = .readCode4 → needsFourth s.c1 s.c2 s.c3 = true
  actionInDispatch : s.st = .dispatch → s.todo ≠ []
  outcomeInDone : s.st = .done → s.outcome.isSome = true

theorem exec_answers (i : Instr) (s : State) : ∃ t, exec i s = .next t := ⟨_, exec_eq i s⟩

/-- A header read always answers when it does once its bytes are there. -/
theorem headerRead_answers {s : State} {n : Nat} (h0 : s.todo = []) (hn : headerRead s.st = some n)
    (available : driverChoice s = none → n ≤ (hostActs s).input.length → ∃ t, step s = .next t) : ∃ t, step s = .next t := by
  cases hc : driverChoice s with
  | some m => exact ⟨_, step_fails h0 hn hc⟩
  | none =>
    rcases Nat.lt_or_ge (hostActs s).input.length n with hl | hl
    · exact ⟨_, step_holds h0 hn hc hl⟩
    · exact available hc hl

theorem exists_window {l : List Byte} (h : 3 ≤ l.length) : ∃ b1 b2 b3 rest, l = b1 :: b2 :: b3 :: rest := by
  rcases l with _ | ⟨b1, _ | ⟨b2, _ | ⟨b3, rest⟩⟩⟩
  case cons.cons.cons => exact ⟨b1, b2, b3, rest, rfl⟩
  all_goals simp at h

theorem Steady.step_answers {s : State} (h : Steady s) : ∃ t, step s = .next t := by
  cases h0 : s.todo with
  | cons op rest => exact ⟨_, step_resumes h0⟩
  | nil =>
    cases hst : s.st with
    | idle => exact ⟨_, step_idle hst h0⟩
    | dispatch => exact absurd h0 (h.actionInDispatch hst)
    | done =>
      obtain ⟨o, ho⟩ := Option.isSome_iff_exists.mp (h.outcomeInDone hst)
      exact ⟨_, doneReturnsOutcome s o hst h0 ho⟩
    | probeByte =>
      refine headerRead_answers h0 (by rw [hst]; rfl) fun hc hl => ?_
      obtain ⟨b, rest, hi⟩ := List.exists_cons_of_length_pos hl
      rw [step_reads_probe hst h0 hc hi]
      exact exec_answers _ _
    | readCode3 =>
      refine headerRead_answers h0 (by rw [hst]; rfl) fun hc hl => ?_
      obtain ⟨b1, b2, b3, rest, hi⟩ := exists_window hl
      rw [step_reads_window hst h0 (h.sentinelInK (.inl hst)) hc hi]
      exact exec_answers _ _
    | readCode4 =>
      refine headerRead_answers h0 (by rw [hst]; rfl) fun hc hl => ?_
      obtain ⟨b, rest, hi⟩ := List.exists_cons_of_length_pos hl
      rw [step_reads_fourth hst h0 (h.sentinelInK (.inr hst)) (h.windowUndecided hst) hc hi]
      exact exec_answers _ _

end Sys2Proof.Machine
end

section
/-! Proofs: the invariant of the block (10_state.md rules R20 to R25, 20_memory.md rule R68). `InCycle` is all of it but the capacity of
`OUT`, which every progress keeps. The states `InCycle` allows come in six shapes; a step leads from one to another, and how an action
ends says to which. -/

namespace Sys2Proof.Machine

/-! ### The shapes of the invariant -/

/-- The invariant but for the capacity of `OUT`: where the parser is in its cycle. -/
structure InCycle (s : State) : Prop where
  sentinelInK : s.st = .readCode3 ∨ s.st = .readCode4 ∨ s.st = .dispatch → s.k = sentinel
  windowUndecided : s.st = .readCode4 → needsFourth s.c1 s.c2 s.c3 = true
  indicatorOn : s.st = .probeByte ∨ s.st = .readCode3 ∨ s.st = .readCode4 → s.ind = true
  indicatorOff : s.st = .dispatch → s.ind = false
  outcomeInDone : s.outcome.isSome = decide (s.st = .done)
  actionInDispatch : s.st = .dispatch → s.todo ≠ []
  todoInAction : s.todo ≠ [] → s.st = .probeByte ∨ s.st = .dispatch
  todoFinishes : s.todo ≠ [] → bodyThenFinish s.todo = true

theorem inv_iff {s : State} : Inv s ↔ InCycle s ∧ withinCapacity s := by
  constructor
  · rintro ⟨h1, h2, h3, h4, h5, h6, h7, h8, h9⟩
    exact ⟨⟨h1, h2, h3, h4, h5, h6, h7, h8⟩, h9⟩
  · rintro ⟨⟨h1, h2, h3, h4, h5, h6, h7, h8⟩, h9⟩
    exact ⟨h1, h2, h3, h4, h5, h6, h7, h8, h9⟩

theorem InCycle.steady {s : State} (h : InCycle s) : Steady s where
  sentinelInK := fun hs => h.sentinelInK (hs.imp_right .inl)
  windowUndecided := h.windowUndecided
  actionInDispatch := h.actionInDispatch
  outcomeInDone := fun hs => by rw [h.outcomeInDone, hs]; rfl

/-- Settles O46: the invariant keeps every state off the three faults, and no instruction is refused. -/
theorem stepNeverStops : Obligations.StepNeverStops := fun _ h => (inv_iff.mp h).1.steady.step_answers

theorem InCycle.outcome_eq_none {s : State} (h : InCycle s) (hst : s.st ≠ .done) : s.outcome = none := by
  have ho := h.outcomeInDone
  rw [decide_eq_false hst] at ho
  simpa using ho

theorem inCycle_idle {s : State} (hst : s.st = .idle) (h0 : s.todo = []) (ho : s.outcome = none) : InCycle s := by
  constructor <;> simp_all

theorem inCycle_done {s : State} (hst : s.st = .done) (h0 : s.todo = []) (ho : s.outcome.isSome = true) : InCycle s := by
  constructor <;> simp_all

/-- The parser waits for the probe byte, or its echo holds. -/
theorem inCycle_probeByte {s : State} (hst : s.st = .probeByte) (h0 : s.todo ≠ [] → bodyThenFinish s.todo = true)
    (ho : s.outcome = none) (hind : s.ind = true) : InCycle s := by
  constructor <;> simp_all

theorem inCycle_readCode3 {s : State} (hst : s.st = .readCode3) (h0 : s.todo = []) (ho : s.outcome = none) (hind : s.ind = true)
    (hk : s.k = sentinel) : InCycle s := by
  constructor <;> simp_all

theorem inCycle_readCode4 {s : State} (hst : s.st = .readCode4) (h0 : s.todo = []) (ho : s.outcome = none) (hind : s.ind = true)
    (hk : s.k = sentinel) (hn : needsFourth s.c1 s.c2 s.c3 = true) : InCycle s := by
  constructor <;> simp_all

theorem inCycle_dispatch {s : State} (hst : s.st = .dispatch) (h0 : bodyThenFinish s.todo = true) (ho : s.outcome = none)
    (hind : s.ind = false) (hk : s.k = sentinel) : InCycle s := by
  have hne : s.todo ≠ [] := by
    intro hnil
    rw [hnil] at h0
    cases h0
  constructor <;> simp_all

/-! ### How an action leaves the cycle -/

/-- The three ends of an action that was begun or resumed in the state `p`: abandoned, held there, or in `Done`. -/
def ActionLeft (p : ParserState) (t : State) : Prop :=
  (t.st = .idle ∧ t.todo = [] ∧ t.outcome = none) ∨ (t.st = p ∧ bodyThenFinish t.todo = true ∧ t.outcome = none)
    ∨ (t.st = .done ∧ t.todo = [] ∧ t.outcome.isSome = true)

theorem ActionLeft.inCycle {p : ParserState} {t : State} (h : ActionLeft p t)
    (hp : (p = .probeByte ∧ t.ind = true) ∨ (p = .dispatch ∧ t.ind = false ∧ t.k = sentinel)) : InCycle t := by
  rcases h with ⟨hst, h0, ho⟩ | ⟨hst, h0, ho⟩ | ⟨hst, h0, ho⟩
  · exact inCycle_idle hst h0 ho
  · rcases hp with ⟨rfl, hi⟩ | ⟨rfl, hi, hk⟩
    · exact inCycle_probeByte hst (fun _ => h0) ho hi
    · exact inCycle_dispatch hst h0 ho hi hk
  · exact inCycle_done hst h0 ho

/-- An action in progress goes on inside the cycle. -/
theorem inCycle_perform {u : State} {op : Op} {rest : List Op} (h : InCycle u) (htodo : u.todo = op :: rest) :
    InCycle (perform (op :: rest) u) := by
  have hne : u.todo ≠ [] := by simp [htodo]
  have hb : bodyThenFinish (op :: rest) = true := htodo ▸ h.todoFinishes hne
  obtain ⟨ev, hran, -⟩ := runOps_spec (op :: rest) { u with todo := [] }
  obtain ⟨hind, hleft⟩ := runOps_control (op :: rest) { u with todo := [] } hb rfl
  have hk := hran.progress.k
  have hst := h.todoInAction hne
  have ho : u.outcome = none := h.outcome_eq_none (by rcases hst with hst | hst <;> rw [hst] <;> decide)
  have hleft' : ActionLeft u.st (perform (op :: rest) u) := by
    unfold ActionLeft
    rw [← ho]
    exact hleft.imp_left fun ⟨a, b, c⟩ => ⟨a, b, c.trans ho.symm⟩
  refine hleft'.inCycle ?_
  rcases hst with hst | hst
  · exact .inl ⟨hst, hind.trans (h.indicatorOn (.inl hst))⟩
  · exact .inr ⟨hst, hind.trans (h.indicatorOff hst), hk.trans (h.sentinelInK (.inr (.inr hst)))⟩

/-- An instruction run by the parser with the indicator on: a `PROBE` in `ProbeByte`, any other with the sentinel in `k`, and
`NEED_C4` on an undecided window. -/
theorem inCycle_exec {i : Instr} {v t : State} (h : exec i v = .next t) (h0 : v.todo = []) (ho : v.outcome = none)
    (hind : v.ind = true) (hst : isProbe i = true → v.st = .probeByte)
    (hk : isProbe i = false → v.k = sentinel) (hn : steersTo i = .readCode4 → needsFourth v.c1 v.c2 v.c3 = true) : InCycle t := by
  obtain ⟨ev, hp, -⟩ := exec_ends h
  rcases exec_control h with ⟨hs, rfl⟩ | ⟨p, hp', hleft⟩
  · have hk' : v.k = sentinel := hk (by
      cases i with
      | probe k => simp [statementsOf] at hs
      | _ => rfl)
    have hto : steersTo i = .readCode3 ∨ steersTo i = .readCode4 := by cases i <;> simp [steersTo]
    rcases hto with hto | hto
    · exact inCycle_readCode3 hto h0 ho hind hk'
    · exact inCycle_readCode4 hto h0 ho hind hk' (hn hto)
  · rw [ho] at hleft
    refine ActionLeft.inCycle hleft ?_
    rcases hp' with ⟨rfl, ⟨k, rfl⟩, -, hi⟩ | ⟨rfl, hd, hi⟩
    · exact .inl ⟨hst rfl, hi.trans hind⟩
    · have hnot : isProbe i = false := by
        cases i with
        | probe k => simp [isDispatched] at hd
        | _ => rfl
      exact .inr ⟨rfl, hi, hp.k.trans (hk hnot)⟩

/-! ### What the verdicts on the three headers need -/

theorem decodeP1_not_probe {b : Byte} (h : isProbe (decodeP1 b) = false) : b = sentinel := by
  by_contra hb
  simp [decodeP1, hb, isProbe] at h

theorem decodeP1_steersTo (b : Byte) : steersTo (decodeP1 b) = .readCode3 := by
  unfold decodeP1
  split_ifs <;> rfl

theorem decodeF3_not_probe (c1 c2 c3 : Byte) : isProbe (decodeF3 c1 c2 c3) = false := by
  unfold decodeF3
  split_ifs <;> rfl

theorem decodeF3_steersTo {c1 c2 c3 : Byte} (h : steersTo (decodeF3 c1 c2 c3) = .readCode4) : needsFourth c1 c2 c3 = true := by
  unfold decodeF3 at h
  split_ifs at h with h1 h2 h3 hCLR hPIC hPOS
  case neg => exact needsFourth_iff.mpr ⟨⟨h1, h2, h3⟩, hCLR, hPIC, hPOS⟩
  all_goals cases h

theorem decodeF4_not_probe (c1 c2 c3 c4 : Byte) : isProbe (decodeF4 c1 c2 c3 c4) = false := by
  unfold decodeF4
  split_ifs <;> rfl

/-! ### Every step -/

/-- The host's move is no matter of the cycle. -/
theorem InCycle.of_hostActs {s : State} (h : InCycle s) : InCycle (hostActs s) := by
  obtain ⟨h1, h2, h3, h4, h5, h6, h7, h8⟩ := h
  exact ⟨h1, h2, h3, h4, h5, h6, h7, h8⟩

theorem InCycle.of_attempt {s : State} (h : InCycle s) : InCycle (attempt s) := by
  obtain ⟨h1, h2, h3, h4, h5, h6, h7, h8⟩ := h
  exact ⟨h1, h2, h3, h4, h5, h6, h7, h8⟩

theorem InCycle.of_passChoice {s : State} (h : InCycle s) : InCycle (passChoice s) := by
  obtain ⟨h1, h2, h3, h4, h5, h6, h7, h8⟩ := h
  exact ⟨h1, h2, h3, h4, h5, h6, h7, h8⟩

/-- Each of the things a step can do leads from one shape to another. -/
theorem InCycle.step {s t : State} (hs : InCycle s) (h : step s = .next t) : InCycle t := by
  have hu := hs.of_hostActs
  cases step_cases h with
  | resume op rest htodo ht => exact ht ▸ inCycle_perform hu htodo
  | begins htodo hst hc ht =>
    subst ht
    exact inCycle_probeByte rfl (by simp) rfl rfl
  | declines htodo hst hc ht =>
    rcases ht with rfl | rfl
    · exact hu.of_passChoice
    · exact hu
  | ends o htodo hst ho ht =>
    subst ht
    exact inCycle_idle rfl htodo rfl
  | holds htodo hst ht => exact ht ▸ hu.of_attempt
  | fails j htodo hst ht =>
    subst ht
    exact inCycle_idle rfl rfl rfl
  | probe b rest v htodo hst hin hv hf ht =>
    subst hv
    exact inCycle_exec ht htodo (hu.outcome_eq_none (by rw [hst]; decide)) (hu.indicatorOn (.inl hst)) (fun _ => hst)
      decodeP1_not_probe (fun hto => by rw [decodeP1_steersTo] at hto; cases hto)
  | window b1 b2 b3 rest v htodo hst hk hin hv hf ht =>
    subst hv
    exact inCycle_exec ht htodo (hu.outcome_eq_none (by rw [hst]; decide)) (hu.indicatorOn (.inr (.inl hst)))
      (fun hp => by rw [decodeF3_not_probe] at hp; cases hp) (fun _ => hk) decodeF3_steersTo
  | fourth b rest v htodo hst hk hn hin hv hf ht =>
    subst hv
    exact inCycle_exec ht htodo (hu.outcome_eq_none (by rw [hst]; decide)) (hu.indicatorOn (.inr (.inr hst)))
      (fun hp => by rw [decodeF4_not_probe] at hp; cases hp) (fun _ => hk) (fun _ => hn)

theorem withinCapacity_hostActs {s : State} (h : withinCapacity s) : withinCapacity (hostActs s) := by
  intro c hc
  have := h c hc
  simp only [hostActs_output, List.length_drop]
  omega

/-- Every step keeps `OUT` within its capacity. -/
theorem step_withinCapacity {s t : State} (h : step s = .next t) (hs : withinCapacity s) : withinCapacity t := by
  have hu := withinCapacity_hostActs hs
  cases step_cases h with
  | resume op rest htodo ht =>
    obtain ⟨ev, hran, -⟩ := runOps_spec (op :: rest) { hostActs s with todo := [] }
    exact ht ▸ hran.progress.capacity hu
  | begins htodo hst hc ht => exact ht ▸ hu
  | declines htodo hst hc ht => rcases ht with rfl | rfl <;> exact hu
  | ends o htodo hst ho ht => exact ht ▸ hu
  | holds htodo hst ht => exact ht ▸ hu
  | fails j htodo hst ht => exact ht ▸ hu
  | probe b rest v htodo hst hin hv hf ht | window b1 b2 b3 rest v htodo hst hk hin hv hf ht
  | fourth b rest v htodo hst hk hn hin hv hf ht =>
    obtain ⟨ev, hp, -⟩ := exec_ends ht
    exact hp.capacity (hv ▸ hu)

/-- Settles O45. -/
theorem stepKeepsInv : Obligations.StepKeepsInv := by
  intro s t hs h
  obtain ⟨hcycle, hcap⟩ := inv_iff.mp hs
  exact inv_iff.mpr ⟨hcycle.step h, step_withinCapacity h hcap⟩

/-- Settles O44. -/
theorem invAtReset : Obligations.InvAtReset := inv_iff.mpr ⟨inCycle_idle rfl rfl rfl, fun c hc => by cases hc⟩

end Sys2Proof.Machine
end

section
/-! Proofs: what the trace of events says of every step (00_scope.md rule R9): both streams are whole, cycles do not nest, the
indicator holds the last request. `step_events` is the inversion `step_cases` with the events each case makes. -/

namespace Sys2Proof.Machine

/-! ### The events of a step -/

/-- `t` comes from `s` by the events `ev`, whatever happens to the registers. -/
structure Moved (ev : List Event) (s t : State) : Prop where
  cfg    : t.cfg = s.cfg
  trace  : t.trace = s.trace ++ ev
  input  : s.input = inBytes ev ++ t.input
  output : t.output = s.output ++ outBytes ev

theorem Progress.moved {ev : List Event} {s t : State} (h : Progress ev s t) : Moved ev s t := ⟨h.cfg, h.trace, h.input, h.output⟩

theorem Moved.trans {ev ev' : List Event} {s t u : State} (h : Moved ev s t) (h' : Moved ev' t u) : Moved (ev ++ ev') s u where
  cfg := h'.cfg.trans h.cfg
  trace := by rw [h'.trace, h.trace, List.append_assoc]
  input := by rw [h.input, h'.input, inBytes_append, List.append_assoc]
  output := by rw [h'.output, h.output, outBytes_append, List.append_assoc]

/-- A header read that went through: its bytes have left `IN`, each with its event. -/
theorem moved_header {u v : State} (bytes : List Byte) (hcfg : v.cfg = u.cfg) (ht : v.trace = u.trace ++ bytes.map Event.inp)
    (hi : u.input = bytes ++ v.input) (ho : v.output = u.output) : Moved (bytes.map Event.inp) u v where
  cfg := hcfg
  trace := ht
  input := by rw [inBytes_map_inp, hi]
  output := by rw [outBytes_map_inp, List.append_nil, ho]

/-- The things a step can do, by the events they make, `u` being the state after the host's move. -/
inductive StepEvents (u t : State) : List Event → Prop
  | resume (op : Op) (rest : List Op) (ev : List Event) (htodo : u.todo = op :: rest)
      (hend : Ended u.cfg.stopVariant (op :: rest) ev { u with todo := [] } t) : StepEvents u t ev
  | begins (hst : u.st = .idle) (ht : t.st = .probeByte) : StepEvents u t [.start, .ind true]
  | silent (hst : t.st = u.st) : StepEvents u t []
  | ends (o : CycleOutcome) (hst : u.st = .done) (ht : t.st = .idle) : StepEvents u t [.ret o]
  | fails (bytes : List Byte) (hst : u.st ≠ .idle) (ht : t.st = .idle) : StepEvents u t (bytes.map Event.inp ++ [.fault .inp])
  | runs (bytes : List Byte) (ev : List Event) (i : Instr) (v : State) (hst : u.st ≠ .idle) (hv : v.st = u.st)
      (hf : fetch u = .run i v) (ht : exec i v = .next t) (hend : InstrEnds v.cfg.stopVariant i ev v t) :
      StepEvents u t (bytes.map Event.inp ++ ev)

theorem step_runs_events {u v t : State} {i : Instr} (hf : fetch u = .run i v) (ht : exec i v = .next t) (bytes : List Byte)
    (hst : u.st ≠ .idle) (hv : v.st = u.st) (hm : Moved (bytes.map Event.inp) u v) :
    ∃ ev, Moved ev u t ∧ StepEvents u t ev := by
  obtain ⟨ev, hp, hend⟩ := exec_ends ht
  exact ⟨_, hm.trans hp.moved, .runs bytes ev i v hst hv hf ht hend⟩

theorem step_events {s t : State} (h : step s = .next t) : ∃ ev, Moved ev (hostActs s) t ∧ StepEvents (hostActs s) t ev := by
  have hc := step_cases h
  generalize hostActs s = u at hc
  cases hc with
  | resume op rest htodo ht =>
    obtain ⟨ev, hran, hend⟩ := runOps_spec (op :: rest) { u with todo := [] }
    subst ht
    have begun : Moved [] u { u with todo := [] } := ⟨rfl, by simp, rfl, by simp [outBytes]⟩
    exact ⟨ev, begun.trans hran.progress.moved, .resume op rest ev htodo hend⟩
  | begins htodo hst hc ht =>
    subst ht
    exact ⟨_, ⟨rfl, by simp, rfl, by simp [outBytes]⟩, .begins hst rfl⟩
  | declines htodo hst hc ht =>
    rcases ht with rfl | rfl <;> exact ⟨[], ⟨rfl, by simp, rfl, by simp [outBytes]⟩, .silent rfl⟩
  | ends o htodo hst ho ht =>
    subst ht
    exact ⟨_, ⟨rfl, rfl, rfl, by simp [outBytes]⟩, .ends o hst rfl⟩
  | holds htodo hst ht =>
    subst ht
    exact ⟨[], (progress_attempt u).moved, .silent rfl⟩
  | fails j htodo hst ht =>
    subst ht
    have taken := ((progress_attempt u).trans (progress_consume j (attempt u))).moved
    have stopped : Moved [.fault .inp] (consume j (attempt u)) (takeStreamFault .inp (consume j (attempt u))) :=
      ⟨rfl, rfl, rfl, by simp [outBytes]⟩
    exact ⟨_, taken.trans stopped, .fails (u.input.take j) (by rcases hst with h | h | h <;> simp [h]) rfl⟩
  | probe b rest v htodo hst hin hv hf ht =>
    subst hv
    exact step_runs_events hf ht [b] (by simp [hst]) rfl (moved_header [b] rfl rfl hin rfl)
  | window b1 b2 b3 rest v htodo hst hk hin hv hf ht =>
    subst hv
    exact step_runs_events hf ht [b1, b2, b3] (by simp [hst]) rfl (moved_header [b1, b2, b3] rfl rfl hin rfl)
  | fourth b rest v htodo hst hk hn hin hv hf ht =>
    subst hv
    exact step_runs_events hf ht [b] (by simp [hst]) rfl (moved_header [b] rfl rfl hin rfl)

/-- Settles O47: the host's move, then a block that takes and gives exactly the bytes of its events. -/
theorem streamsAreLossless : Obligations.StreamsAreLossless := by
  intro s t h
  obtain ⟨ev, hm, -⟩ := step_events h
  exact ⟨ev, hm.trace, hm.input, hm.output⟩

/-- Settles O51. -/
theorem stepKeepsParameters : Obligations.StepKeepsParameters := by
  intro s t h
  obtain ⟨ev, hm, -⟩ := step_events h
  exact hm.cfg

/-! ### Cycles -/

/-- An event that begins or ends a cycle. -/
def isBoundary : Event → Bool
  | .start | .ret _ | .fault _ => true
  | .ind _ | .inp _ | .out _ | .call _ => false

theorem cycles_of_noBoundary {ev : List Event} (h : ∀ e ∈ ev, isBoundary e = false) : cyclesBegun ev = 0 ∧ cyclesEnded ev = 0 := by
  induction ev with
  | nil => exact ⟨rfl, rfl⟩
  | cons e es ih =>
    have he := h e List.mem_cons_self
    have hes := ih fun e' he' => h e' (List.mem_cons_of_mem _ he')
    cases e with
    | start | ret _ | fault _ => cases he
    | ind _ | inp _ | out _ | call _ => exact hes

theorem cycles_of_fault {ev : List Event} (d : Dir) (h : ∀ e ∈ ev, isBoundary e = false) :
    cyclesBegun (ev ++ [.fault d]) = 0 ∧ cyclesEnded (ev ++ [.fault d]) = 1 := by
  obtain ⟨hb, he⟩ := cycles_of_noBoundary h
  rw [cyclesBegun_append, cyclesEnded_append, hb, he]
  exact ⟨rfl, rfl⟩

theorem opMakes_noBoundary {v : StopVariant} {op : Op} {e : Event} (h : opMakes v op e = true) : isBoundary e = false := by
  cases e with
  | start | ret _ | fault _ => cases op <;> cases h
  | ind _ | inp _ | out _ | call _ => rfl

theorem allows_noBoundary {v : StopVariant} {i : Instr} {e : Event} (h : allows v i e = true) : isBoundary e = false := by
  cases e with
  | start | ret _ | fault _ => cases h
  | ind _ | inp _ | out _ | call _ => rfl

theorem map_inp_noBoundary (bytes : List Byte) : ∀ e ∈ bytes.map Event.inp, isBoundary e = false := by
  simp [isBoundary]

/-- What a step's events do to the count of cycles, and where they leave the parser. -/
theorem cyclesBalanced_of_events {s t : State} {ev : List Event} (hs : cyclesBalanced s) (htrace : t.trace = s.trace ++ ev)
    (hev : (if s.st = .idle then 0 else 1) + cyclesBegun ev = cyclesEnded ev + (if t.st = .idle then 0 else 1)) :
    cyclesBalanced t := by
  unfold cyclesBalanced at *
  rw [htrace, cyclesBegun_append, cyclesEnded_append]
  omega

/-- Settles O48. -/
theorem stepKeepsCyclesBalanced : Obligations.StepKeepsCyclesBalanced := by
  intro s t hinv hbal h
  obtain ⟨ev, hm, hev⟩ := step_events h
  refine cyclesBalanced_of_events hbal hm.trace ?_
  -- inside a cycle: the events have no boundary and the cycle goes on, or they end in a failure and in `Idle`
  have goes_on : ∀ es, (∀ e ∈ es, isBoundary e = false) → s.st ≠ .idle → t.st ≠ .idle →
      (if s.st = .idle then 0 else 1) + cyclesBegun es = cyclesEnded es + (if t.st = .idle then 0 else 1) := by
    intro es hes hs ht
    obtain ⟨hb, he⟩ := cycles_of_noBoundary hes
    rw [hb, he, if_neg hs, if_neg ht]
  have fails : ∀ es d, (∀ e ∈ es, isBoundary e = false) → s.st ≠ .idle → t.st = .idle →
      (if s.st = .idle then 0 else 1) + cyclesBegun (es ++ [.fault d])
        = cyclesEnded (es ++ [.fault d]) + (if t.st = .idle then 0 else 1) := by
    intro es d hes hs ht
    obtain ⟨hb, he⟩ := cycles_of_fault d hes
    rw [hb, he, if_neg hs, if_pos ht]
  cases hev with
  | resume op rest _ htodo hend =>
    have hne : s.todo ≠ [] := by
      rw [hostActs_todo] at htodo
      simp [htodo]
    have hst : s.st ≠ .idle := by rcases hinv.todoInAction hne with h | h <;> simp [h]
    rcases hend with ⟨d, earlier, rfl, he, ht, -⟩ | ⟨he, ht⟩
    · exact fails _ _ (fun e hmem => by obtain ⟨op, -, ho⟩ := he e hmem; exact opMakes_noBoundary ho) hst ht
    · refine goes_on _ (fun e hmem => by obtain ⟨op, -, ho⟩ := he e hmem; exact opMakes_noBoundary ho) hst ?_
      rcases ht (htodo ▸ hinv.todoFinishes hne) with ht | ht
      · exact ht ▸ hst
      · simp [ht]
  | begins hst ht =>
    rw [hostActs_st] at hst
    simp [hst, ht, cyclesBegun, cyclesEnded]
  | silent ht =>
    have ht : t.st = s.st := ht
    rw [ht]
    simp [cyclesBegun, cyclesEnded]
  | ends o hst ht =>
    rw [hostActs_st] at hst
    simp [hst, ht, cyclesBegun, cyclesEnded]
  | fails bytes hst ht => exact fails _ _ (map_inp_noBoundary bytes) hst ht
  | runs bytes es i v hst hv hf _ hend =>
    have quiet : ∀ es : List Event, (∀ e ∈ es, allows v.cfg.stopVariant i e = true) →
        ∀ e ∈ bytes.map Event.inp ++ es, isBoundary e = false := by
      intro es hes e he
      rcases List.mem_append.mp he with he | he
      · exact map_inp_noBoundary bytes e he
      · exact allows_noBoundary (hes e he)
    rcases hend with ⟨d, earlier, rfl, he, ht, -⟩ | ⟨he, ht⟩
    · rw [← List.append_assoc]
      exact fails _ _ (quiet earlier he) hst ht
    · exact goes_on _ (quiet es he) hst fun h0 => hst (hv ▸ (ht h0).2)

/-! ### The indicator -/

theorem lastRequest_none {ev : List Event} (h : ∀ on, Event.ind on ∉ ev) : lastRequest ev = none := by
  induction ev with
  | nil => rfl
  | cons e es ih =>
    have hes := ih fun on hon => h on (List.mem_cons_of_mem _ hon)
    cases e with
    | ind on => exact absurd List.mem_cons_self (h on)
    | _ => exact hes

/-- Without a request the indicator is still the last one. -/
theorem indicator_of_noRequest {s t : State} {ev : List Event} (hs : indicatorIsLastRequest s) (ht : t.trace = s.trace ++ ev)
    (hev : ∀ on, Event.ind on ∉ ev) (hi : t.ind = s.ind) : indicatorIsLastRequest t := by
  intro v hv
  rw [ht, lastRequest_append, lastRequest_none hev, Option.none_or] at hv
  exact hi.trans (hs v hv)

theorem map_inp_noRequest (bytes : List Byte) : ∀ on, Event.ind on ∉ bytes.map Event.inp := by
  simp

theorem indicator_of_request {s t : State} {on : Bool} (ht : t.trace = s.trace ++ [.ind on]) (hi : t.ind = on) :
    indicatorIsLastRequest t := by
  intro v hv
  rw [ht, lastRequest_append] at hv
  exact hi.trans (Option.some.inj hv)

theorem opMakes_request {v : StopVariant} {op : Op} {on : Bool} (h : opMakes v op (.ind on) = true) : isBody op = false := by
  cases op with
  | goto _ | indSet _ | finish _ => rfl
  | _ => cases h

/-- However a statement ends, the indicator is the last request. -/
theorem runOp_indicator {s : State} (op : Op) (hs : indicatorIsLastRequest s) :
    match runOp op s with
    | .done t => indicatorIsLastRequest t
    | .held _ t => indicatorIsLastRequest t
    | .failed t => indicatorIsLastRequest t := by
  have h := runOp_spec op s
  have noRequest : ∀ ev t, Did s.cfg.stopVariant op ev s t → isBody op = true → ∀ on, Event.ind on ∉ ev := by
    intro ev t hd hb on hon
    rw [opMakes_request (hd.events _ hon)] at hb
    cases hb
  cases hr : runOp op s with
  | done t =>
    rw [hr] at h
    obtain ⟨ev, hp, hd, hsc⟩ := h
    cases hb : isBody op with
    | true => exact indicator_of_noRequest hs hp.trace (noRequest ev t hd hb) (hsc hb).ind
    | false =>
      cases op with
      | indSet on =>
        injection hr with hr
        subst hr
        exact indicator_of_request rfl rfl
      | goto p =>
        injection hr with hr
        subst hr
        exact hs
      | finish o =>
        injection hr with hr
        subst hr
        exact hs
      | _ => cases hb
  | held left t =>
    rw [hr] at h
    obtain ⟨ev, hp, hd, hsc, hb, -⟩ := h
    exact indicator_of_noRequest hs hp.trace (noRequest ev t hd hb) hsc.ind
  | failed t =>
    rw [hr] at h
    obtain ⟨ev, d, hp, hd, ha, hb⟩ := h
    exact indicator_of_noRequest hs hp.trace (by simpa using noRequest ev t hd hb) ha.ind

theorem runOps_indicator {s : State} (ops : List Op) (hs : indicatorIsLastRequest s) : indicatorIsLastRequest (runOps ops s) := by
  induction ops generalizing s with
  | nil => exact hs
  | cons op rest ih =>
    have h := runOp_indicator op hs
    unfold runOps
    cases hr : runOp op s <;> rw [hr] at h
    case done t => exact ih h
    all_goals exact h

theorem exec_indicator {i : Instr} {s t : State} (h : exec i s = .next t) (hs : indicatorIsLastRequest s) :
    indicatorIsLastRequest t := by
  rw [exec_eq] at h
  injection h with h
  subst h
  split
  · exact runOps_indicator _ hs
  · exact hs

/-- Settles O49. -/
theorem stepKeepsLastRequest : Obligations.StepKeepsLastRequest := by
  intro s t hs h
  have hu : indicatorIsLastRequest (hostActs s) := hs
  cases step_cases h with
  | resume op rest htodo ht =>
    subst ht
    exact runOps_indicator (op :: rest) hu
  | begins htodo hst hc ht =>
    subst ht
    exact indicator_of_request (s := emit .start (hostActs s)) rfl rfl
  | declines htodo hst hc ht =>
    rcases ht with rfl | rfl <;> exact hu
  | ends o htodo hst ho ht =>
    subst ht
    exact indicator_of_noRequest hu rfl (by simp) rfl
  | holds htodo hst ht =>
    subst ht
    exact hu
  | fails j htodo hst ht =>
    subst ht
    refine indicator_of_noRequest (s := consume j (attempt (hostActs s))) ?_ rfl (by simp) rfl
    exact indicator_of_noRequest hu rfl (map_inp_noRequest _) rfl
  | probe b rest v htodo hst hin hv hf ht =>
    subst hv
    exact exec_indicator ht (indicator_of_noRequest hu rfl (map_inp_noRequest [b]) rfl)
  | window b1 b2 b3 rest v htodo hst hk hin hv hf ht =>
    subst hv
    exact exec_indicator ht (indicator_of_noRequest hu rfl (map_inp_noRequest [b1, b2, b3]) rfl)
  | fourth b rest v htodo hst hk hn hin hv hf ht =>
    subst hv
    exact exec_indicator ht (indicator_of_noRequest hu rfl (map_inp_noRequest [b]) rfl)

/-! ### Where requests come from -/

/-- A request among the events of an instruction asks off, and the instruction is dispatched. -/
theorem InstrEnds.request {v : StopVariant} {i : Instr} {ev : List Event} {s t : State} (h : InstrEnds v i ev s t) {on : Bool}
    (hon : Event.ind on ∈ ev) : on = false ∧ isDispatched i = true := by
  simpa [allows] using h.allows_of_mem hon (by simp)

theorem bodyThenFinish_noRequest {ops : List Op} (h : bodyThenFinish ops = true) (v : StopVariant) (on : Bool) :
    ∀ op ∈ ops, opMakes v op (.ind on) = false := by
  induction ops with
  | nil => simp
  | cons op rest ih =>
    by_cases hfin : ∃ o, op = .finish o ∧ rest = []
    · obtain ⟨o, rfl, rfl⟩ := hfin
      simp [opMakes]
    · obtain ⟨hb, hrest⟩ := bodyThenFinish_cons h hfin
      refine List.forall_mem_cons.mpr ⟨?_, ih hrest⟩
      by_contra hm
      rw [opMakes_request (Bool.eq_true_of_not_eq_false hm)] at hb
      cases hb

/-- What is left of an action makes no request. -/
theorem Ended.noRequest {v : StopVariant} {ops : List Op} {ev : List Event} {s t : State} (h : Ended v ops ev s t)
    (hops : bodyThenFinish ops = true) (on : Bool) : Event.ind on ∉ ev := by
  intro hon
  obtain ⟨op, hop, hm⟩ : ∃ op ∈ ops, opMakes v op (.ind on) = true := by
    rcases h with ⟨d, earlier, rfl, he, -⟩ | ⟨he, -⟩
    · exact he _ (by simpa using hon)
    · exact he _ hon
  rw [bodyThenFinish_noRequest hops v on op hop] at hm
  cases hm

/-- Settles O50. -/
theorem indicatorRequestsOnlyThere : Obligations.IndicatorRequestsOnlyThere := by
  intro s t hinv h
  obtain ⟨ev, hm, hev⟩ := step_events h
  refine ⟨ev, hm.trace, ?_⟩
  cases hev with
  | resume op rest _ htodo hend =>
    have hops : bodyThenFinish (op :: rest) = true := by
      rw [hostActs_todo] at htodo
      exact htodo ▸ hinv.todoFinishes (by simp [htodo])
    exact ⟨fun hon => absurd hon (hend.noRequest hops true), fun hon => absurd hon (hend.noRequest hops false)⟩
  | begins hst ht => exact ⟨fun _ => hst, by simp⟩
  | silent ht => simp
  | ends o hst ht => simp
  | fails bytes hst ht => simp
  | runs bytes es i v hst hv hf ht hend =>
    have later : ∀ on, Event.ind on ∈ bytes.map Event.inp ++ es → on = false ∧ isDispatched i = true :=
      fun on hon => hend.request (by simpa using hon)
    exact ⟨fun hon => Bool.noConfusion (later true hon).1, fun hon => ⟨i, v, (later false hon).2, hf, ht⟩⟩

end Sys2Proof.Machine
end

section
/-! Proofs: what happens in `Idle`, where the caller decides (41_parser.md rule R131, 60_exceptions.md rules R194, R215, R216), after
a failure and after reset (70_reset_and_hazards.md). A step there is the caller's move on the state after the host's. -/

namespace Sys2Proof.Machine

/-! ### One step -/

theorem step_begins {s : State} (hst : s.st = .idle) (h0 : s.todo = []) (hc : callerChoice s = .start) :
    step s = .next (beginCycle (passChoice (hostActs s))) := by
  rw [step_idle hst h0, callerActs_start (s := hostActs s) hc]

/-- Settles O9. -/
theorem cycleBeginsWithIndicatorOn : Obligations.CycleBeginsWithIndicatorOn := by
  intro s hst h0 hc
  rw [step_begins hst h0 hc]
  simp [beginCycle, passChoice, goto, indSet, emit, h0]

/-- A caller that does not issue `START`: only the host's move, and the choice used up unless it is to stop. -/
theorem step_declines {s : State} (hst : s.st = .idle) (h0 : s.todo = []) (hc : callerChoice s ≠ .start) :
    step s = .next { hostActs s with caller := if callerChoice s = .stop then s.caller else s.caller.tail } := by
  rw [step_idle hst h0]
  cases h : callerChoice s with
  | start => exact absurd h hc
  | wait =>
    rw [callerActs_wait (s := hostActs s) h]
    rfl
  | stop =>
    rw [callerActs_stop (s := hostActs s) h]
    rfl

/-- Settles O41: a failure leaves `Idle`, so the next step is the caller's. -/
theorem nextCycleAfterFailure : Obligations.NextCycleAfterFailure := by
  intro s d
  refine ⟨fun hc => ?_, fun hc => ⟨_, step_declines (s := takeStreamFault d s) rfl rfl hc, rfl, rfl, rfl, rfl, rfl, rfl, rfl⟩⟩
  rw [step_begins (s := takeStreamFault d s) rfl rfl hc]
  simp [beginCycle, passChoice, goto, indSet, emit, takeStreamFault, hostActs]

/-- Settles O42. -/
theorem resetIsIdle : Obligations.ResetIsIdle := ⟨rfl, rfl, rfl, rfl, rfl⟩

/-- Settles O43. -/
theorem resetLeavesStreams : Obligations.ResetLeavesStreams := by
  intro s
  refine ⟨rfl, rfl, rfl, rfl, rfl, rfl, rfl, rfl, rfl, fun hc => ?_, fun hc => ?_⟩
  · exact ⟨_, step_begins (s := resetBlock s) rfl rfl hc, rfl, rfl, List.append_assoc ..⟩
  · exact ⟨_, step_declines (s := resetBlock s) rfl rfl hc, rfl, rfl, rfl⟩

/-! ### Any number of steps -/

/-- What `n` moves of the host do to a state. -/
def afterMoves (n : Nat) (s : State) : State :=
  { s with
    input := s.input ++ (s.host.take n).flatMap HostMove.send
    output := s.output.drop ((s.host.take n).map HostMove.drain).sum, host := s.host.drop n }

theorem afterMoves_zero (s : State) : afterMoves 0 s = s := by simp [afterMoves]

theorem afterMoves_succ (n : Nat) (s : State) : afterMoves (n + 1) s = afterMoves n (hostActs s) := by
  cases hs : s.host <;> simp [afterMoves, hostActs, hs]

theorem steps_eq_step (s : State) : steps 1 s = step s := by
  simp only [steps]
  cases step s <;> rfl

/-- A caller that has stopped invoking: the host's moves are all that happens. -/
theorem steps_stopped (n : Nat) {s : State} (hst : s.st = .idle) (h0 : s.todo = []) (hc : callerChoice s = .stop) :
    steps n s = .next (afterMoves n s) := by
  induction n generalizing s with
  | zero => rw [afterMoves_zero]; rfl
  | succ n ih =>
    have h : step s = .next (hostActs s) := by
      rw [step_idle hst h0, callerActs_stop (s := hostActs s) hc]
    rw [steps_succ h, afterMoves_succ]
    exact ih hst h0 hc

/-- A caller that waits `n` steps and then invokes. -/
theorem steps_waits (n : Nat) (rest : List CallerMove) {s : State} (hst : s.st = .idle) (h0 : s.todo = []) :
    steps (n + 1) { s with caller := List.replicate n .wait ++ .start :: rest } =
      step { afterMoves n s with caller := .start :: rest } := by
  induction n generalizing s with
  | zero =>
    rw [afterMoves_zero]
    exact steps_eq_step _
  | succ n ih =>
    have h : step { s with caller := List.replicate (n + 1) .wait ++ .start :: rest } =
        .next { hostActs s with caller := List.replicate n .wait ++ .start :: rest } :=
      step_declines (s := { s with caller := List.replicate (n + 1) .wait ++ .start :: rest }) hst h0
        (by simp [callerChoice, List.replicate_succ])
    rw [steps_succ h, afterMoves_succ]
    exact ih (s := hostActs s) hst h0

/-- Settles O58. -/
theorem callerMayDeclineToInvoke : Obligations.CallerMayDeclineToInvoke :=
  ⟨fun _ hst h0 hc => step_declines hst h0 hc, fun _ n hst h0 hc => steps_stopped n hst h0 hc,
    fun _ n rest hst h0 => steps_waits n rest hst h0⟩

end Sys2Proof.Machine
end

section
/-! Proofs: the acquisition of a header in a quiet environment, no host move and no failure planned (41_parser.md rules R142 to R145).
From one window to the next the parser keeps to `Listening`, and what it has done is `HeaderRead`: bytes taken, each with its
event, and nothing else that matters. Runs of windows are then inductions over the bytes. -/

namespace Sys2Proof.Machine

/-! ### Where the parser is, and what it has done -/

/-- The parser reads in the state `p`, after the sentinel, in a quiet environment. -/
structure Listening (p : ParserState) (s : State) : Prop where
  st     : s.st = p
  todo   : s.todo = []
  k      : s.k = sentinel
  host   : s.host = []
  faults : s.faults = []

/-- The bytes `used` have been taken from `IN`, each with its event; payload registers, indicator, outcome, `OUT` and collaborators
are as they were. -/
structure HeaderRead (used : List Byte) (s t : State) : Prop where
  input   : s.input = used ++ t.input
  trace   : t.trace = s.trace ++ used.map Event.inp
  output  : t.output = s.output
  ind     : t.ind = s.ind
  outcome : t.outcome = s.outcome
  f0      : t.f0 = s.f0
  f1      : t.f1 = s.f1
  f2      : t.f2 = s.f2
  u0      : t.u0 = s.u0
  answers : t.answers = s.answers

theorem HeaderRead.refl (s : State) : HeaderRead [] s s := by
  constructor <;> simp

theorem HeaderRead.trans {used used' : List Byte} {s t u : State} (h : HeaderRead used s t) (h' : HeaderRead used' t u) :
    HeaderRead (used ++ used') s u where
  input := by rw [h.input, h'.input, List.append_assoc]
  trace := by rw [h'.trace, h.trace, List.map_append, List.append_assoc]
  output := h'.output.trans h.output
  ind := h'.ind.trans h.ind
  outcome := h'.outcome.trans h.outcome
  f0 := h'.f0.trans h.f0
  f1 := h'.f1.trans h.f1
  f2 := h'.f2.trans h.f2
  u0 := h'.u0.trans h.u0
  answers := h'.answers.trans h.answers

/-! ### Runs -/

theorem steps_add {m : Nat} (n : Nat) {s t : State} (h : steps m s = .next t) : steps (m + n) s = steps n t := by
  induction m generalizing s with
  | zero =>
    injection h with h
    rw [h, Nat.zero_add]
  | succ m ih =>
    obtain ⟨u, hu⟩ : ∃ u, step s = .next u := by
      simp only [steps] at h
      split at h
      · exact ⟨_, by assumption⟩
      all_goals cases h
    rw [steps_succ hu] at h
    rw [Nat.add_right_comm, steps_succ hu]
    exact ih h

theorem steps_of_fixed {s : State} (h : step s = .next s) (n : Nat) : steps n s = .next s := by
  induction n with
  | zero => rfl
  | succ n ih => rw [steps_succ h, ih]

/-! ### One header read -/

/-- With no failure planned an attempt changes nothing. -/
theorem attempt_quiet {s : State} (h : s.faults = []) : attempt s = s := by
  cases s
  simp_all [attempt]

/-- Too few bytes: the block stays as it is. -/
theorem Listening.holds {p : ParserState} {s : State} {n : Nat} (h : Listening p s) (hn : headerRead p = some n)
    (hl : s.input.length < n) : step s = .next s := by
  obtain ⟨rfl, htodo, hk, hhost, hfaults⟩ := h
  rw [step_holds htodo hn (by simp [driverChoice, hfaults]) (by rwa [hostActs_quiet hhost]), hostActs_quiet hhost,
    attempt_quiet hfaults]

/-- A window that is there is read whole, and the verdict on it is run. -/
theorem Listening.window {s : State} {c1 c2 c3 : Byte} {rest : List Byte} (h : Listening .readCode3 s)
    (hi : s.input = c1 :: c2 :: c3 :: rest) :
    ∃ v, step s = exec (decodeF3 c1 c2 c3) v ∧ Listening .readCode3 v ∧ HeaderRead [c1, c2, c3] s v ∧ v.input = rest
      ∧ v.c1 = c1 ∧ v.c2 = c2 ∧ v.c3 = c3 := by
  refine ⟨_, step_window h.todo h.st h.k h.host h.faults hi, ⟨h.st, h.todo, h.k, h.host, h.faults⟩, ?_, rfl, rfl, rfl, rfl⟩
  exact {
    input := hi, trace := rfl, output := rfl, ind := rfl, outcome := rfl
    f0 := rfl, f1 := rfl, f2 := rfl, u0 := rfl, answers := rfl }

/-- A fourth byte that is there is read, and the verdict on the four is run. -/
theorem Listening.fourth {s : State} {b : Byte} {rest : List Byte} (h : Listening .readCode4 s)
    (hn : needsFourth s.c1 s.c2 s.c3 = true) (hi : s.input = b :: rest) :
    ∃ v, step s = exec (decodeF4 s.c1 s.c2 s.c3 b) v ∧ Listening .readCode4 v ∧ HeaderRead [b] s v ∧ v.input = rest := by
  refine ⟨_, step_fourth h.todo h.st h.k hn h.host h.faults hi, ⟨h.st, h.todo, h.k, h.host, h.faults⟩, ?_, rfl⟩
  exact {
    input := hi, trace := rfl, output := rfl, ind := rfl, outcome := rfl
    f0 := rfl, f1 := rfl, f2 := rfl, u0 := rfl, answers := rfl }

/-- Going on to another header read takes no byte. -/
theorem Listening.goto {p : ParserState} {s : State} (h : Listening p s) (q : ParserState) : Listening q (goto q s) :=
  ⟨rfl, h.todo, h.k, h.host, h.faults⟩

theorem HeaderRead.goto {used : List Byte} {s t : State} (h : HeaderRead used s t) (q : ParserState) :
    HeaderRead used s (goto q t) :=
  ⟨h.input, h.trace, h.output, h.ind, h.outcome, h.f0, h.f1, h.f2, h.u0, h.answers⟩

/-- R135: a window with a sentinel in it. -/
theorem Listening.resync3 {s : State} {c1 c2 c3 : Byte} {rest : List Byte} (h : Listening .readCode3 s)
    (hi : s.input = c1 :: c2 :: c3 :: rest) (hs : c1 = sentinel ∨ c2 = sentinel ∨ c3 = sentinel) :
    ∃ t, step s = .next t ∧ Listening .readCode3 t ∧ HeaderRead [c1, c2, c3] s t ∧ t.input = rest := by
  obtain ⟨v, hv, hl, hr, hrest, -⟩ := h.window hi
  exact ⟨_, hv.trans (exec_decodeF3_of_sentinel hs v), hl.goto _, hr.goto _, hrest⟩

/-- R136: an undecided window. -/
theorem Listening.undecided {s : State} {c1 c2 c3 : Byte} {rest : List Byte} (h : Listening .readCode3 s)
    (hi : s.input = c1 :: c2 :: c3 :: rest) (hn : needsFourth c1 c2 c3 = true) :
    ∃ t, step s = .next t ∧ Listening .readCode4 t ∧ HeaderRead [c1, c2, c3] s t ∧ t.input = rest
      ∧ t.c1 = c1 ∧ t.c2 = c2 ∧ t.c3 = c3 := by
  obtain ⟨v, hv, hl, hr, hrest, h1, h2, h3⟩ := h.window hi
  rw [decodeF3_needsFourth hn] at hv
  exact ⟨Machine.goto .readCode4 v, hv, hl.goto _, hr.goto _, hrest, h1, h2, h3⟩

/-- R136 to R138: an undecided window with its fourth byte. -/
theorem Listening.fourByteWindow {s : State} {c1 c2 c3 c4 : Byte} {rest : List Byte} (h : Listening .readCode3 s)
    (hi : s.input = c1 :: c2 :: c3 :: c4 :: rest) (hn : needsFourth c1 c2 c3 = true) :
    ∃ v, steps 2 s = exec (decodeF4 c1 c2 c3 c4) v ∧ Listening .readCode4 v ∧ HeaderRead [c1, c2, c3, c4] s v
      ∧ v.input = rest := by
  obtain ⟨t, ht, hl, hr, hrest, rfl, rfl, rfl⟩ := h.undecided hi hn
  obtain ⟨v, hv, hl', hr', hrest'⟩ := hl.fourth hn hrest
  exact ⟨v, (steps_succ ht).trans (steps_one hv), hl', hr.trans hr', hrest'⟩

/-- R137: an undecided window with a sentinel after it. -/
theorem Listening.resync4 {s : State} {c1 c2 c3 : Byte} {rest : List Byte} (h : Listening .readCode3 s)
    (hi : s.input = c1 :: c2 :: c3 :: sentinel :: rest) (hn : needsFourth c1 c2 c3 = true) :
    ∃ t, steps 2 s = .next t ∧ Listening .readCode3 t ∧ HeaderRead [c1, c2, c3, sentinel] s t ∧ t.input = rest := by
  obtain ⟨v, hv, hl, hr, hrest⟩ := h.fourByteWindow hi hn
  exact ⟨Machine.goto .readCode3 v, hv, hl.goto _, hr.goto _, hrest⟩

/-! ### The beginning of a cycle -/

/-- `START`, `IND(1)` and a sentinel as the probe byte: two steps (R131, R134). -/
theorem steps_frameStart {s : State} {body : List Byte} (hst : s.st = .idle) (h0 : s.todo = []) (hc : callerChoice s = .start)
    (hh : s.host = []) (hf : s.faults = []) (hi : s.input = sentinel :: body) :
    ∃ t, steps 2 s = .next t ∧ Listening .readCode3 t ∧ t.input = body
      ∧ HeaderRead [sentinel] (beginCycle (passChoice s)) t := by
  have started := step_begins hst h0 hc
  rw [hostActs_quiet hh] at started
  have probed := step_reads_probe (s := beginCycle (passChoice s)) (b := sentinel) (rest := body) rfl rfl
    (by simp [driverChoice, hf]) (by rw [hostActs_quiet (by exact hh)]; exact hi)
  rw [hostActs_quiet (by exact hh)] at probed
  refine ⟨_, (steps_succ started).trans (steps_one probed), ⟨rfl, rfl, rfl, hh, by simp [goto, hf]⟩, rfl, ?_⟩
  exact {
    input := hi, trace := rfl, output := rfl, ind := rfl, outcome := rfl
    f0 := rfl, f1 := rfl, f2 := rfl, u0 := rfl, answers := rfl }

/-! ### Runs of sentinels -/

/-- Windows with a sentinel in each are dropped, one step each (R144). -/
theorem steps_resync (windows : List (Byte × Byte × Byte)) {s : State} {rest : List Byte} (h : Listening .readCode3 s)
    (hw : ∀ w ∈ windows, w.1 = sentinel ∨ w.2.1 = sentinel ∨ w.2.2 = sentinel)
    (hi : s.input = windows.flatMap (fun w => [w.1, w.2.1, w.2.2]) ++ rest) :
    ∃ t, steps windows.length s = .next t ∧ Listening .readCode3 t ∧ t.input = rest
      ∧ HeaderRead (windows.flatMap (fun w => [w.1, w.2.1, w.2.2])) s t := by
  induction windows generalizing s with
  | nil => exact ⟨s, rfl, h, hi, .refl s⟩
  | cons w windows ih =>
    obtain ⟨t, ht, hl, hr, hrest⟩ := h.resync3 hi (hw w List.mem_cons_self)
    obtain ⟨u, hu, hl', hrest', hr'⟩ := ih hl (fun w' hw' => hw w' (List.mem_cons_of_mem _ hw')) hrest
    exact ⟨u, (steps_succ ht).trans hu, hl', hrest', hr.trans hr'⟩

/-- Settles O52: the windows by `steps_resync`, the steps after them at a fixed point. -/
theorem resyncHasNoBound : Obligations.ResyncHasNoBound := by
  intro windows s rest hst h0 hk hh hf hw hi n hn
  obtain ⟨t, ht, hl, hrest, hr⟩ := steps_resync windows ⟨hst, h0, hk, hh, hf⟩ hw hi
  refine ⟨t, ?_, hl.st, hrest, hr.ind, hr.output, hr.trace⟩
  rw [steps_add n ht]
  rcases hn with rfl | hn
  · rfl
  · exact steps_of_fixed (hl.holds (n := 3) rfl (by rwa [hrest])) n

theorem flatMap_replicate_sentinel (m : Nat) :
    (List.replicate m (sentinel, sentinel, sentinel)).flatMap (fun w => [w.1, w.2.1, w.2.2]) = List.replicate (3 * m) sentinel := by
  induction m with
  | zero => rfl
  | succ m ih => rw [List.replicate_succ, List.flatMap_cons, ih]; rfl

/-- A code after its sentinel runs: one step for three bytes, two for four. -/
theorem steps_code {i : Instr} (hi : i.wellFormed = true) (hf : i.format ≠ .p1) {s : State} {code rest : List Byte}
    (hcode : encode i = sentinel :: code) (h : Listening .readCode3 s) (hin : s.input = code ++ rest) :
    ∃ v, steps (i.format.bytes - 3) s = exec i v ∧ HeaderRead code s v ∧ v.input = rest := by
  have hd := decodeOfEncode i hi
  rcases decode_ok_cases hd with ⟨k, -, rfl⟩ | ⟨c1, c2, c3, hb, rfl⟩ | ⟨c1, c2, c3, c4, hb, hn, rfl⟩
  · exact absurd (decodeP1_format k) hf
  · rw [hcode] at hb
    injection hb with _ hb
    subst hb
    obtain ⟨v, hv, -, hr, hrest, -⟩ := h.window hin
    rw [decodeF3_format]
    exact ⟨v, steps_one hv, hr, hrest⟩
  · rw [hcode] at hb
    injection hb with _ hb
    subst hb
    obtain ⟨v, hv, -, hr, hrest⟩ := h.fourByteWindow hin hn
    rw [decodeF4_format]
    exact ⟨v, hv, hr, hrest⟩

/-- Settles O53: the frame's sentinel, `m` windows of three more, then the code. -/
theorem sentinelRunThenCodeRuns : Obligations.SentinelRunThenCodeRuns := by
  intro m i s rest hi hst h0 hc hh hf hin
  obtain ⟨hw, hfmt, hbytes, code, hcode⟩ : i.wellFormed = true ∧ i.format ≠ .p1 ∧ 3 < i.format.bytes
      ∧ ∃ code, encode i = sentinel :: code := by
    rcases hi with rfl | rfl | rfl | rfl | rfl | rfl | rfl <;> exact ⟨rfl, by decide, by decide, _, rfl⟩
  have hin' : s.input = sentinel :: (List.replicate (3 * m) sentinel ++ (code ++ rest)) := by
    rw [hin, hcode, List.cons_append, List.append_cons, ← List.replicate_succ', List.replicate_succ]
    rfl
  obtain ⟨t, ht, hl, hbody, hr⟩ := steps_frameStart hst h0 hc hh hf hin'
  rw [← flatMap_replicate_sentinel] at hbody
  obtain ⟨u, hu, hl', hrest, hr'⟩ := steps_resync _ hl (by simp) hbody
  rw [List.length_replicate] at hu
  obtain ⟨v, hv, hr'', hrest'⟩ := steps_code hw hfmt hcode hl' hrest
  have count : m + i.format.bytes - 1 = 2 + (m + (i.format.bytes - 3)) := by omega
  have read := (hr.trans hr').trans hr''
  exact ⟨v, by rw [count, steps_add _ ht, steps_add _ hu, hv], hrest', read.output, read.ind⟩

/-- Settles O54. -/
theorem extraSentinelShiftsWindow : Obligations.ExtraSentinelShiftsWindow := by
  intro s rest hst h0 hc hh hf hin
  obtain ⟨t, ht, hl, hbody, hr⟩ := steps_frameStart hst h0 hc hh hf hin
  obtain ⟨u, hu, hl', hr', hrest⟩ := hl.resync3 hbody (.inl rfl)
  have read := hr.trans hr'
  refine ⟨u, by rw [steps_add 1 ht, steps_eq_step, hu], hl'.st, hrest, read.outcome, hl'.todo, fun c hcall => ?_⟩
  rw [read.trace] at hcall
  simp at hcall

/-! ### The acquisition loop (R142) -/

theorem acquire_short {body : List Byte} (h : body.length < 3) : acquire body = none := by
  rcases body with _ | ⟨c1, _ | ⟨c2, _ | ⟨c3, rest⟩⟩⟩
  case cons.cons.cons =>
    simp only [List.length_cons] at h
    omega
  all_goals rw [acquire]; simp

theorem acquire_sentinel3 {c1 c2 c3 : Byte} (rest : List Byte) (h : c1 = sentinel ∨ c2 = sentinel ∨ c3 = sentinel) :
    acquire (c1 :: c2 :: c3 :: rest) = (acquire rest).map fun a => { a with resync3 := a.resync3 + 1 } := by
  rw [acquire.eq_def]
  exact if_pos h

theorem acquire_code3 {c1 c2 c3 : Byte} (rest : List Byte)
    (h : [c1, c2, c3] = codeCLR ∨ [c1, c2, c3] = codePIC ∨ [c1, c2, c3] = codePOS) :
    acquire (c1 :: c2 :: c3 :: rest) = some ⟨decodeF3 c1 c2 c3, rest, 0, 0⟩ := by
  rw [acquire.eq_def]
  rcases h with h | h | h <;>
    · injection h with h1 h
      injection h with h2 h
      injection h with h3
      subst h1 h2 h3
      rfl

theorem acquire_undecided {c1 c2 c3 : Byte} (h : needsFourth c1 c2 c3 = true) : acquire [c1, c2, c3] = none := by
  obtain ⟨hs, hCLR, hPIC, hPOS⟩ := needsFourth_iff.mp h
  have hs' : ¬ (c1 = 0x21#8 ∨ c2 = 0x21#8 ∨ c3 = 0x21#8) := by simpa [sentinel] using hs
  rw [acquire, if_neg hs', if_neg hCLR, if_neg hPIC, if_neg hPOS]

theorem acquire_fourth {c1 c2 c3 : Byte} (c4 : Byte) (rest : List Byte) (h : needsFourth c1 c2 c3 = true) :
    acquire (c1 :: c2 :: c3 :: c4 :: rest) =
      if c4 = sentinel then (acquire rest).map fun a => { a with resync4 := a.resync4 + 1 }
      else some ⟨decodeF4 c1 c2 c3 c4, rest, 0, 0⟩ := by
  obtain ⟨hs, hCLR, hPIC, hPOS⟩ := needsFourth_iff.mp h
  have hs' : ¬ (c1 = 0x21#8 ∨ c2 = 0x21#8 ∨ c3 = 0x21#8) := by simpa [sentinel] using hs
  rw [acquire, if_neg hs', if_neg hCLR, if_neg hPIC, if_neg hPOS]
  by_cases h4 : c4 = sentinel
  · exact (if_pos h4).trans (if_pos h4).symm
  · simp only [if_neg h4, decodeF4]
    refine (if_neg h4).trans ?_
    split_ifs <;> rfl

/-- The five things the loop meets at a window: it runs out of bytes before or after it, goes back to the next one, or decides. -/
inductive Loop (body : List Byte) : Prop
  | short (h : body.length < 3) (ha : acquire body = none)
  | resync3 (c1 c2 c3 : Byte) (rest : List Byte) (hb : body = c1 :: c2 :: c3 :: rest)
      (hs : c1 = sentinel ∨ c2 = sentinel ∨ c3 = sentinel)
      (ha : acquire body = (acquire rest).map fun a => { a with resync3 := a.resync3 + 1 })
  | code3 (c1 c2 c3 : Byte) (rest : List Byte) (hb : body = c1 :: c2 :: c3 :: rest)
      (ha : acquire body = some ⟨decodeF3 c1 c2 c3, rest, 0, 0⟩)
  | undecided (c1 c2 c3 : Byte) (hb : body = [c1, c2, c3]) (hn : needsFourth c1 c2 c3 = true) (ha : acquire body = none)
  | resync4 (c1 c2 c3 : Byte) (rest : List Byte) (hb : body = c1 :: c2 :: c3 :: sentinel :: rest)
      (hn : needsFourth c1 c2 c3 = true)
      (ha : acquire body = (acquire rest).map fun a => { a with resync4 := a.resync4 + 1 })
  | code4 (c1 c2 c3 c4 : Byte) (rest : List Byte) (hb : body = c1 :: c2 :: c3 :: c4 :: rest)
      (hn : needsFourth c1 c2 c3 = true) (ha : acquire body = some ⟨decodeF4 c1 c2 c3 c4, rest, 0, 0⟩)

theorem acquire_loop (body : List Byte) : Loop body := by
  rcases Nat.lt_or_ge body.length 3 with hl | hl
  · exact .short hl (acquire_short hl)
  obtain ⟨c1, c2, c3, rest, rfl⟩ := exists_window hl
  by_cases hs : c1 = sentinel ∨ c2 = sentinel ∨ c3 = sentinel
  · exact .resync3 c1 c2 c3 rest rfl hs (acquire_sentinel3 rest hs)
  by_cases hcode : [c1, c2, c3] = codeCLR ∨ [c1, c2, c3] = codePIC ∨ [c1, c2, c3] = codePOS
  · exact .code3 c1 c2 c3 rest rfl (acquire_code3 rest hcode)
  simp only [not_or] at hs hcode
  have hn : needsFourth c1 c2 c3 = true := needsFourth_iff.mpr ⟨hs, hcode⟩
  cases rest with
  | nil => exact .undecided c1 c2 c3 rfl hn (acquire_undecided hn)
  | cons c4 rest =>
    have ha := acquire_fourth c4 rest hn
    by_cases h4 : c4 = sentinel
    · subst h4
      exact .resync4 c1 c2 c3 rest rfl hn (by rw [ha, if_pos rfl])
    · exact .code4 c1 c2 c3 c4 rest rfl hn (by rw [ha, if_neg h4])

/-! ### The block follows the loop -/

/-- Where the loop ends the block runs its verdict, having taken the bytes the loop has (R143). -/
theorem steps_acquired {body : List Byte} {a : Acquired} (ha : acquire body = some a) {s : State}
    (h : Listening .readCode3 s) (hi : s.input = body) :
    ∃ n t used, steps n s = exec a.verdict t ∧ HeaderRead used s t ∧ t.input = a.rest
      ∧ used.length = 3 * (a.resync3 + a.resync4 + 1) + a.resync4 + (a.verdict.format.bytes - 4) := by
  induction hlen : body.length using Nat.strong_induction_on generalizing body a s with
  | _ len ih =>
  subst hlen
  cases acquire_loop body with
  | short _ ha' => rw [ha] at ha'; cases ha'
  | undecided _ _ _ _ _ ha' => rw [ha] at ha'; cases ha'
  | code3 c1 c2 c3 rest hb ha' =>
    rw [ha] at ha'
    injection ha' with ha'
    subst ha'
    obtain ⟨v, hv, -, hr, hrest, -⟩ := h.window (hi.trans hb)
    exact ⟨1, v, _, steps_one hv, hr, hrest, by rw [decodeF3_format]; rfl⟩
  | code4 c1 c2 c3 c4 rest hb hn ha' =>
    rw [ha] at ha'
    injection ha' with ha'
    subst ha'
    obtain ⟨v, hv, -, hr, hrest⟩ := h.fourByteWindow (hi.trans hb) hn
    exact ⟨2, v, _, hv, hr, hrest, by rw [decodeF4_format]; rfl⟩
  | resync3 c1 c2 c3 rest hb hs ha' =>
    rw [ha', Option.map_eq_some_iff] at ha
    obtain ⟨a', ha, rfl⟩ := ha
    obtain ⟨t, ht, hl, hr, hrest⟩ := h.resync3 (hi.trans hb) hs
    obtain ⟨n, u, used, hu, hr', hrest', hused⟩ := ih rest.length (by simp [hb]; omega) ha hl hrest rfl
    refine ⟨n + 1, u, _, (steps_succ ht).trans hu, hr.trans hr', hrest', ?_⟩
    simp only [List.length_append, List.length_cons, List.length_nil, hused]
    omega
  | resync4 c1 c2 c3 rest hb hn ha' =>
    rw [ha', Option.map_eq_some_iff] at ha
    obtain ⟨a', ha, rfl⟩ := ha
    obtain ⟨t, ht, hl, hr, hrest⟩ := h.resync4 (hi.trans hb) hn
    obtain ⟨n, u, used, hu, hr', hrest', hused⟩ := ih rest.length (by simp [hb]; omega) ha hl hrest rfl
    refine ⟨2 + n, u, _, (steps_add n ht).trans hu, hr.trans hr', hrest', ?_⟩
    simp only [List.length_append, List.length_cons, List.length_nil, hused]
    omega

/-- Where the bytes run out the block is still in a window after any number of steps. -/
theorem steps_unfinished {body : List Byte} (ha : acquire body = none) {s : State} (h : Listening .readCode3 s)
    (hi : s.input = body) (n : Nat) :
    ∃ t used, steps n s = .next t ∧ (t.st = .readCode3 ∨ t.st = .readCode4) ∧ HeaderRead used s t := by
  induction hlen : body.length using Nat.strong_induction_on generalizing body s n with
  | _ len ih =>
  subst hlen
  cases n with
  | zero => exact ⟨s, [], rfl, .inl h.st, .refl s⟩
  | succ n =>
  cases acquire_loop body with
  | code3 _ _ _ _ _ ha' => rw [ha] at ha'; cases ha'
  | code4 _ _ _ _ _ _ _ ha' => rw [ha] at ha'; cases ha'
  | short hl _ => exact ⟨s, [], steps_of_fixed (h.holds (n := 3) rfl (hi ▸ hl)) _, .inl h.st, .refl s⟩
  | undecided c1 c2 c3 hb hn _ =>
    obtain ⟨t, ht, hl, hr, hrest, -⟩ := h.undecided (hi.trans hb) hn
    have stays := hl.holds (n := 1) rfl (by rw [hrest]; exact Nat.one_pos)
    exact ⟨t, _, (steps_succ ht).trans (steps_of_fixed stays n), .inr hl.st, hr⟩
  | resync3 c1 c2 c3 rest hb hs ha' =>
    rw [ha', Option.map_eq_none_iff] at ha
    obtain ⟨t, ht, hl, hr, hrest⟩ := h.resync3 (hi.trans hb) hs
    obtain ⟨u, used, hu, hst, hr'⟩ := ih rest.length (by simp [hb]; omega) ha hl hrest n rfl
    exact ⟨u, _, (steps_succ ht).trans hu, hst, hr.trans hr'⟩
  | resync4 c1 c2 c3 rest hb hn ha' =>
    rw [ha', Option.map_eq_none_iff] at ha
    cases n with
    | zero =>
      obtain ⟨t, ht, hl, hr, -⟩ := h.undecided (hi.trans hb) hn
      exact ⟨t, _, steps_succ ht, .inr hl.st, hr⟩
    | succ n =>
      obtain ⟨t, ht, hl, hr, hrest⟩ := h.resync4 (hi.trans hb) hn
      obtain ⟨u, used, hu, hst, hr'⟩ := ih rest.length (by simp [hb]; omega) ha hl hrest n rfl
      exact ⟨u, _, by rw [Nat.add_assoc, Nat.add_comm, steps_add n ht, hu], hst, hr.trans hr'⟩

/-- Settles O55: two steps to the first window, then the loop. -/
theorem listenCycleFollowsProcedure : Obligations.ListenCycleFollowsProcedure := by
  intro s body hst h0 hc hh hf hin
  obtain ⟨t, ht, hl, hbody, hr⟩ := steps_frameStart hst h0 hc hh hf hin
  have trace_eq : ∀ used : List Byte, (beginCycle (passChoice s)).trace ++ used.map Event.inp
      = s.trace ++ ([.start, .ind true] ++ used.map Event.inp) := fun used => by simp
  refine ⟨fun a ha => ?_, fun ha n => ?_⟩
  · obtain ⟨n, u, used, hu, hr', hrest, hused⟩ := steps_acquired ha hl hbody
    have read := hr.trans hr'
    refine ⟨2 + n, u, [sentinel] ++ used, by rw [steps_add n ht, hu], hrest, ?_, ?_, by rw [read.trace, trace_eq], read.output,
      read.ind, read.f0, read.f1, read.f2, read.u0, read.answers⟩
    · rw [← hrest]
      exact read.input
    · simp only [List.length_append, List.length_singleton, hused]
      omega
  · obtain ⟨u, used, hu, hst', hr'⟩ := steps_unfinished ha hl hbody n
    have read := hr.trans hr'
    exact ⟨u, [sentinel] ++ used, by rw [Nat.add_comm, steps_add n ht, hu], hst', read.input, by rw [read.trace, trace_eq],
      read.output, read.ind⟩

end Sys2Proof.Machine
end

section
/-! Proofs: the scratch and payload registers are dead between cycles (10_state.md rules R34, R36). Two states that differ in
registers only are `s` and `withRegisters r s`. What the statements still to come will read before they write it is `needsF` and
`needsU`; where the two states agree on that (`Twin`), every statement ends alike in both, in states that agree on what is then
still needed. -/

namespace Sys2Proof.Machine

/-! ### States that differ in registers only -/

/-- `s` with the registers of `r`. -/
def withRegisters (r s : State) : State :=
  { s with k := r.k, c1 := r.c1, c2 := r.c2, c3 := r.c3, c4 := r.c4, f0 := r.f0, f1 := r.f1, f2 := r.f2, u0 := r.u0 }

theorem eraseRegisters_withRegisters (r s : State) : eraseRegisters (withRegisters r s) = eraseRegisters s := rfl

theorem eq_withRegisters {s s' : State} (h : eraseRegisters s = eraseRegisters s') : s' = withRegisters s' s := by
  cases s
  cases s'
  simp_all [eraseRegisters, withRegisters]

/-! ### What is read before it is written -/

/-- The float register in which a port's result lands. -/
def resultOf : Port → Option FReg
  | .getX => some .F0
  | .getY => some .F1
  | .getHeading => some .F2
  | _ => none

def readsF (q : FReg) : Op → Bool
  | .sendFloat r => r == q
  | .call .setPose => true
  | _ => false

def overwritesF (q : FReg) : Op → Bool
  | .receiveFloat r => r == q
  | .call p | .during p _ _ => resultOf p == some q
  | _ => false

/-- The statements read the float register `q` before they write it. -/
def needsF (q : FReg) : List Op → Bool
  | [] => false
  | op :: rest => readsF q op || (!overwritesF q op && needsF q rest)

def readsU : Op → Bool
  | .call .tonePlay => true
  | _ => false

/-- The statements read `U0` before they write it. -/
def needsU : List Op → Bool
  | [] => false
  | op :: rest => readsU op || (!writesU0 op && needsU rest)

/-- No instruction reads a payload register before it has written it. -/
theorem statementsOf_needs {i : Instr} {c : HexCase} {ops : List Op} (h : statementsOf c i = some ops) :
    (∀ q, needsF q ops = false) ∧ needsU ops = false := by
  cases i <;> simp only [statementsOf, Option.some.injEq, reduceCtorEq] at h <;> subst h <;>
    exact ⟨fun q => by cases q <;> rfl, rfl⟩

/-- `s'` is `s` but for registers, and for payload registers only where `ops` do not need them. -/
def Twin (ops : List Op) (s s' : State) : Prop :=
  ∃ r, s' = withRegisters r s ∧ (∀ q, needsF q ops = true → getF q r = getF q s) ∧ (needsU ops = true → r.u0 = s.u0)

theorem Twin.erase {ops : List Op} {s s' : State} (h : Twin ops s s') : eraseRegisters s = eraseRegisters s' := by
  obtain ⟨r, rfl, -⟩ := h
  rfl

theorem Twin.cfg {ops : List Op} {s s' : State} (h : Twin ops s s') : s'.cfg = s.cfg := by
  obtain ⟨r, rfl, -⟩ := h
  rfl

theorem Twin.of_erase {ops : List Op} {s s' : State} (h : eraseRegisters s = eraseRegisters s')
    (hf : ∀ q, needsF q ops = false) (hu : needsU ops = false) : Twin ops s s' :=
  ⟨s', eq_withRegisters h, fun q hq => Bool.noConfusion ((hf q).symm.trans hq), fun h => Bool.noConfusion (hu.symm.trans h)⟩

theorem Twin.mono {ops ops' : List Op} {s s' : State} (h : Twin ops s s') (hf : ∀ q, needsF q ops' = true → needsF q ops = true)
    (hu : needsU ops' = true → needsU ops = true) : Twin ops' s s' := by
  obtain ⟨r, hr, hrf, hru⟩ := h
  exact ⟨r, hr, fun q hq => hrf q (hf q hq), fun h => hru (hu h)⟩

/-- An update of a state that neither reads nor writes registers. -/
structure Unregistered (g : State → State) : Prop where
  comm : ∀ r s, g (withRegisters r s) = withRegisters r (g s)
  f    : ∀ q s, getF q (g s) = getF q s
  u    : ∀ s, (g s).u0 = s.u0

theorem Twin.map {ops : List Op} {s s' : State} (h : Twin ops s s') {g : State → State} (hg : Unregistered g) :
    Twin ops (g s) (g s') := by
  obtain ⟨r, rfl, hf, hu⟩ := h
  exact ⟨r, hg.comm r s, fun q hq => (hf q hq).trans (hg.f q s).symm, fun h => (hu h).trans (hg.u s).symm⟩

theorem unregistered_attempt : Unregistered attempt := ⟨fun _ _ => rfl, fun q _ => by cases q <;> rfl, fun _ => rfl⟩

theorem unregistered_consume (n : Nat) : Unregistered (consume n) := ⟨fun _ _ => rfl, fun q _ => by cases q <;> rfl, fun _ => rfl⟩

theorem unregistered_produce (b : List Byte) : Unregistered (produce b) :=
  ⟨fun _ _ => rfl, fun q _ => by cases q <;> rfl, fun _ => rfl⟩

theorem unregistered_emit (e : Event) : Unregistered (emit e) := ⟨fun _ _ => rfl, fun q _ => by cases q <;> rfl, fun _ => rfl⟩

theorem unregistered_goto (p : ParserState) : Unregistered (goto p) :=
  ⟨fun _ _ => rfl, fun q _ => by cases q <;> rfl, fun _ => rfl⟩

theorem unregistered_indSet (on : Bool) : Unregistered (indSet on) :=
  ⟨fun _ _ => rfl, fun q _ => by cases q <;> rfl, fun _ => rfl⟩

theorem unregistered_takeStreamFault (d : Dir) : Unregistered (takeStreamFault d) :=
  ⟨fun _ _ => rfl, fun q _ => by cases q <;> rfl, fun _ => rfl⟩

theorem unregistered_setTodo (ops : List Op) : Unregistered (fun s => { s with todo := ops }) :=
  ⟨fun _ _ => rfl, fun q _ => by cases q <;> rfl, fun _ => rfl⟩

theorem unregistered_finish (o : CycleOutcome) : Unregistered (fun s => goto .done { s with outcome := some o }) :=
  ⟨fun _ _ => rfl, fun q _ => by cases q <;> rfl, fun _ => rfl⟩

theorem unregistered_wait : Unregistered (fun s => emit (.call (.wait s.cfg.beepDuration)) s) :=
  ⟨fun _ _ => rfl, fun q _ => by cases q <;> rfl, fun _ => rfl⟩

theorem unregistered_useAnswer : Unregistered useAnswer where
  comm := fun r s => by cases hs : s.answers <;> simp [useAnswer, withRegisters, hs]
  f := fun q s => by cases q <;> simp [getF]
  u := useAnswer_u0

theorem unregistered_callerActs : Unregistered callerActs where
  comm := fun r s => by
    have hc : callerChoice (withRegisters r s) = callerChoice s := rfl
    unfold callerActs
    rw [hc]
    cases callerChoice s <;> rfl
  f := fun q s => by
    rcases callerActs_cases s with ⟨-, h⟩ | ⟨-, h⟩ | ⟨-, h⟩ <;> rw [h] <;> cases q <;> rfl
  u := fun s => by
    rcases callerActs_cases s with ⟨-, h⟩ | ⟨-, h⟩ | ⟨-, h⟩ <;> rw [h] <;> rfl

/-- A write of a float register to both: it is needed no more before it. -/
theorem Twin.setF {ops rest : List Op} {s s' : State} (h : Twin ops s s') (q : FReg) (w : Pattern)
    (hf : ∀ q', q' ≠ q → needsF q' rest = true → needsF q' ops = true) (hu : needsU rest = true → needsU ops = true) :
    Twin rest (setF q w s) (setF q w s') := by
  obtain ⟨r, rfl, hrf, hru⟩ := h
  refine ⟨Machine.setF q w r, by cases q <;> rfl, fun q' hq' => ?_, fun h => by simpa using hru (hu h)⟩
  by_cases hq : q' = q
  · subst hq
    simp
  · rw [getF_setF_other _ _ _ _ hq, getF_setF_other _ _ _ _ hq]
    exact hrf q' (hf q' hq hq')

theorem Twin.setU0 {ops rest : List Op} {s s' : State} (h : Twin ops s s') (w : Half)
    (hf : ∀ q, needsF q rest = true → needsF q ops = true) : Twin rest (setU0 w s) (setU0 w s') := by
  obtain ⟨r, rfl, hrf, -⟩ := h
  refine ⟨Machine.setU0 w r, rfl, fun q hq => ?_, fun _ => rfl⟩
  have := hrf q (hf q hq)
  cases q <;> exact this

/-! ### Accesses -/

/-- Two reads end alike. -/
inductive ReadTwin (ops : List Op) : ReadResult → ReadResult → Prop
  | got (b : List Byte) {t t' : State} (h : Twin ops t t') : ReadTwin ops (.got b t) (.got b t')
  | held {t t' : State} (h : Twin ops t t') : ReadTwin ops (.held t) (.held t')
  | failed {t t' : State} (h : Twin ops t t') : ReadTwin ops (.failed t) (.failed t')

theorem memRead_twin {ops : List Op} {s s' : State} (h : Twin ops s s') (n : Nat) : ReadTwin ops (memRead n s) (memRead n s') := by
  have hc : driverChoice s' = driverChoice s := by obtain ⟨r, rfl, -⟩ := h; rfl
  have hi : s'.input = s.input := by obtain ⟨r, rfl, -⟩ := h; rfl
  rcases memRead_cases n s with ⟨rfl, e⟩ | ⟨hn, hd, hl, e⟩ | ⟨hd, hl, e⟩ | ⟨hn, m, hd, e⟩ <;> rw [e]
  · exact .got [] h
  · rw [memRead_available (hc.trans hd) hn (hi ▸ hl), hi]
    exact .got _ ((h.map unregistered_attempt).map (unregistered_consume n))
  · rw [memRead_short (hc.trans hd) (hi ▸ hl)]
    exact .held (h.map unregistered_attempt)
  · rw [memRead_fails (hc.trans hd) hn]
    exact .failed (((h.map unregistered_attempt).map (unregistered_consume _)).map (unregistered_takeStreamFault _))

/-- Two writes end alike. -/
inductive WriteTwin (ops : List Op) : WriteResult → WriteResult → Prop
  | wrote {t t' : State} (h : Twin ops t t') : WriteTwin ops (.wrote t) (.wrote t')
  | held (rest : List Byte) {t t' : State} (h : Twin ops t t') : WriteTwin ops (.held rest t) (.held rest t')
  | failed {t t' : State} (h : Twin ops t t') : WriteTwin ops (.failed t) (.failed t')

theorem memWrite_twin {ops : List Op} {s s' : State} (h : Twin ops s s') (b : List Byte) :
    WriteTwin ops (memWrite b s) (memWrite b s') := by
  have hc : driverChoice s' = driverChoice s := by obtain ⟨r, rfl, -⟩ := h; rfl
  have hroom : outRoom b.length s' = outRoom b.length s := by obtain ⟨r, rfl, -⟩ := h; rfl
  have produced : ∀ l, Twin ops (produce l (attempt s)) (produce l (attempt s')) :=
    fun l => (h.map unregistered_attempt).map (unregistered_produce l)
  rcases memWrite_cases b s with ⟨rfl, e⟩ | ⟨hd, hb, hr, e⟩ | ⟨hd, hr, e⟩ | ⟨hb, m, hd, e⟩ <;> rw [e]
  · exact .wrote h
  · rw [memWrite_fits (hc.trans hd) hb (hroom.trans hr)]
    exact .wrote (produced _)
  · rw [memWrite_holds (hc.trans hd) (hroom ▸ hr), hroom]
    exact .held _ (produced _)
  · rw [memWrite_fails (hc.trans hd) hb, hroom]
    exact .failed ((produced _).map (unregistered_takeStreamFault _))

/-! ### Statements -/

/-- Two statements end alike, with `rest` still to come. -/
inductive OpTwin (rest : List Op) : OpResult → OpResult → Prop
  | done {t t' : State} (h : Twin rest t t') : OpTwin rest (.done t) (.done t')
  | held (left : Op) {t t' : State} (h : Twin (left :: rest) t t') : OpTwin rest (.held left t) (.held left t')
  | failed {t t' : State} (h : Twin [] t t') : OpTwin rest (.failed t) (.failed t')

theorem Twin.toNil {ops : List Op} {s s' : State} (h : Twin ops s s') : Twin [] s s' :=
  h.mono (fun _ hq => Bool.noConfusion hq) (fun hu => Bool.noConfusion hu)

/-- A statement that overwrites no register leaves the rest its needs. -/
theorem Twin.tail {op : Op} {rest : List Op} {s s' : State} (h : Twin (op :: rest) s s')
    (hf : ∀ q, overwritesF q op = false) (hu : writesU0 op = false) : Twin rest s s' :=
  h.mono (fun q hq => by simp [needsF, hf q, hq]) (fun hn => by simp [needsU, hu, hn])

theorem sendBytes_twin {op : Op} {rest : List Op} {s s' : State} (h : Twin (op :: rest) s s')
    (hf : ∀ q, overwritesF q op = false) (hu : writesU0 op = false) (b : List Byte) (n : Nat) :
    OpTwin rest (sendBytes b n s) (sendBytes b n s') := by
  have hw := memWrite_twin (h.tail hf hu) (b.take n)
  unfold sendBytes
  generalize memWrite (b.take n) s = x, memWrite (b.take n) s' = x' at hw
  cases hw with
  | wrote h => exact .done h
  | held left h => exact .held _ h
  | failed h => exact .failed h.toNil

theorem returnOf_twin {p : Port} {a : List Act} {w : Pattern} {rest : List Op} {s s' : State}
    (h : Twin (.during p a w :: rest) s s') : Twin rest (returnOf p w s) (returnOf p w s') := by
  have toReg : ∀ q, resultOf p = some q → Twin rest (setF q w s) (setF q w s') := by
    intro q hp
    refine h.setF q w (fun q' hq' hn => ?_) (fun hn => by simp [needsU, readsU, writesU0, hn])
    have : (some q == some q') = false := by simpa using Ne.symm hq'
    simp [needsF, readsF, overwritesF, hp, this, hn]
  cases p
  case getX => exact toReg .F0 rfl
  case getY => exact toReg .F1 rfl
  case getHeading => exact toReg .F2 rfl
  all_goals exact h.tail (fun _ => rfl) rfl

theorem duringCall_twin (p : Port) (w : Pattern) (acts a : List Act) {rest : List Op} {s s' : State}
    (h : Twin (.during p a w :: rest) s s') : OpTwin rest (duringCall p w acts s) (duringCall p w acts s') := by
  -- the needs of a call in progress do not depend on its acts
  have held : ∀ {left : List Act} {t t' : State}, Twin (.during p a w :: rest) t t' → Twin (.during p left w :: rest) t t' := id
  induction acts generalizing s s' with
  | nil => exact .done (returnOf_twin h)
  | cons act acts ih =>
    cases act with
    | linger => exact .held _ (held h)
    | hang => exact .held _ (held h)
    | take n =>
      have hr := memRead_twin h n
      unfold duringCall
      split
      · generalize memRead n s = x, memRead n s' = x' at hr
        cases hr with
        | got b h => exact ih h
        | held h => exact .held _ (held h)
        | failed h => exact .failed h.toNil
      · exact ih h
    | give b =>
      have hw := memWrite_twin h b
      unfold duringCall
      rw [h.cfg]
      split
      · generalize memWrite b s = x, memWrite b s' = x' at hw
        cases hw with
        | wrote h => exact ih h
        | held left h => exact .held _ (held h)
        | failed h => exact .failed h.toNil
      · exact ih h

/-- The event of a call is the same, since it needs what it reads. -/
theorem callOf_twin {p : Port} {w : Pattern} {rest : List Op} {s s' : State} (h : Twin (.call p :: rest) s s') :
    callOf p w s' = callOf p w s := by
  obtain ⟨r, rfl, hf, hu⟩ := h
  cases p
  case setPose =>
    have h0 : r.f0 = s.f0 := hf .F0 rfl
    have h1 : r.f1 = s.f1 := hf .F1 rfl
    have h2 : r.f2 = s.f2 := hf .F2 rfl
    simp only [callOf, withRegisters, h0, h1, h2]
  case tonePlay => exact congrArg Call.tonePlay (hu rfl)
  all_goals rfl

theorem callPort_twin {p : Port} {rest : List Op} {s s' : State} (h : Twin (.call p :: rest) s s') :
    OpTwin rest (callPort p s) (callPort p s') := by
  have ha : nextAnswer s' = nextAnswer s := by obtain ⟨r, rfl, -⟩ := h; rfl
  have inCall : Twin (.during p [] (nextAnswer s).result :: rest) s s' := by
    refine h.mono (fun q hq => ?_) (fun hu => ?_)
    · have hq' : (!overwritesF q (.call p) && needsF q rest) = true := hq
      simp [needsF, hq']
    · cases p with
      | tonePlay => rfl
      | _ => exact hu
  unfold callPort
  rw [ha, callOf_twin h]
  exact duringCall_twin p _ _ [] ((inCall.map unregistered_useAnswer).map (unregistered_emit _))

theorem runOp_twin (op : Op) {rest : List Op} {s s' : State} (h : Twin (op :: rest) s s') :
    OpTwin rest (runOp op s) (runOp op s') := by
  cases op with
  | goto p => exact .done ((h.tail (fun _ => rfl) rfl).map (unregistered_goto p))
  | indSet on => exact .done ((h.tail (fun _ => rfl) rfl).map (unregistered_indSet on))
  | finish o => exact .done ((h.tail (fun _ => rfl) rfl).map (unregistered_finish o))
  | wait => exact .done ((h.tail (fun _ => rfl) rfl).map unregistered_wait)
  | call p => exact callPort_twin h
  | during p acts w => exact duringCall_twin p w acts acts h
  | sendBytes b => exact sendBytes_twin h (fun _ => rfl) rfl b b.length
  | sendFloat r =>
    have hw : getF r s' = getF r s := by
      obtain ⟨q, rfl, hf, -⟩ := h
      have := hf r (by simp [needsF, readsF])
      cases r <;> exact this
    simp only [runOp, sendFloat]
    rw [hw, h.cfg]
    exact sendBytes_twin h (fun _ => rfl) rfl _ 4
  | receiveFloat r =>
    have hr := memRead_twin h 4
    simp only [runOp, receiveFloat]
    generalize memRead 4 s = x, memRead 4 s' = x' at hr
    cases hr with
    | got b h =>
      dsimp only
      rw [h.cfg]
      refine .done (h.setF r _ (fun q hq hn => ?_) (fun hn => by simp [needsU, readsU, writesU0, hn]))
      have : (r == q) = false := by simpa using Ne.symm hq
      simp [needsF, overwritesF, this, hn]
    | held h => exact .held _ h
    | failed h => exact .failed h.toNil
  | receiveUint16 =>
    have hr := memRead_twin h 2
    simp only [runOp, receiveUint16]
    generalize memRead 2 s = x, memRead 2 s' = x' at hr
    cases hr with
    | got b h =>
      dsimp only
      rw [h.cfg]
      exact .done (h.setU0 _ fun q hn => by simp [needsF, overwritesF, hn])
    | held h => exact .held _ h
    | failed h => exact .failed h.toNil

theorem runOp_todo {op : Op} {s t : State} (h : runOp op s = .done t) : t.todo = s.todo := by
  have hs := runOp_spec op s
  rw [h] at hs
  obtain ⟨ev, -, -, hsc⟩ := hs
  cases hb : isBody op with
  | true => exact (hsc hb).todo
  | false =>
    cases op with
    | goto p | indSet on | finish o =>
      injection h with h
      rw [← h]
      rfl
    | _ => cases hb

/-- What is left of a run is what the two runs still need. -/
theorem runOps_twin (ops : List Op) {s s' : State} (h : Twin ops s s') (h0 : s.todo = []) :
    Twin (runOps ops s).todo (runOps ops s) (runOps ops s') := by
  induction ops generalizing s s' with
  | nil =>
    simp only [runOps]
    rw [h0]
    exact h
  | cons op rest ih =>
    have hop := runOp_twin op h
    have hdone := @runOp_todo op s
    have hspec := runOp_spec op s
    unfold runOps
    generalize runOp op s = x, runOp op s' = x' at hop hdone hspec
    cases hop with
    | done h => exact ih h ((hdone rfl).trans h0)
    | held left h => exact h.map (unregistered_setTodo (left :: rest))
    | failed h =>
      obtain ⟨ev, d, -, -, ha, -⟩ := hspec
      dsimp only
      rw [ha.todo]
      exact h

/-! ### Steps -/

/-- Two states that will go on alike: they agree on everything but registers, and on the registers that are still needed. -/
structure Twins (s s' : State) : Prop where
  action : Twin s.todo s s'
  sentinel : s.st = .readCode3 ∨ s.st = .readCode4 → s'.k = s.k
  window : s.st = .readCode4 → s'.c1 = s.c1 ∧ s'.c2 = s.c2 ∧ s'.c3 = s.c3

theorem Twins.of_notReading {s s' : State} (h : Twin s.todo s s') (hst : s.st ≠ .readCode3 ∧ s.st ≠ .readCode4) :
    Twins s s' :=
  ⟨h, fun hr => hr.elim (absurd · hst.1) (absurd · hst.2), fun hr => absurd hr hst.2⟩

/-- An action ends outside the two states that read a window. -/
theorem notReading_of_left {p q : ParserState} (hp : p = .probeByte ∨ p = .dispatch) (hq : q = .idle ∨ q = p ∨ q = .done) :
    q ≠ .readCode3 ∧ q ≠ .readCode4 := by
  rcases hq with rfl | rfl | rfl
  · decide
  · rcases hp with rfl | rfl <;> decide
  · decide

/-- An action begun or resumed in two states leaves them alike. -/
theorem perform_twins {ops : List Op} {s s' : State} (h : Twin ops s s')
    (hst : (perform ops s).st ≠ .readCode3 ∧ (perform ops s).st ≠ .readCode4) : Twins (perform ops s) (perform ops s') :=
  .of_notReading (runOps_twin ops (h.map (unregistered_setTodo [])) rfl) hst

theorem resume_notReading {u : State} {op : Op} {rest : List Op} (h : InCycle u) (htodo : u.todo = op :: rest) :
    (perform (op :: rest) u).st ≠ .readCode3 ∧ (perform (op :: rest) u).st ≠ .readCode4 := by
  have hne : u.todo ≠ [] := by simp [htodo]
  have hb : bodyThenFinish (op :: rest) = true := htodo ▸ h.todoFinishes hne
  obtain ⟨-, hleft⟩ := runOps_control (op :: rest) { u with todo := [] } hb rfl
  exact notReading_of_left (h.todoInAction hne) (hleft.imp And.left (Or.imp And.left And.left))

/-- An instruction run in two states, the header registers it leaves in use being the same in both. -/
theorem exec_twins {i : Instr} {v v' : State} (h : Twin [] v v') (h0 : v.todo = [])
    (hst : isProbe i = true → v.st = .probeByte) (hk : v'.k = v.k)
    (hw : steersTo i = .readCode4 → v'.c1 = v.c1 ∧ v'.c2 = v.c2 ∧ v'.c3 = v.c3) :
    ∃ t t', exec i v = .next t ∧ exec i v' = .next t' ∧ Twins t t' := by
  cases hs : statementsOf v.cfg.hexCase i with
  | none =>
    have hs' : statementsOf v'.cfg.hexCase i = none := by rwa [h.cfg]
    refine ⟨_, _, exec_steers hs v, exec_steers hs' v', ⟨?_, fun _ => hk, hw⟩⟩
    rw [goto_todo, h0]
    exact h.map (unregistered_goto _)
  | some ops =>
    have hs' : statementsOf v'.cfg.hexCase i = some ops := by rwa [h.cfg]
    obtain ⟨hf, hu⟩ := statementsOf_needs hs
    have ht : exec i v = .next (perform ops v) := by rw [exec_eq, hs]
    have ht' : exec i v' = .next (perform ops v') := by rw [exec_eq, hs']
    refine ⟨_, _, ht, ht', perform_twins (.of_erase h.erase hf hu) ?_⟩
    rcases exec_control ht with ⟨hn, -⟩ | ⟨p, hp, hleft⟩
    · rw [hs] at hn
      cases hn
    · refine notReading_of_left (p := p) ?_ (hleft.imp And.left (Or.imp And.left And.left))
      rcases hp with ⟨rfl, ⟨k, rfl⟩, -⟩ | ⟨rfl, -⟩
      · exact .inl (hst rfl)
      · exact .inr rfl

theorem unregistered_returnToCaller (o : CycleOutcome) : Unregistered (returnToCaller o) :=
  ⟨fun _ _ => rfl, fun q _ => by cases q <;> rfl, fun _ => rfl⟩

theorem unregistered_hostActs : Unregistered hostActs := ⟨fun _ _ => rfl, fun q _ => by cases q <;> rfl, fun _ => rfl⟩

/-- A header read in two states: whether it holds or fails is the same in both, so only its completion is left. -/
theorem headerRead_twins {s s' : State} {n : Nat} (h : Twins s s') (h0 : s.todo = []) (hn : headerRead s.st = some n)
    (available : driverChoice s = none → n ≤ (hostActs s).input.length →
      ∃ t t', step s = .next t ∧ step s' = .next t' ∧ Twins t t') :
    ∃ t t', step s = .next t ∧ step s' = .next t' ∧ Twins t t' := by
  obtain ⟨⟨r, rfl, hf, hu⟩, hk, hw⟩ := h
  have twin : Twin [] (attempt (hostActs s)) (attempt (hostActs (withRegisters r s))) :=
    (Twin.toNil (ops := s.todo) ⟨r, rfl, hf, hu⟩).map unregistered_hostActs |>.map unregistered_attempt
  cases hc : driverChoice s with
  | some m =>
    exact ⟨_, _, step_fails h0 hn hc, step_fails (s := withRegisters r s) h0 hn hc,
      .of_notReading ((twin.map (unregistered_consume _)).map (unregistered_takeStreamFault _)) (by simp)⟩
  | none =>
    rcases Nat.lt_or_ge (hostActs s).input.length n with hl | hl
    · refine ⟨_, _, step_holds h0 hn hc hl, step_holds (s := withRegisters r s) h0 hn hc hl, ?_, hk, hw⟩
      rw [attempt_todo, hostActs_todo, h0]
      exact twin
    · exact available hc hl

/-- What is known of a state that two blocks have come to: it answers a step, and an action in progress is one of a cycle. -/
structure Going (s : State) : Prop where
  steady : Steady s
  action : s.todo ≠ [] → InCycle s

theorem step_twins {s s' : State} (h : Twins s s') (hs : Going s) :
    ∃ t t', step s = .next t ∧ step s' = .next t' ∧ Twins t t' := by
  obtain ⟨⟨r, rfl, hf, hu⟩, hk, hw⟩ := id h
  have hhost : Twin s.todo (hostActs s) (hostActs (withRegisters r s)) := h.action.map unregistered_hostActs
  cases h0 : s.todo with
  | cons op rest =>
    rw [h0] at hhost
    exact ⟨_, _, step_resumes h0, step_resumes (s := withRegisters r s) h0,
      perform_twins hhost (resume_notReading (hs.action (by simp [h0])).of_hostActs h0)⟩
  | nil =>
    rw [h0] at hhost
    cases hst : s.st with
    | dispatch => exact absurd h0 (hs.steady.actionInDispatch hst)
    | idle =>
      have left : (callerActs (hostActs s)).todo = [] ∧ (callerActs (hostActs s)).st ≠ .readCode3
          ∧ (callerActs (hostActs s)).st ≠ .readCode4 := by
        rcases callerActs_cases (hostActs s) with ⟨-, e⟩ | ⟨-, e⟩ | ⟨-, e⟩ <;> rw [e] <;> simp [h0, hst]
      refine ⟨_, _, step_idle hst h0, step_idle (s := withRegisters r s) hst h0, .of_notReading ?_ left.2⟩
      rw [left.1]
      exact hhost.map unregistered_callerActs
    | done =>
      obtain ⟨o, ho⟩ := Option.isSome_iff_exists.mp (hs.steady.outcomeInDone hst)
      refine ⟨_, _, step_of_fetch_advance (fetch_done h0 hst ho),
        step_of_fetch_advance (fetch_done (u := hostActs (withRegisters r s)) h0 hst ho), .of_notReading ?_ (by simp)⟩
      rw [returnToCaller_todo, hostActs_todo, h0]
      exact hhost.map (unregistered_returnToCaller o)
    | probeByte =>
      refine headerRead_twins h h0 (by rw [hst]; rfl) fun hc hl => ?_
      obtain ⟨b, rest, hi⟩ := List.exists_cons_of_length_pos hl
      rw [step_reads_probe hst h0 hc hi, step_reads_probe (s := withRegisters r s) hst h0 hc hi]
      exact exec_twins (.of_erase rfl (fun _ => rfl) rfl) h0 (fun _ => hst) rfl
        (fun hto => by rw [decodeP1_steersTo] at hto; cases hto)
    | readCode3 =>
      refine headerRead_twins h h0 (by rw [hst]; rfl) fun hc hl => ?_
      obtain ⟨b1, b2, b3, rest, hi⟩ := exists_window hl
      have hk' := hk (.inl hst)
      have hks := hs.steady.sentinelInK (.inl hst)
      rw [step_reads_window hst h0 hks hc hi, step_reads_window (s := withRegisters r s) hst h0 (hk'.trans hks) hc hi]
      exact exec_twins (.of_erase rfl (fun _ => rfl) rfl) h0 (fun hp => by rw [decodeF3_not_probe] at hp; cases hp) hk'
        (fun _ => ⟨rfl, rfl, rfl⟩)
    | readCode4 =>
      refine headerRead_twins h h0 (by rw [hst]; rfl) fun hc hl => ?_
      obtain ⟨b, rest, hi⟩ := List.exists_cons_of_length_pos hl
      have hk' := hk (.inr hst)
      have hks := hs.steady.sentinelInK (.inr hst)
      have hn := hs.steady.windowUndecided hst
      obtain ⟨h1, h2, h3⟩ := hw hst
      rw [step_reads_fourth hst h0 hks hn hc hi,
        step_reads_fourth (s := withRegisters r s) hst h0 (hk'.trans hks) (by rw [h1, h2, h3]; exact hn) hc hi, h1, h2, h3]
      exact exec_twins (.of_erase rfl (fun _ => rfl) rfl) h0 (fun hp => by rw [decodeF4_not_probe] at hp; cases hp) hk'
        (fun _ => ⟨h1, h2, h3⟩)

/-- `Idle` with no action, or anywhere in a cycle: a step stays in one of the two. -/
theorem step_course {s t : State} (hs : (s.st = .idle ∧ s.todo = []) ∨ InCycle s) (h : step s = .next t) :
    (t.st = .idle ∧ t.todo = []) ∨ InCycle t := by
  rcases hs with ⟨hst, h0⟩ | hs
  · rw [step_idle hst h0] at h
    injection h with h
    subst h
    rcases callerActs_cases (hostActs s) with ⟨-, e⟩ | ⟨-, e⟩ | ⟨-, e⟩ <;> rw [e]
    · exact .inr (inCycle_probeByte rfl (by simp) rfl rfl)
    · exact .inl ⟨hst, h0⟩
    · exact .inl ⟨hst, h0⟩
  · exact .inr (hs.step h)

theorem going_of_course {s : State} (hs : (s.st = .idle ∧ s.todo = []) ∨ InCycle s) : Going s := by
  rcases hs with ⟨hst, h0⟩ | hs
  · refine ⟨?_, fun h => absurd h0 h⟩
    constructor <;> simp [hst]
  · exact ⟨hs.steady, fun _ => hs⟩

/-- Any number of steps of two states that go on alike. -/
theorem steps_twins (n : Nat) {s s' : State} (h : Twins s s') (hs : (s.st = .idle ∧ s.todo = []) ∨ InCycle s) :
    ∃ t t', steps n s = .next t ∧ steps n s' = .next t' ∧ Twins t t' := by
  induction n generalizing s s' with
  | zero => exact ⟨s, s', rfl, rfl, h⟩
  | succ n ih =>
    obtain ⟨t, t', ht, ht', h'⟩ := step_twins h (going_of_course hs)
    obtain ⟨u, u', hu, hu', h''⟩ := ih h' (step_course hs ht)
    exact ⟨u, u', (steps_succ ht).trans hu, (steps_succ ht').trans hu', h''⟩

/-- Settles O56: in `Idle` no register is needed. -/
theorem registersAreDeadBetweenCycles : Obligations.RegistersAreDeadBetweenCycles := by
  intro n s s' hst h0 he
  have begun : Twins s s' :=
    .of_notReading (.of_erase he (fun q => by rw [h0]; rfl) (by rw [h0]; rfl)) (by rw [hst]; decide)
  obtain ⟨t, t', ht, ht', h⟩ := steps_twins n begun (.inl ⟨hst, h0⟩)
  exact ⟨t, t', ht, ht', h.action.erase⟩

end Sys2Proof.Machine
end

section
/-! Proofs: the codec over the streams (20_memory.md rules R56 to R58, 40_codec.md rules R110 to R116), and the text of the probe echo
(30_encoding.md rule R95, 41_parser.md rule R133). -/

namespace Sys2Proof.Machine

/-! ### The codec -/

/-- Settles O8. -/
theorem otherByteOrderReverses : Obligations.OtherByteOrderReverses :=
  ⟨fun _ => rfl, fun _ => rfl, by decide, by decide⟩

/-- Settles O7: a send appends `bytes_of` its value, and `value_of` inverts it in the receive. -/
theorem roundTripOverStreams : Obligations.RoundTripOverStreams := by
  intro s u rest hs hu ho
  have hsc := driverChoice_of_proceeds (n := 0) hs
  have huc := driverChoice_of_proceeds (n := 0) hu
  refine ⟨fun w r hroom => ⟨bytesOf32 s.cfg.byteOrder w, bytesOf32_length _ _, ?_, fun hi => ?_⟩, fun v hi => ?_⟩
  · exact sendFloat_done hsc hroom
  · obtain ⟨b0, b1, b2, b3, hb, hv⟩ := exists_bytesOf32_valueOf32 s.cfg.byteOrder w
    rw [hb] at hi
    refine ⟨_, receiveFloat_done huc hi, ?_, ?_⟩
    · rw [getF_setF_same, ho, hv]
    · simp [hi]
  · obtain ⟨b0, b1, hb, hv⟩ := exists_bytesOf16_valueOf16 s.cfg.byteOrder v
    rw [hb] at hi
    refine ⟨_, receiveUint16_done huc hi, ?_, ?_⟩
    · rw [setU0_u0, ho, hv]
    · simp [hi]

/-! ### The echo -/

theorem hexText_length (c : HexCase) (k : Byte) : (hexText c k).length = if k.toNat < 16 then 1 else 2 := by
  have hd : k.toNat / 16 = 0 ↔ k.toNat < 16 := by omega
  unfold hexText
  by_cases h : k.toNat < 16 <;> simp [hd, h]

theorem decText_length (k : Byte) : (decText k).length = if k.toNat < 10 then 1 else if k.toNat < 100 then 2 else 3 := by
  have hd : k.toNat / 100 = 0 ↔ k.toNat < 100 := by omega
  have ht : k.toNat % 100 / 10 = 0 ↔ k.toNat % 100 < 10 := by omega
  unfold decText
  dsimp only
  split_ifs <;> simp only [List.length_cons, List.length_nil] <;> omega

/-- Settles O19: 22 fixed bytes and `k`, and the digits of its two renderings. -/
theorem echoTextLength : Obligations.EchoTextLength := by
  intro c k
  have fixed : (echoText c k).length = 22 + (hexText c k).length + (decText k).length := by
    simp [echoText]
    omega
  rw [fixed, hexText_length, decText_length]
  split_ifs <;> omega

/-- A digit list is the rendering of `k` in the base, without a leading zero. -/
def Renders (base : Nat) (digits : List Nat) (k : Byte) : Prop :=
  digits.all (· < base) ∧ digits ≠ [] ∧ digits.foldl (fun n d => base * n + d) 0 = k.toNat
    ∧ (k ≠ 0#8 → digits.head? ≠ some 0) ∧ (k = 0#8 → digits = [0])

theorem byte_eq_zero_iff {k : Byte} : k = 0#8 ↔ k.toNat = 0 := by
  rw [← BitVec.toNat_inj]
  rfl

/-- The digits of `k` in base 16, one or two (D9). -/
def hexDigits (k : Byte) : List Nat := if k.toNat / 16 = 0 then [k.toNat % 16] else [k.toNat / 16, k.toNat % 16]

/-- The digits of `k` in base 10, one to three (D10). -/
def decDigits (k : Byte) : List Nat :=
  if k.toNat / 100 ≠ 0 then [k.toNat / 100, k.toNat % 100 / 10, k.toNat % 10]
  else if k.toNat % 100 / 10 ≠ 0 then [k.toNat % 100 / 10, k.toNat % 10]
  else [k.toNat % 10]

theorem hexText_eq (c : HexCase) (k : Byte) : hexText c k = (hexDigits k).map (hexDigit c) := by
  unfold hexText hexDigits
  dsimp only
  split_ifs <;> rfl

theorem decText_eq (k : Byte) : decText k = (decDigits k).map decDigit := by
  unfold decText decDigits
  dsimp only
  split_ifs <;> rfl

theorem hexDigits_renders (k : Byte) : Renders 16 (hexDigits k) k := by
  have hk := k.isLt
  unfold Renders hexDigits
  split_ifs with h <;> simp [byte_eq_zero_iff] <;> omega

theorem decDigits_renders (k : Byte) : Renders 10 (decDigits k) k := by
  have hk := k.isLt
  unfold Renders decDigits
  split_ifs with h1 h2 <;> simp [byte_eq_zero_iff] <;> omega

theorem hexDigit_toNat_of_lt {d : Nat} (c : HexCase) (h : d < 10) : (hexDigit c d).toNat = 0x30 + d := by
  unfold hexDigit
  rw [if_pos h, BitVec.toNat_ofNat]
  omega

theorem hexDigit_toNat_of_ge {d : Nat} (c : HexCase) (h : 10 ≤ d) (hd : d < 16) :
    (hexDigit c d).toNat = (if c = .upper then 0x41 else 0x61) + (d - 10) := by
  unfold hexDigit
  rw [if_neg (by omega)]
  cases c <;> simp <;> omega

theorem decDigit_toNat {d : Nat} (h : d < 10) : (decDigit d).toNat = 0x30 + d := by
  rw [decDigit, BitVec.toNat_ofNat]
  omega

/-- Settles O20. -/
theorem echoTextFields : Obligations.EchoTextFields := by
  intro c k
  exact ⟨by simp [echoText], ⟨_, hexText_eq c k, hexDigits_renders k⟩, ⟨_, decText_eq k, decDigits_renders k⟩,
    fun d h => ⟨hexDigit_toNat_of_lt c h, decDigit_toNat h⟩, fun d h hd => hexDigit_toNat_of_ge c h hd⟩

end Sys2Proof.Machine
end

section
/-! Proofs: the commands when nothing is in the way (42_commands.md rules R160 to R167), and the probe echo (41_parser.md rule R132).
An action is its statements one after another: one equation of `runOps` for each kind of statement, and each command is a chain of
them from the entry of the action to `Done`. -/

namespace Sys2Proof.Machine

/-! ### The entry of an action -/

@[simp] theorem enterAction_cfg (s : State) : (enterAction s).cfg = s.cfg := rfl
@[simp] theorem enterAction_st (s : State) : (enterAction s).st = .dispatch := rfl
@[simp] theorem enterAction_ind (s : State) : (enterAction s).ind = false := rfl
@[simp] theorem enterAction_input (s : State) : (enterAction s).input = s.input := rfl
@[simp] theorem enterAction_output (s : State) : (enterAction s).output = s.output := rfl
@[simp] theorem enterAction_trace (s : State) : (enterAction s).trace = s.trace ++ [.ind false] := rfl
@[simp] theorem enterAction_todo (s : State) : (enterAction s).todo = [] := rfl
@[simp] theorem enterAction_outcome (s : State) : (enterAction s).outcome = s.outcome := rfl
@[simp] theorem enterAction_faults (s : State) : (enterAction s).faults = s.faults := rfl
@[simp] theorem enterAction_answers (s : State) : (enterAction s).answers = s.answers := rfl

theorem useAnswer_eq (s : State) : useAnswer s =
    { s with answers := s.answers.tail, draws := s.draws + (1 - s.answers.length) } := by
  cases hs : s.answers <;> simp [useAnswer, hs]

@[simp] theorem enterAction_draws (s : State) : (enterAction s).draws = s.draws := rfl

/-! ### One statement that goes through -/

theorem runOps_sendBytes {s : State} {b : List Byte} (rest : List Op) (hc : driverChoice s = none) (hb : b ≠ [])
    (hr : roomFor b.length s = true) : runOps (.sendBytes b :: rest) s = runOps rest (produce b (attempt s)) := by
  simp only [runOps, runOp, sendBytes_done hc hb hr]

theorem runOps_receiveFloat {s : State} {r : FReg} {b0 b1 b2 b3 : Byte} {l : List Byte} (rest : List Op)
    (hc : driverChoice s = none) (hi : s.input = b0 :: b1 :: b2 :: b3 :: l) :
    runOps (.receiveFloat r :: rest) s =
      runOps rest (setF r (valueOf32 s.cfg.byteOrder b0 b1 b2 b3) (consume 4 (attempt s))) := by
  simp only [runOps, runOp, receiveFloat_done hc hi]

theorem runOps_receiveUint16 {s : State} {b0 b1 : Byte} {l : List Byte} (rest : List Op)
    (hc : driverChoice s = none) (hi : s.input = b0 :: b1 :: l) :
    runOps (.receiveUint16 :: rest) s = runOps rest (setU0 (valueOf16 s.cfg.byteOrder b0 b1) (consume 2 (attempt s))) := by
  simp only [runOps, runOp, receiveUint16_done hc hi]

theorem runOps_wait (s : State) (rest : List Op) :
    runOps (.wait :: rest) s = runOps rest (emit (.call (.wait s.cfg.beepDuration)) s) := rfl

/-- What a call that returns at once leaves, when the lent accesses of its collaborator go through. -/
def afterCall (p : Port) (s : State) : State :=
  { useAnswer s with
    input := s.input.drop (takenBytes (lentActs s.cfg.stopVariant p (nextAnswer s).acts))
    output := s.output ++ givenBytes (lentActs s.cfg.stopVariant p (nextAnswer s).acts)
    faults := s.faults.drop (accessCount (lentActs s.cfg.stopVariant p (nextAnswer s).acts))
    trace := s.trace ++ ([.call (callOf p (nextAnswer s).result s)]
      ++ actEvents (lentActs s.cfg.stopVariant p (nextAnswer s).acts) s.input) }

theorem runOps_call_lent {p : Port} {s : State} (rest : List Op) (h : returnsAtOnce (nextAnswer s) = true)
    (hp : proceeds (accessCount (lentActs s.cfg.stopVariant p (nextAnswer s).acts)) s = true)
    (hi : takenBytes (lentActs s.cfg.stopVariant p (nextAnswer s).acts) ≤ s.input.length)
    (ho : roomFor (givenBytes (lentActs s.cfg.stopVariant p (nextAnswer s).acts)).length s = true) :
    runOps (.call p :: rest) s = runOps rest (returnOf p (nextAnswer s).result (afterCall p s)) := by
  simp only [runOps, runOp, callPort_lent h hp hi ho, afterCall]

/-! ### Texts -/

/-- Settles O18. -/
theorem probeEchoesAndEnds : Obligations.ProbeEchoesAndEnds := by
  intro s k hp hr
  have sent := runOps_sendBytes (s := { s with todo := [] }) (b := echoText s.cfg.hexCase k) [.finish .probeEcho]
    (driverChoice_of_proceeds (n := 0) hp) (by simp [echoText]) hr
  exact congrArg Host.Outcome.next sent

/-- Settles O28. -/
theorem invalidWritesText : Obligations.InvalidWritesText := by
  intro s c1 c2 c3 c4 hp hr
  have sent := runOps_sendBytes (s := enterAction s) (b := invalidText) [.finish .invalid]
    (driverChoice_of_proceeds (n := 0) hp) (by decide) hr
  rw [exec_action (action := invalidAction) rfl]
  refine (congrArg Host.Outcome.next sent).trans ?_
  simp [runOps, runOp, enterAction, produce, attempt, indSet, goto, emit, invalidText]

/-! ### `CLR`, `BEEP`, `POS` -/

theorem tail_tail_eq_drop {α : Type} (l : List α) : l.tail.tail = l.drop 2 := by
  simp only [← List.drop_one, List.drop_drop]

/-- After `j` of three accesses the driver lets the next one through. -/
theorem driverChoice_after {s t : State} (hp : proceeds 3 s = true) (j : Nat) (hj : j < 3) (ht : t.faults = s.faults.drop j) :
    driverChoice t = none :=
  driverChoice_of_proceeds (n := 0) (proceeds_drop ht hp (by omega))

/-- Settles O21: three floats, each at the head of what the one before it left, then the call with all three. -/
theorem clrSetsReceivedPose : Obligations.ClrSetsReceivedPose := by
  intro s x0 x1 x2 x3 y0 y1 y2 y3 h0 h1 h2 h3 rest hp ha hi x y h
  rw [exec_action (action := clrAction) rfl]
  simp only [clrAction, List.cons_append, List.nil_append]
  rw [runOps_receiveFloat (b0 := x0) (b1 := x1) (b2 := x2) (b3 := x3) _ (driverChoice_after hp 0 (by decide) (by simp))
      (by rw [enterAction_input, hi]),
    runOps_receiveFloat (b0 := y0) (b1 := y1) (b2 := y2) (b3 := y3) (l := h0 :: h1 :: h2 :: h3 :: rest) _
      (driverChoice_after hp 1 (by decide) (by simp)) (by simp [hi]),
    runOps_receiveFloat (b0 := h0) (b1 := h1) (b2 := h2) (b3 := h3) (l := rest) _
      (driverChoice_after hp 2 (by decide) (by simp [tail_tail_eq_drop])) (by simp [hi]),
    runOps_call_notLent _ rfl rfl (by simpa [nextAnswer] using ha)]
  simp [runOps, runOp, returnOf, callOf, useAnswer_eq, enterAction, consume, attempt, setF, indSet, goto, emit, hi, tail_tail_eq_drop,
    List.tail_drop, x, y, h]

/-- Settles O27: the frequency, then three calls that are lent nothing, the wait before the last. -/
theorem beepPlaysReceivedFrequency : Obligations.BeepPlaysReceivedFrequency := by
  intro s b0 b1 rest hp hi ha1 ha2 ha3 f
  rw [exec_action (action := beepAction) rfl]
  simp only [beepAction, List.cons_append, List.nil_append]
  rw [runOps_receiveUint16 (b0 := b0) (b1 := b1) (l := rest) _ (driverChoice_of_proceeds (n := 0) (by exact hp)) (by simp [hi]),
    runOps_call_notLent _ rfl rfl (by simpa [nextAnswer] using ha1),
    runOps_call_notLent _ rfl rfl (by simpa [nextAnswer, useAnswer_eq, returnOf] using ha2),
    runOps_wait,
    runOps_call_notLent _ rfl rfl (by simpa [nextAnswer, useAnswer_eq, returnOf] using ha3)]
  simp [runOps, runOp, returnOf, callOf, useAnswer_eq, enterAction, consume, attempt, setU0, indSet, goto, emit, hi, f]

/-- Settles O23: each getter with its send. -/
theorem posSendsCurrentPose : Obligations.PosSendsCurrentPose := by
  intro s hp hr ha1 ha2 ha3 x y h o
  rw [exec_action (action := posAction) rfl]
  simp only [posAction, List.cons_append, List.nil_append]
  rw [runOps_getter _ (.inl ⟨rfl, rfl⟩) (by rwa [nextAnswer_enterAction]) (driverChoice_after hp 0 (by decide) (by simp))
      (roomFor_mono (n := 12) (by decide) (by exact hr)),
    runOps_getter _ (.inr (.inl ⟨rfl, rfl⟩)) (by simpa [nextAnswer, useAnswer_eq, setF] using ha2)
      (driverChoice_after hp 1 (by decide) (by simp))
      (roomFor_after (s := s) (bytesOf32 s.cfg.byteOrder x) (by simp) (by simp [nextAnswer_enterAction, x])
        (roomFor_mono (by simp) hr)),
    runOps_getter _ (.inr (.inr ⟨rfl, rfl⟩)) (by simpa [nextAnswer, useAnswer_eq, setF] using ha3)
      (driverChoice_after hp 2 (by decide) (by simp [tail_tail_eq_drop]))
      (roomFor_after (s := s) (bytesOf32 s.cfg.byteOrder x ++ bytesOf32 s.cfg.byteOrder y) (by simp)
        (by simp [nextAnswer, useAnswer_eq, setF, x, y]) (roomFor_mono (by simp) hr))]
  simp [runOps, runOp, callOf, useAnswer_eq, nextAnswer, enterAction, setF, indSet, goto, emit, tail_tail_eq_drop, List.tail_drop,
    x, y, h, o]

/-! ### Lent streams -/

/-- A command that is one call, whose lent accesses go through. -/
theorem exec_oneCall {i : Instr} {p : Port} {o : CycleOutcome} {s : State}
    (hi : statementsOf s.cfg.hexCase i = some (dispatchOps [.call p] o)) (ha : returnsAtOnce (nextAnswer s) = true)
    (hret : ∀ w t, returnOf p w t = t)
    (hp : proceeds (accessCount (lentActs s.cfg.stopVariant p (nextAnswer s).acts)) s = true)
    (hin : takenBytes (lentActs s.cfg.stopVariant p (nextAnswer s).acts) ≤ s.input.length)
    (ho : roomFor (givenBytes (lentActs s.cfg.stopVariant p (nextAnswer s).acts)).length s = true) :
    exec i s = .next { useAnswer s with
      st := .done, ind := false, todo := [], outcome := some o
      input := s.input.drop (takenBytes (lentActs s.cfg.stopVariant p (nextAnswer s).acts))
      output := s.output ++ givenBytes (lentActs s.cfg.stopVariant p (nextAnswer s).acts)
      faults := s.faults.drop (accessCount (lentActs s.cfg.stopVariant p (nextAnswer s).acts))
      trace := s.trace ++ ([.ind false, .call (callOf p (nextAnswer s).result s)]
        ++ actEvents (lentActs s.cfg.stopVariant p (nextAnswer s).acts) s.input) } := by
  have hn := nextAnswer_enterAction s
  rw [exec_action hi]
  simp only [List.cons_append, List.nil_append]
  rw [runOps_call_lent _ (by rwa [hn]) (by rwa [hn]) (by rwa [hn]) (by rwa [hn]), hret]
  have hcall : callOf p (nextAnswer s).result (enterAction s) = callOf p (nextAnswer s).result s :=
    callOf_congr rfl rfl rfl rfl rfl
  simp only [afterCall, useAnswer_enterAction, hn, hcall]
  simp [runOps, runOp, enterAction, indSet, goto, emit]

/-- Settles O24. -/
theorem moveLendsBothStreams : Obligations.MoveLendsBothStreams := by
  intro s ha hp hi ho acts
  have hacts := lentActs_move s.cfg.stopVariant (nextAnswer s).acts
  rw [exec_oneCall (p := .receiveSpeedInstruction) rfl ha (fun _ _ => rfl) (by rwa [hacts]) (by rwa [hacts]) (by rwa [hacts]),
    hacts]
  rfl

/-- Settles O26. -/
theorem scanLendsOutput : Obligations.ScanLendsOutput := by
  intro s ha acts hp ho
  have htaken := takenBytes_lent (v := s.cfg.stopVariant) (p := .scan) rfl (nextAnswer s).acts
  rw [exec_oneCall (p := .scan) rfl ha (fun _ _ => rfl) hp (by rw [htaken]; exact Nat.zero_le _) ho, htaken, actEvents_lent rfl]
  simp [callOf, acts]

/-- Under `plain` the port `stop` is lent nothing. -/
theorem exec_stop_plain {s : State} (hv : s.cfg.stopVariant = .plain) (ha : returnsAtOnce (nextAnswer s) = true) :
    exec .stop s = .next { useAnswer s with
      st := .done, ind := false, todo := [], outcome := some (.executed .STOP)
      trace := s.trace ++ [.ind false, .call .stop] } := by
  rw [exec_action (action := stopAction) rfl]
  simp only [stopAction, List.cons_append, List.nil_append]
  rw [runOps_call_notLent _ rfl (by simp [lendsOut, hv]) (by rwa [nextAnswer_enterAction])]
  simp [runOps, runOp, returnOf, callOf, hv, useAnswer_eq, enterAction, indSet, goto, emit]

/-- Under `with_out` it is lent `OUT`. -/
theorem exec_stop_withOut {s : State} (hv : s.cfg.stopVariant = .withOut) (ha : returnsAtOnce (nextAnswer s) = true)
    (hp : proceeds (accessCount (lentActs .withOut .stop (nextAnswer s).acts)) s = true)
    (ho : roomFor (givenBytes (lentActs .withOut .stop (nextAnswer s).acts)).length s = true) :
    exec .stop s = .next { useAnswer s with
      st := .done, ind := false, todo := [], outcome := some (.executed .STOP)
      output := s.output ++ givenBytes (lentActs .withOut .stop (nextAnswer s).acts)
      faults := s.faults.drop (accessCount (lentActs .withOut .stop (nextAnswer s).acts))
      trace := s.trace ++ ([.ind false, .call .stopOut]
        ++ (givenBytes (lentActs .withOut .stop (nextAnswer s).acts)).map Event.out) } := by
  have htaken := takenBytes_lent (v := s.cfg.stopVariant) (p := .stop) rfl (nextAnswer s).acts
  rw [exec_oneCall (p := .stop) rfl ha (fun _ _ => rfl) (by rwa [hv]) (by rw [htaken]; exact Nat.zero_le _) (by rwa [hv]),
    htaken, actEvents_lent rfl, hv]
  simp [callOf, hv]

/-- Settles O25: the variant decides whether the port is lent `OUT`. -/
theorem stopFollowsItsVariant : Obligations.StopFollowsItsVariant :=
  fun _ ha => ⟨fun hv => exec_stop_plain hv ha, fun hv hp ho => exec_stop_withOut hv ha hp ho⟩

end Sys2Proof.Machine
end

section
/-! Proofs: calls that hang (60_exceptions.md rules R196, R209 (b)). Every call of every command is reached in a state of which
`AtCall` says all that matters; there a hang holds the action, and a held hang is a fixed point of the block. -/

namespace Sys2Proof.Machine

/-! ### A call that hangs holds for ever -/

theorem steps_hang (n : Nat) {s : State} {p : Port} {more : List Act} {w : Pattern} {rest : List Op}
    (h : s.todo = .during p (.hang :: more) w :: rest) :
    ∃ u, steps n s = .next u ∧ u.todo = s.todo ∧ u.st = s.st ∧ u.ind = s.ind ∧ u.outcome = s.outcome ∧ u.trace = s.trace := by
  induction n generalizing s with
  | zero => exact ⟨s, rfl, rfl, rfl, rfl, rfl, rfl⟩
  | succ n ih =>
    rw [steps_succ (step_hangs h)]
    exact ih (s := hostActs s) h

/-- One step of a call that has a hang to come: it is still in the call, or its collaborator's failure has ended the cycle. -/
theorem step_neverReturns {s : State} {p : Port} {acts : List Act} {w : Pattern} {rest : List Op}
    (h : s.todo = .during p acts w :: rest) (hh : .hang ∈ acts) :
    (∃ left t, step s = .next t ∧ .hang ∈ left ∧ t.todo = .during p left w :: rest
        ∧ t.st = s.st ∧ t.ind = s.ind ∧ t.outcome = s.outcome)
      ∨ ∃ t d, step s = .next t ∧ t.st = .idle ∧ t.todo = [] ∧ t.ind = s.ind ∧ t.trace.getLast? = some (.fault d) := by
  have hstep := step_resumes h
  simp only [perform, runOps, runOp] at hstep
  rcases duringCall_neverReturns p w acts { hostActs s with todo := [] } hh with ⟨left, t, e, hl, hsc⟩ | ⟨t, d, e, hleft⟩
  · rw [e] at hstep
    exact .inl ⟨left, _, hstep, hl, rfl, hsc.st, hsc.ind, hsc.outcome⟩
  · rw [e] at hstep
    exact .inr ⟨t, d, hstep, hleft⟩

theorem steps_neverReturns (n : Nat) {s : State} {p : Port} {acts : List Act} {w : Pattern} {rest : List Op}
    (h : s.todo = .during p acts w :: rest) (hh : .hang ∈ acts) :
    (∃ u left, steps n s = .next u ∧ .hang ∈ left ∧ u.todo = .during p left w :: rest
        ∧ u.st = s.st ∧ u.ind = s.ind ∧ u.outcome = s.outcome)
      ∨ ∃ m u d, m ≤ n ∧ steps m s = .next u ∧ u.st = .idle ∧ u.todo = [] ∧ u.ind = s.ind
          ∧ u.trace.getLast? = some (.fault d) := by
  induction n generalizing s acts with
  | zero => exact .inl ⟨s, acts, rfl, hh, h, rfl, rfl, rfl⟩
  | succ n ih =>
    rcases step_neverReturns h hh with ⟨left, t, ht, hl, htodo, hst, hi, ho⟩ | ⟨t, d, ht, hleft⟩
    · rcases ih htodo hl with ⟨u, left', hu, hl', htodo', hst', hi', ho'⟩ | ⟨m, u, d, hm, hu, hst', h0, hi', htr⟩
      · exact .inl ⟨u, left', (steps_succ ht).trans hu, hl', htodo', hst'.trans hst, hi'.trans hi, ho'.trans ho⟩
      · exact .inr ⟨m + 1, u, d, Nat.succ_le_succ hm, (steps_succ ht).trans hu, hst', h0, hi'.trans hi, htr⟩
    · exact .inr ⟨1, t, d, Nat.succ_le_succ (Nat.zero_le n), (steps_succ ht).trans rfl, hleft⟩

/-- Settles O57. -/
theorem callWithHangNeverReturns : Obligations.CallWithHangNeverReturns := by
  intro s p acts w rest n h
  refine ⟨fun hh => steps_neverReturns n h hh, fun hh => ?_⟩
  obtain ⟨more, rfl⟩ := List.head?_eq_some_iff.mp hh
  exact steps_hang n h

/-! ### The state in which a command makes its call `j` -/

theorem answerAt_congr (j : Nat) {s t : State} (ha : t.answers = s.answers) (hd : t.draws = s.draws) :
    answerAt j t = answerAt j s := by
  induction j generalizing s t with
  | zero => exact nextAnswer_congr ha hd
  | succ j ih =>
    obtain ⟨ha', hd'⟩ := useAnswer_congr ha hd
    exact ih ha' hd'

/-- The floats that `POS` has sent before call `j` (R162). -/
def replies (j : Nat) (s : State) : List Byte :=
  (List.range j).flatMap fun l => bytesOf32 s.cfg.byteOrder (answerAt l s).result

/-- `v` is the state in which instruction `i`, run on `s`, comes to its call `j`, all before it having gone through. -/
structure AtCall (i : Instr) (j : Nat) (s v : State) : Prop where
  cfg     : v.cfg = s.cfg
  st      : v.st = .dispatch
  ind     : v.ind = false
  todo    : v.todo = []
  outcome : v.outcome = s.outcome
  input   : v.input = s.input.drop (payloadLength i)
  output  : v.output = s.output ++ if i = .pos then replies j s else []
  faults  : v.faults = s.faults.drop (accessesBefore i j)
  answers : ∀ l, answerAt l v = answerAt (j + l) s
  trace   : v.trace = s.trace ++ eventsBefore i j s

theorem AtCall.answer {i : Instr} {j : Nat} {s v : State} (h : AtCall i j s v) : nextAnswer v = answerAt j s := h.answers 0

/-- The answers that come after the next one. -/
theorem AtCall.answers_after {i : Instr} {j : Nat} {s v t : State} (h : AtCall i j s v) (ha : t.answers = (useAnswer v).answers)
    (hd : t.draws = (useAnswer v).draws) (l : Nat) : answerAt l t = answerAt (j + 1 + l) s := by
  rw [answerAt_congr l ha hd, Nat.add_right_comm]
  exact h.answers (l + 1)

theorem enterAction_answers_eq (s : State) (l : Nat) : answerAt l (enterAction s) = answerAt (0 + l) s := by
  rw [Nat.zero_add, answerAt_congr l (enterAction_answers s) (enterAction_draws s)]

/-- An instruction with no payload before its first call is there at once. -/
theorem atCall_enterAction {i : Instr} (s : State) (hp : payloadLength i = 0) (ha : accessesBefore i 0 = 0)
    (he : eventsBefore i 0 s = [.ind false]) : AtCall i 0 s (enterAction s) where
  cfg := rfl
  st := rfl
  ind := rfl
  todo := rfl
  outcome := rfl
  input := by rw [hp]; rfl
  output := by simp [replies]
  faults := by rw [ha]; rfl
  answers := enterAction_answers_eq s
  trace := by rw [he]; rfl

/-- What is left of `CLR` once its payload is read. -/
def poseCall : List Op := [.call .setPose, .finish (.executed .CLR)]

/-- `CLR` comes to its call with the payload read. -/
theorem clr_reaches {s : State} (hp : proceeds 3 s = true) (hl : 12 ≤ s.input.length) :
    ∃ v, exec .clr s = .next (runOps poseCall v) ∧ AtCall .clr 0 s v := by
  obtain ⟨v, hv, hsame, hin, hf, htr⟩ := runOps_floats 3 [.F0, .F1, .F2] poseCall (enterAction s) (by decide)
    (by exact hp) (by exact hl)
  refine ⟨v, (exec_action (action := clrAction) rfl).trans (congrArg Host.Outcome.next hv), ?_⟩
  exact {
    cfg := hsame.cfg
    st := hsame.st
    ind := hsame.ind
    todo := hsame.todo
    outcome := hsame.outcome
    input := hin
    output := by rw [hsame.output]; simp
    faults := hf
    answers := fun l => by rw [answerAt_congr l hsame.answers hsame.draws, enterAction_answers_eq]
    trace := by rw [htr]; simp [eventsBefore, payloadLength] }

/-- What is left of `POS` from its call `j` on. -/
def posFrom (j : Nat) : List Op := (posAction ++ [Op.finish (.executed .POS)]).drop (2 * j)

theorem replies_succ (j : Nat) (s : State) : replies (j + 1) s = replies j s ++ bytesOf32 s.cfg.byteOrder (answerAt j s).result := by
  simp [replies, List.range_succ]

theorem replies_length (j : Nat) (s : State) : (replies j s).length = 4 * j := by
  induction j with
  | zero => rfl
  | succ j ih => rw [replies_succ, List.length_append, ih, bytesOf32_length, Nat.mul_succ]

/-- From one getter of `POS` to the next. -/
theorem AtCall.getter {j : Nat} {s v : State} (h : AtCall .pos j s v) (hj : j < 2) (ha : returnsAtOnce (answerAt j s) = true)
    (hc : driverChoice v = none) (hr : roomFor 4 v = true) :
    ∃ v', runOps (posFrom j) v = runOps (posFrom (j + 1)) v' ∧ AtCall .pos (j + 1) s v' := by
  obtain ⟨p, r, hpr, hops, hev⟩ : ∃ p r, ((p = .getX ∧ r = .F0) ∨ (p = .getY ∧ r = .F1) ∨ (p = .getHeading ∧ r = .F2))
      ∧ posFrom j = .call p :: .sendFloat r :: posFrom (j + 1)
      ∧ eventsBefore .pos (j + 1) s = eventsBefore .pos j s
          ++ getterEvents s.cfg.byteOrder (callOf p (answerAt j s).result s) (answerAt j s).result := by
    obtain rfl | rfl : j = 0 ∨ j = 1 := by omega
    · exact ⟨.getX, .F0, .inl ⟨rfl, rfl⟩, rfl, rfl⟩
    · exact ⟨.getY, .F1, .inr (.inl ⟨rfl, rfl⟩), rfl, by simp [eventsBefore, callOf, payloadLength]⟩
  have hcall : callOf p (answerAt j s).result v = callOf p (answerAt j s).result s := by
    rcases hpr with ⟨rfl, -⟩ | ⟨rfl, -⟩ | ⟨rfl, -⟩ <;> rfl
  rw [hops, runOps_getter _ hpr (by rwa [h.answer]) hc hr]
  refine ⟨_, rfl, ?_⟩
  exact {
    cfg := by simp [h.cfg]
    st := by simp [h.st]
    ind := by simp [h.ind]
    todo := by simp [h.todo]
    outcome := by simp [h.outcome]
    input := by simp [h.input, payloadLength]
    output := by simp [h.output, h.cfg, h.answer, replies_succ]
    faults := by simp [h.faults, accessesBefore]
    answers := h.answers_after (by simp) (by simp)
    trace := by simp [h.trace, hev, h.answer, h.cfg, hcall, getterEvents] }

theorem pos_reaches {j : Nat} {s : State} (hj : j ≤ 2) (hret : ∀ l, l < j → returnsAtOnce (answerAt l s) = true)
    (hp : proceeds j s = true) (hr : roomFor (4 * j) s = true) :
    ∃ v, exec .pos s = .next (runOps (posFrom j) v) ∧ AtCall .pos j s v := by
  induction j with
  | zero => exact ⟨enterAction s, (exec_action (i := .pos) (s := s) (action := posAction) rfl), atCall_enterAction s rfl rfl rfl⟩
  | succ j ih =>
    obtain ⟨v, hv, hat⟩ := ih (by omega) (fun l hl => hret l (by omega)) (proceeds_drop (m := 0) rfl hp (by omega))
      (roomFor_mono (by omega) hr)
    have hc : driverChoice v = none := driverChoice_of_proceeds (n := 0) (proceeds_drop hat.faults hp (by simp [accessesBefore]))
    have hroom : roomFor 4 v = true := roomFor_after (s := s) (replies j s) hat.cfg hat.output
      (roomFor_mono (by rw [replies_length]; omega) hr)
    obtain ⟨v', hv', hat'⟩ := hat.getter (by omega) (hret j (by omega)) hc hroom
    exact ⟨v', by rw [hv, hv'], hat'⟩

/-- From one call of `BEEP` to the next, over the call's event and what the block does after it. -/
theorem AtCall.tone {j : Nat} {s v : State} (h : AtCall .beep j s v) (ev : List Event)
    (hev : eventsBefore .beep (j + 1) s = eventsBefore .beep j s ++ ev) :
    AtCall .beep (j + 1) s { useAnswer v with trace := v.trace ++ ev } where
  cfg := by simp [h.cfg]
  st := by simp [h.st]
  ind := by simp [h.ind]
  todo := by simp [h.todo]
  outcome := by simp [h.outcome]
  input := by simp [h.input]
  output := by simp [h.output]
  faults := by simp [h.faults, accessesBefore]
  answers := h.answers_after rfl rfl
  trace := by simp [h.trace, hev]

/-- The frequency that `BEEP` plays: the two bytes at the head of `IN` (R166). -/
def frequencyIn (s : State) : Half := valueOf16 s.cfg.byteOrder (byteAt s.input 0) (byteAt s.input 1)

/-- What is left of `BEEP` from its first call on. -/
def tones : List Op := [.call .toneStart, .call .tonePlay, .wait, .call .toneStop, .finish (.executed .BEEP)]

/-- `BEEP` comes to its first call with the frequency read. -/
theorem beep_reaches_tones {s : State} (hp : proceeds 1 s = true) (hl : 2 ≤ s.input.length) :
    ∃ v, exec .beep s = .next (runOps tones v) ∧ AtCall .beep 0 s v ∧ v.u0 = frequencyIn s := by
  obtain ⟨b0, b1, l, hi⟩ : ∃ b0 b1 l, s.input = b0 :: b1 :: l := by
    rcases hs : s.input with _ | ⟨b0, _ | ⟨b1, l⟩⟩ <;> simp [hs] at hl ⊢
  have read := runOps_receiveUint16 (s := enterAction s) (b0 := b0) (b1 := b1) (l := l) tones
    (driverChoice_of_proceeds (n := 0) hp) hi
  refine ⟨_, (exec_action (action := beepAction) rfl).trans (congrArg Host.Outcome.next read), ?_, by
    simp [frequencyIn, hi, byteAt]⟩
  exact {
    cfg := rfl
    st := rfl
    ind := rfl
    todo := rfl
    outcome := rfl
    input := rfl
    output := by simp
    faults := by simp [accessesBefore]
    answers := fun l => by rw [answerAt_congr (s := s) l (by simp) (by simp), Nat.zero_add]
    trace := by simp [eventsBefore, payloadLength] }

theorem AtCall.toneStart {s v : State} (h : AtCall .beep 0 s v) (ha : returnsAtOnce (answerAt 0 s) = true) (rest : List Op) :
    ∃ v', runOps (.call .toneStart :: rest) v = runOps rest v' ∧ AtCall .beep 1 s v' ∧ v'.u0 = v.u0 := by
  refine ⟨_, runOps_call_notLent rest rfl rfl (by rwa [h.answer]), ?_, by simp [returnOf]⟩
  simpa [returnOf, callOf, emit] using h.tone [.call .toneStart] (by simp [eventsBefore])

theorem AtCall.tonePlay {s v : State} (h : AtCall .beep 1 s v) (ha : returnsAtOnce (answerAt 1 s) = true)
    (hu : v.u0 = frequencyIn s) (rest : List Op) :
    ∃ v', runOps (.call .tonePlay :: .wait :: rest) v = runOps rest v' ∧ AtCall .beep 2 s v' := by
  refine ⟨_, (runOps_call_notLent (.wait :: rest) rfl rfl (by rwa [h.answer])).trans (runOps_wait _ rest), ?_⟩
  have played := h.tone [.call (.tonePlay (frequencyIn s)), .call (.wait s.cfg.beepDuration)] (by simp [eventsBefore, frequencyIn])
  simpa [returnOf, callOf, emit, hu, h.cfg] using played

/-- `BEEP` with its frequency read comes to each of its three calls. -/
theorem beep_reaches {j : Nat} {p : Port} {s : State} (hj : (portsOf .beep)[j]? = some p)
    (hret : ∀ l, l < j → returnsAtOnce (answerAt l s) = true) (hp : proceeds 1 s = true) (hl : 2 ≤ s.input.length) :
    ∃ v rest, exec .beep s = .next (runOps (.call p :: rest) v) ∧ AtCall .beep j s v := by
  obtain ⟨v0, h0, at0, hu0⟩ := beep_reaches_tones hp hl
  match j, hj with
  | 0, hj =>
    obtain rfl := Option.some.inj hj
    exact ⟨v0, _, h0, at0⟩
  | 1, hj =>
    obtain rfl := Option.some.inj hj
    obtain ⟨v1, h1, at1, -⟩ := at0.toneStart (hret 0 (by decide)) tones.tail
    exact ⟨v1, _, h0.trans (congrArg Host.Outcome.next h1), at1⟩
  | 2, hj =>
    obtain rfl := Option.some.inj hj
    obtain ⟨v1, h1, at1, hu1⟩ := at0.toneStart (hret 0 (by decide)) tones.tail
    obtain ⟨v2, h2, at2⟩ := at1.tonePlay (hret 1 (by decide)) (hu1.trans hu0) (tones.drop 3)
    exact ⟨v2, _, h0.trans (congrArg Host.Outcome.next (h1.trans h2)), at2⟩

/-- `POS` comes to each of its three calls. -/
theorem pos_reaches_call {j : Nat} {p : Port} {s : State} (hj : (portsOf .pos)[j]? = some p)
    (hret : ∀ l, l < j → returnsAtOnce (answerAt l s) = true) (hp : proceeds j s = true) (hr : roomFor (4 * j) s = true) :
    ∃ v rest, exec .pos s = .next (runOps (.call p :: rest) v) ∧ AtCall .pos j s v := by
  have hlt : j < 3 := (List.getElem?_eq_some_iff.mp hj).1
  obtain ⟨v, hv, hat⟩ := pos_reaches (by omega) hret hp hr
  match j, hj with
  | 0, hj | 1, hj | 2, hj =>
    obtain rfl := Option.some.inj hj
    exact ⟨v, _, hv, hat⟩

/-- A command that is one call and reads nothing comes to it at once. -/
theorem oneCall_reaches {i : Instr} {j : Nat} {q p : Port} {o : CycleOutcome} {s : State} (hports : portsOf i = [q])
    (hi : statementsOf s.cfg.hexCase i = some (dispatchOps [.call q] o)) (hpay : payloadLength i = 0)
    (hacc : accessesBefore i 0 = 0) (hev : eventsBefore i 0 s = [.ind false]) (hj : (portsOf i)[j]? = some p) :
    ∃ v rest, exec i s = .next (runOps (.call p :: rest) v) ∧ AtCall i j s v := by
  rw [hports] at hj
  match j, hj with
  | 0, hj =>
    obtain rfl := Option.some.inj hj
    exact ⟨_, _, exec_action hi, atCall_enterAction s hpay hacc hev⟩

/-- Every call of every command is come to, when the calls before it return at once and what stands before it goes through. -/
theorem reaches_call {i : Instr} {j : Nat} {p : Port} {s : State} (hj : (portsOf i)[j]? = some p)
    (hret : ∀ l, l < j → returnsAtOnce (answerAt l s) = true) (hp : proceeds (accessesBefore i j) s = true)
    (hl : payloadLength i ≤ s.input.length) (hr : roomFor (repliedBefore i j) s = true) :
    ∃ v rest, exec i s = .next (runOps (.call p :: rest) v) ∧ AtCall i j s v := by
  cases i with
  | clr =>
    match j, hj with
    | 0, hj =>
      obtain rfl := Option.some.inj hj
      obtain ⟨v, hv, hat⟩ := clr_reaches hp hl
      exact ⟨v, _, hv, hat⟩
  | pos => exact pos_reaches_call hj hret hp hr
  | beep => exact beep_reaches hj hret hp hl
  | pic | move | stop | scan => exact oneCall_reaches rfl rfl rfl rfl rfl hj
  | _ => simp [portsOf] at hj

/-! ### The call that hangs -/

/-- An action whose next call hangs, its lent accesses before the hang going through, holds at the hang. -/
theorem runOps_call_hangs {p : Port} {s : State} {lead more : List Act} (rest : List Op)
    (ha : (nextAnswer s).acts = lead ++ .hang :: more) (h : lead.all (fun x => x != .linger && x != .hang) = true)
    (hp : proceeds (accessCount (lentActs s.cfg.stopVariant p lead)) s = true)
    (hi : takenBytes (lentActs s.cfg.stopVariant p lead) ≤ s.input.length)
    (ho : roomFor (givenBytes (lentActs s.cfg.stopVariant p lead)).length s = true) :
    ∃ t, runOps (.call p :: rest) s = t ∧ t.todo = .during p (.hang :: more) (nextAnswer s).result :: rest
      ∧ t.trace = s.trace ++ ([.call (callOf p (nextAnswer s).result t)] ++ actEvents (lentActs s.cfg.stopVariant p lead) s.input)
      ∧ t.st = s.st ∧ t.ind = s.ind ∧ t.outcome = s.outcome := by
  refine ⟨_, rfl, ?_⟩
  simp only [runOps, runOp, callPort_hangs ha h hp hi ho]
  refine ⟨trivial, ?_, by simp, by simp, by simp⟩
  exact congrArg (fun c => s.trace ++ ([Event.call c] ++ actEvents (lentActs s.cfg.stopVariant p lead) s.input))
    (callOf_congr (by simp) (by simp) (by simp) (by simp) (by simp)).symm

theorem repliedBefore_eq (i : Instr) (j : Nat) (s : State) :
    (if i = .pos then replies j s else []).length = repliedBefore i j := by
  by_cases h : i = .pos <;> simp [repliedBefore, h, replies_length]

/-- Settles O40: the call is come to, its collaborator goes as far as the hang, and there it stays. -/
theorem hangingCallHoldsForEver : Obligations.HangingCallHoldsForEver := by
  intro s i j n p lead more hj hret hacts hlead acts hp hi ho
  obtain ⟨v, rest, hv, hat⟩ := reaches_call hj hret (proceeds_drop (m := 0) rfl hp (by omega)) (by omega)
    (roomFor_mono (Nat.le_add_right _ _) ho)
  have hlent : lentActs v.cfg.stopVariant p lead = acts := by rw [hat.cfg]
  obtain ⟨t, ht, htodo, htr, hst, hind, hout⟩ := runOps_call_hangs (p := p) rest (hat.answer ▸ hacts) hlead
    (by rw [hlent]; exact proceeds_drop hat.faults hp (Nat.le_refl _))
    (by rw [hlent, hat.input, List.length_drop]; omega)
    (by rw [hlent]; exact roomFor_after (s := s) _ hat.cfg hat.output (by rwa [repliedBefore_eq]))
  rw [hlent, hat.answer, hat.trace, hat.input, List.append_assoc] at htr
  rw [hat.answer] at htodo
  obtain ⟨u, hu, htodo', hst', hind', hout', htr'⟩ := steps_hang n htodo
  exact ⟨t, u, rest, by rw [hv, ht], htodo, by rw [htr, List.append_assoc], hu, hst'.trans (hst.trans hat.st),
    hind'.trans (hind.trans hat.ind), hout'.trans (hout.trans hat.outcome), htr', htodo'⟩

end Sys2Proof.Machine
end

section
/-! Proofs: payloads and replies that fail, hold or come in two parts (60_exceptions.md rules R193, R196, R214; 20_memory.md rules
R53, R54, R68). -/

namespace Sys2Proof.Machine

/-! ### One read that holds or fails -/

theorem runOps_receiveFloat_fails {s : State} {r : FReg} {m : Nat} (rest : List Op) (hc : driverChoice s = some m) :
    runOps (.receiveFloat r :: rest) s = takeStreamFault .inp (consume (min m 3) (attempt s)) := by
  simp only [runOps, runOp, receiveFloat, memRead_fails hc (n := 4) (by decide)]

theorem runOps_receiveFloat_short {s : State} {r : FReg} (rest : List Op) (hc : driverChoice s = none)
    (hl : s.input.length < 4) : runOps (.receiveFloat r :: rest) s = { attempt s with todo := .receiveFloat r :: rest } := by
  simp only [runOps, runOp, receiveFloat, memRead_short hc hl]

theorem runOps_receiveUint16_short {s : State} (rest : List Op) (hc : driverChoice s = none) (hl : s.input.length < 2) :
    runOps (.receiveUint16 :: rest) s = { attempt s with todo := .receiveUint16 :: rest } := by
  simp only [runOps, runOp, receiveUint16, memRead_short hc hl]

/-- The driver's choice for access `j`. -/
theorem driverChoice_drop {s t : State} {j : Nat} {c : Option Nat} (ht : t.faults = s.faults.drop j)
    (h : s.faults[j]? = some c) : driverChoice t = c := by
  rw [driverChoice, ht, List.headD_eq_head?_getD, List.head?_drop, h]
  rfl

/-- `CLR` after `j` of its floats have been read: what is left of it, and the state it comes there in. -/
theorem clr_after_floats {s : State} {j : Nat} (hj : j < 3) (hp : proceeds j s = true) (hl : 4 * j ≤ s.input.length) :
    ∃ r rest v, exec .clr s = .next (runOps (.receiveFloat r :: rest) v) ∧ SameButPayload (enterAction s) v
      ∧ v.input = s.input.drop (4 * j) ∧ v.faults = s.faults.drop j
      ∧ v.trace = s.trace ++ ([.ind false] ++ (s.input.take (4 * j)).map Event.inp) := by
  obtain ⟨v, hv, hsame, hin, hf, htr⟩ := runOps_floats j [.F0, .F1, .F2] poseCall (enterAction s) (Nat.le_of_lt hj)
    (by exact hp) (by exact hl)
  obtain ⟨r, more, hdrop⟩ : ∃ r more, [FReg.F0, .F1, .F2].drop j = r :: more :=
    List.exists_cons_of_ne_nil (by simpa using hj)
  rw [hdrop] at hv
  exact ⟨r, _, v, (exec_action (action := clrAction) rfl).trans (congrArg Host.Outcome.next hv), hsame, hin, hf,
    by rw [htr, enterAction_trace, enterAction_input, List.append_assoc]⟩

/-- Settles O35: after `j` whole floats the next read fails. -/
theorem clrPayloadFailure : Obligations.ClrPayloadFailure := by
  intro s j m hj hp hfault hl
  obtain ⟨r, rest, v, hv, hsame, hin, hf, htr⟩ := clr_after_floats hj hp hl
  rw [runOps_receiveFloat_fails rest (driverChoice_drop hf hfault)] at hv
  refine ⟨_, hv, rfl, hsame.ind, rfl, rfl, hsame.output, ?_, ?_⟩
  · simp [hin]
  · simp [hin, htr, List.take_add]

/-- Settles O37: after the whole floats that are there the next read holds. -/
theorem shortClrPayloadHolds : Obligations.ShortClrPayloadHolds := by
  intro s hp hl
  have hj : s.input.length / 4 < 3 := by omega
  obtain ⟨r, rest, v, hv, hsame, hin, hf, htr⟩ := clr_after_floats hj (proceeds_drop (m := 0) rfl hp (by omega)) (by omega)
  rw [runOps_receiveFloat_short rest (driverChoice_after hp _ hj hf) (by rw [hin, List.length_drop]; omega)] at hv
  exact ⟨_, hv, hsame.st, hsame.ind, List.cons_ne_nil _ _, hsame.outcome, hsame.output, hin, htr⟩

/-! ### A send that fails -/

theorem runOps_sendFloat_fails {s : State} {r : FReg} {m : Nat} (rest : List Op) (hc : driverChoice s = some m)
    (hr : roomFor 4 s = true) : runOps (.sendFloat r :: rest) s =
      takeStreamFault .out (produce ((bytesOf32 s.cfg.byteOrder (getF r s)).take (min m 3)) (attempt s)) := by
  have hroom : outRoom 4 s = 4 := outRoom_of_roomFor hr
  have hpart : min (min m (4 - 1)) 4 = min m 3 := by omega
  have hb : bytesOf32 s.cfg.byteOrder (getF r s) ≠ [] := List.ne_nil_of_length_pos (by simp)
  have failed : sendFloat (getF r s) s =
      .failed (takeStreamFault .out (produce ((bytesOf32 s.cfg.byteOrder (getF r s)).take (min m 3)) (attempt s))) := by
    rw [sendFloat_eq, sendBytes, List.take_length, memWrite_fails hc hb, bytesOf32_length, hroom, hpart]
  simp only [runOps, runOp, failed]

/-- The getters of `POS`: what the collaborator returns is the register that is sent next (R162). -/
theorem runOps_call_getter {p : Port} {r : FReg} {s : State} (rest : List Op)
    (hpr : (p = .getX ∧ r = .F0) ∨ (p = .getY ∧ r = .F1) ∨ (p = .getHeading ∧ r = .F2))
    (ha : returnsAtOnce (nextAnswer s) = true) :
    ∃ t, runOps (.call p :: rest) s = runOps rest t ∧ getF r t = (nextAnswer s).result ∧ t.cfg = s.cfg ∧ t.ind = s.ind
      ∧ t.input = s.input ∧ t.output = s.output ∧ t.faults = s.faults
      ∧ t.trace = s.trace ++ [.call (callOf p (nextAnswer s).result s)] := by
  rcases hpr with ⟨rfl, rfl⟩ | ⟨rfl, rfl⟩ | ⟨rfl, rfl⟩ <;>
    exact ⟨_, runOps_call_notLent rest rfl rfl ha, rfl, by simp [returnOf], by simp [returnOf], by simp [returnOf],
      by simp [returnOf], by simp [returnOf], by simp [returnOf]⟩

/-- What `POS` does from its call `j` on begins with a getter and the send of what it returns. -/
theorem posFrom_eq {j : Nat} (hj : j < 3) : ∃ p r, posFrom j = .call p :: .sendFloat r :: posFrom (j + 1)
    ∧ (portsOf .pos)[j]? = some p ∧ ((p = .getX ∧ r = .F0) ∨ (p = .getY ∧ r = .F1) ∨ (p = .getHeading ∧ r = .F2)) := by
  match j, hj with
  | 0, _ => exact ⟨.getX, .F0, rfl, rfl, .inl ⟨rfl, rfl⟩⟩
  | 1, _ => exact ⟨.getY, .F1, rfl, rfl, .inr (.inl ⟨rfl, rfl⟩)⟩
  | 2, _ => exact ⟨.getHeading, .F2, rfl, rfl, .inr (.inr ⟨rfl, rfl⟩)⟩

/-- `POS` with its send `j` failing, the events before its call `j` as `eventsBefore` has them. -/
theorem pos_fails_at {s : State} {j m : Nat} {p : Port} (hj : (portsOf .pos)[j]? = some p)
    (hret : ∀ l, l ≤ j → returnsAtOnce (answerAt l s) = true) (hp : proceeds j s = true)
    (hfault : s.faults[j]? = some (some m)) (hr : roomFor (4 * j + 4) s = true) :
    ∃ t, exec .pos s = .next t ∧ t.st = .idle ∧ t.ind = false ∧ t.todo = [] ∧ t.outcome = none ∧ t.input = s.input
      ∧ t.output = s.output ++ (replies j s ++ (bytesOf32 s.cfg.byteOrder (answerAt j s).result).take (min m 3))
      ∧ t.trace = s.trace ++ (eventsBefore .pos j s ++ [.call (callOf p (answerAt j s).result s)]
          ++ ((bytesOf32 s.cfg.byteOrder (answerAt j s).result).take (min m 3)).map Event.out ++ [.fault .out]) := by
  have hlt : j < 3 := (List.getElem?_eq_some_iff.mp hj).1
  obtain ⟨q, r, hops, hq, hqr⟩ := posFrom_eq hlt
  obtain rfl : q = p := Option.some.inj (hq.symm.trans hj)
  obtain ⟨v, hv, hat⟩ := pos_reaches (by omega) (fun l hl => hret l (by omega)) hp (roomFor_mono (by omega) hr)
  obtain ⟨t, ht, hget, hcfg, hind, hin, hout, hf, htr⟩ := runOps_call_getter (.sendFloat r :: posFrom (j + 1)) hqr
    (by rw [hat.answer]; exact hret j (Nat.le_refl j))
  have hroom : roomFor 4 t = true := roomFor_after (s := s) (replies j s) (hcfg.trans hat.cfg) (hout.trans hat.output)
    (by rwa [replies_length])
  have fails := runOps_sendFloat_fails (r := r) (posFrom (j + 1)) (driverChoice_drop (hf.trans hat.faults) hfault) hroom
  have hcall : callOf q (answerAt j s).result v = callOf q (answerAt j s).result s := by
    rcases hqr with ⟨rfl, -⟩ | ⟨rfl, -⟩ | ⟨rfl, -⟩ <;> rfl
  rw [hget, hcfg, hat.cfg, hat.answer] at fails
  rw [hat.answer, hcall] at htr
  refine ⟨_, by rw [hv, hops, ht, fails], rfl, ?_, rfl, rfl, ?_, ?_, ?_⟩
  · exact hind.trans hat.ind
  · exact hin.trans hat.input
  · simp [hout, hat.output]
  · simp [htr, hat.trace]

/-- The three calls of `POS` with the bytes sent after each (R162). -/
def posSends (s : State) : List (Call × List Byte) :=
  [(.getX (answerAt 0 s).result, bytesOf32 s.cfg.byteOrder (answerAt 0 s).result),
    (.getY (answerAt 1 s).result, bytesOf32 s.cfg.byteOrder (answerAt 1 s).result),
    (.getHeading (answerAt 2 s).result, bytesOf32 s.cfg.byteOrder (answerAt 2 s).result)]

theorem posSends_getElem {s : State} {j : Nat} {c : Call} {bytes : List Byte} (h : (posSends s)[j]? = some (c, bytes)) :
    ∃ p, (portsOf .pos)[j]? = some p ∧ callOf p (answerAt j s).result s = c
      ∧ bytesOf32 s.cfg.byteOrder (answerAt j s).result = bytes := by
  match j, h with
  | 0, h | 1, h | 2, h =>
    obtain ⟨hc, hb⟩ := Prod.mk.inj (Option.some.inj h)
    exact ⟨_, rfl, hc, hb⟩

theorem posSends_bytes (s : State) {j : Nat} (hj : j < 3) : ((posSends s).take j).flatMap Prod.snd = replies j s := by
  match j, hj with
  | 0, _ => rfl
  | 1, _ => rfl
  | 2, _ => rfl

theorem posSends_events (s : State) {j : Nat} (hj : j < 3) :
    [.ind false] ++ ((posSends s).take j).flatMap (fun send => .call send.1 :: send.2.map Event.out) = eventsBefore .pos j s := by
  match j, hj with
  | 0, _ => rfl
  | 1, _ => simp [posSends, eventsBefore, getterEvents, payloadLength]
  | 2, _ => simp [posSends, eventsBefore, getterEvents, payloadLength]

/-- Settles O36: the three sends are those of the three getters, and the failing one ends the action. -/
theorem posReplyFailure : Obligations.PosReplyFailure := by
  intro s j m c bytes o x y h sends hsend hp hfault hr ha0 ha1 ha2
  have hsends : sends = posSends s := rfl
  rw [hsends] at hsend ⊢
  obtain ⟨p, hport, rfl, rfl⟩ := posSends_getElem hsend
  have hj : j < 3 := (List.getElem?_eq_some_iff.mp hport).1
  have hret : ∀ l, l ≤ j → returnsAtOnce (answerAt l s) = true := fun l hl =>
    match l, hl with
    | 0, _ => ha0
    | 1, hl => ha1 hl
    | 2, hl => ha2 hl
    | l + 3, hl => by omega
  rw [posSends_bytes s hj, posSends_events s hj]
  exact pos_fails_at hport hret hp hfault hr

/-! ### A payload in two parts -/

/-- `s` once the host has sent `late` and has no further move. -/
def withLate (late : List Byte) (s : State) : State := { s with input := s.input ++ late, host := [] }

/-- `ops`, run on `s`, holds, and goes on after `late` has arrived as if it had been there from the start. -/
def ResumesWith (late : List Byte) (ops : List Op) (s : State) : Prop :=
  ∃ op more t, runOps ops s = t ∧ t.todo = op :: more
    ∧ runOps (op :: more) (withLate late { t with todo := [] }) = runOps ops (withLate late s)

/-- A read that holds, the driver planning nothing, leaves everything as it was but itself in progress. -/
theorem ResumesWith.of_short {op : Op} {rest : List Op} {s : State} (late : List Byte) (h0 : s.todo = []) (hf : s.faults = [])
    (h : runOps (op :: rest) s = { attempt s with todo := op :: rest }) : ResumesWith late (op :: rest) s := by
  refine ⟨op, rest, _, h, rfl, ?_⟩
  have unchanged : { attempt s with todo := [] } = s := by
    cases s
    simp_all [attempt]
  exact congrArg (fun u => runOps (op :: rest) (withLate late u)) unchanged

theorem resumesWith_floats (late : List Byte) (regs : List FReg) (rest : List Op) (s : State) (h0 : s.todo = [])
    (hf : s.faults = []) (hl : s.input.length < 4 * regs.length) :
    ResumesWith late (regs.map Op.receiveFloat ++ rest) s := by
  have hc : driverChoice s = none := by rw [driverChoice, hf]; rfl
  induction regs generalizing s with
  | nil => simp at hl
  | cons r regs ih =>
    by_cases hshort : s.input.length < 4
    · exact .of_short late h0 hf (runOps_receiveFloat_short _ hc hshort)
    · obtain ⟨b0, b1, b2, b3, l, hi⟩ : ∃ b0 b1 b2 b3 l, s.input = b0 :: b1 :: b2 :: b3 :: l := by
        rcases hs : s.input with _ | ⟨b0, _ | ⟨b1, _ | ⟨b2, _ | ⟨b3, l⟩⟩⟩⟩ <;> simp_all
      have readNow := runOps_receiveFloat (r := r) (regs.map Op.receiveFloat ++ rest) hc hi
      have readThen := runOps_receiveFloat (s := withLate late s) (r := r) (regs.map Op.receiveFloat ++ rest) hc
        (b0 := b0) (b1 := b1) (b2 := b2) (b3 := b3) (l := l ++ late) (by simp [withLate, hi])
      obtain ⟨op, more, t, ht, htodo, hgo⟩ := ih (setF r (valueOf32 s.cfg.byteOrder b0 b1 b2 b3) (consume 4 (attempt s)))
        (by simp [h0]) (by simp [hf]) (by simp [hi] at hl ⊢; omega) (by simp [driverChoice, hf])
      refine ⟨op, more, t, readNow.trans ht, htodo, hgo.trans (Eq.trans ?_ readThen.symm)⟩
      cases r <;> simp [withLate, setF, consume, attempt, hi]

/-- An action that holds for want of payload, and the step in which the host sends the rest. -/
theorem exec_in_two_parts {i : Instr} {action : List Op} {o : CycleOutcome} {s : State} {early late : List Byte}
    (hi : statementsOf s.cfg.hexCase i = some (dispatchOps action o))
    (h : ResumesWith late (action ++ [.finish o]) (enterAction { s with input := early, faults := [] })) :
    ∃ t, exec i { s with input := early, faults := [] } = .next t
      ∧ step { t with host := [⟨late, 0⟩] } = exec i { s with input := early ++ late, faults := [], host := [] } := by
  obtain ⟨op, more, t, ht, htodo, hgo⟩ := h
  have resumed : step { t with host := [⟨late, 0⟩] } = _ := step_resumes (op := op) (rest := more) htodo
  refine ⟨t, (exec_action (s := { s with input := early, faults := [] }) hi).trans (congrArg Host.Outcome.next ht), ?_⟩
  rw [resumed, exec_action (s := { s with input := early ++ late, faults := [], host := [] }) hi]
  exact congrArg Host.Outcome.next hgo

/-- Settles O38. -/
theorem payloadInTwoPartsIsTheSame : Obligations.PayloadInTwoPartsIsTheSame := by
  intro s i early late h
  rcases h with ⟨rfl, hl⟩ | ⟨rfl, hl⟩
  · exact exec_in_two_parts (action := clrAction) rfl (resumesWith_floats late [.F0, .F1, .F2] poseCall _ rfl rfl (by exact hl))
  · exact exec_in_two_parts (action := beepAction) rfl
      (.of_short late rfl rfl (runOps_receiveUint16_short tones rfl (by exact hl)))

/-! ### A text that does not fit -/

theorem runOps_sendBytes_holds {s : State} {b : List Byte} (rest : List Op) (hc : driverChoice s = none)
    (hr : outRoom b.length s < b.length) : runOps (.sendBytes b :: rest) s =
      { produce (b.take (outRoom b.length s)) (attempt s) with todo := .sendBytes (b.drop (outRoom b.length s)) :: rest } := by
  simp only [runOps, runOp, sendBytes, List.take_length, memWrite_holds hc hr]

/-- With fewer than seven places `INVALID` writes what fits, and the rest of the text is what is left of it. -/
theorem invalid_holds {s : State} {c : Nat} {c1 c2 c3 c4 : Byte} (hcap : s.cfg.outCapacity = some c) (hf : s.faults = [])
    (hfull : c < s.output.length + 7) :
    ∃ t, exec (.invalid c1 c2 c3 c4) s = .next t
      ∧ t.todo = [.sendBytes (invalidText.drop (c - s.output.length)), .finish .invalid]
      ∧ t.cfg = s.cfg ∧ t.st = .dispatch ∧ t.ind = false ∧ t.outcome = s.outcome ∧ t.faults = []
      ∧ t.output = s.output ++ invalidText.take (c - s.output.length)
      ∧ t.trace = s.trace ++ ([.ind false] ++ (invalidText.take (c - s.output.length)).map Event.out) := by
  have hroom : outRoom invalidText.length (enterAction s) = c - s.output.length := by
    simp only [outRoom, enterAction_cfg, hcap, enterAction_output, invalidText, List.length_cons, List.length_nil]
    omega
  have held := runOps_sendBytes_holds (s := enterAction s) (b := invalidText) [.finish .invalid]
    (by rw [driverChoice, enterAction_faults, hf]; rfl) (by rw [hroom]; simp only [invalidText, List.length_cons, List.length_nil]; omega)
  rw [hroom] at held
  refine ⟨_, (exec_action (action := invalidAction) rfl).trans (congrArg Host.Outcome.next held), rfl, rfl, rfl, rfl, rfl, ?_, rfl, ?_⟩
  · simp [hf]
  · simp

/-- A held text completes in the step in which the host has drained enough. -/
theorem step_completes_text {t : State} {b : List Byte} {o : CycleOutcome} (htodo : t.todo = [.sendBytes b, .finish o])
    (hf : t.faults = []) (hb : b ≠ []) (hr : roomFor b.length (hostActs t) = true) :
    ∃ u, step t = .next u ∧ u.st = .done ∧ u.outcome = some o ∧ u.trace = t.trace ++ b.map Event.out := by
  have sent := runOps_sendBytes (s := { hostActs t with todo := [] }) [.finish o]
    (show t.faults.headD none = none by rw [hf]; rfl) hb hr
  exact ⟨_, (step_resumes htodo).trans (congrArg Host.Outcome.next sent), rfl, rfl, rfl⟩

/-- Settles O39: as many bytes as fit, and after the drain the rest. -/
theorem fullOutputHoldsThenCompletes : Obligations.FullOutputHoldsThenCompletes := by
  intro s c d c1 c2 c3 c4 hcap hf hle hfull hdrain hdc
  have hseven : invalidText.length = 7 := rfl
  obtain ⟨t, ht, htodo, hcfg, hst, hind, hout, hf', houtput, htr⟩ := invalid_holds (c1 := c1) (c2 := c2) (c3 := c3) (c4 := c4)
    hcap hf hfull
  have hrest : (invalidText.drop (c - s.output.length)).length = 7 - (c - s.output.length) := by rw [List.length_drop, hseven]
  have hroom : roomFor (invalidText.drop (c - s.output.length)).length (hostActs { t with host := [⟨[], d⟩] }) = true := by
    simp only [roomFor, hostActs_cfg, hcfg, hcap, hrest, hostActs_output, houtput, List.headD_cons, List.length_drop,
      List.length_append, List.length_take, hseven, decide_eq_true_eq]
    omega
  obtain ⟨u, hu, hdone, ho, hutr⟩ := step_completes_text (t := { t with host := [⟨[], d⟩] }) htodo hf'
    (List.ne_nil_of_length_pos (by rw [hrest]; omega)) hroom
  refine ⟨t, u, ht, hst, hind, hout, houtput, hu, hdone, ho, hutr.trans ?_⟩
  rw [htr, List.append_assoc, List.append_assoc, ← List.map_append, List.take_append_drop]

end Sys2Proof.Machine
end
